-- ==== Sys2Proof/Word.lean ====
section
/-!
DEFINITION. The value types of 00_scope.md R7 and R10: words, keys, axes, indices, and the triple of axes that a
spatial key names (42_spatial_keys.md R150). Bit 0 is the least significant bit (R7).
-/

namespace Sys2Proof

/-- A word of the command port, of a BitArray and of a layer (00_scope.md R7, R10). -/
abbrev Word := BitVec 32

/-- A spatial key scalar, Linear or Morton by the operation that reads it (00_scope.md R10 `Key30`). -/
abbrev Key := BitVec 30

/-- One axis of a spatial key, 0..1023 (00_scope.md R10 `Axis`). -/
abbrev Axis := BitVec 10

/-- A VoxelIndex key, 0..4095 (00_scope.md R10 `VIdx`). -/
abbrev VIdx := BitVec 12

/-- One component of a VoxelIndex, 0..3 (43_voxel_index.md R200). -/
abbrev Comp := BitVec 2

/-- A 6-bit face mask (00_scope.md R10 `Mask6`). -/
abbrev Mask6 := BitVec 6

/-- The `(x,y,z)` triple that a spatial key identifies (42_spatial_keys.md R150). Arithmetic on an `Axis` wraps
modulo 1024, as R156 asks of every key operation. -/
structure Triple where
  x : Axis
  y : Axis
  z : Axis
deriving DecidableEq, Repr

end Sys2Proof
end

