-- ==== Sys2Proof/Syntax.lean ====
section
/-!
DEFINITION. The commands of `BVXCMD-1`: one constructor per row of the opcode map of 30_encoding.md R86, its header
fields first at their own widths (R83, R84), then its operand words in order. A command is the whole header and all its
operand words (R80).
-/

namespace Sys2Proof

/-- A whole command (30_encoding.md R80, R86). -/
inductive Instr where
  -- BitOps (40_bitops.md)
  /-- `BITAT` (R110). -/
  | bitat (p : BitVec 5) (d : Word)
  /-- `BITINV` (R111). -/
  | bitinv (p : BitVec 5) (d : Word)
  /-- `SETB` (R112). -/
  | setb (p : BitVec 5) (d : Word)
  /-- `CLRB` (R113). -/
  | clrb (p : BitVec 5) (d : Word)
  /-- `TGLB` (R114). -/
  | tglb (p : BitVec 5) (d : Word)
  /-- `PUTB` (R115). -/
  | putb (p : BitVec 5) (b : BitVec 1) (d : Word)
  /-- `MASKN` (R116). -/
  | maskn (n : BitVec 6)
  /-- `POPC` (R117). -/
  | popc (d : Word)
  /-- `ISPOW2` (R118). -/
  | ispow2 (v : Word)
  /-- `FLAT3` (R119). -/
  | flat3 (b : BitVec 4) (x y z : Word)
  /-- `FLAT2` (R120). -/
  | flat2 (b : BitVec 4) (x y : Word)
  -- the scratch BitArray (41_bitarray.md)
  /-- `BA.NEW` (R131). -/
  | baNew (n : Word)
  /-- `BA.GET` (R132). -/
  | baGet (pos : Word)
  /-- `BA.GETINV` (R133). -/
  | baGetInv (pos : Word)
  /-- `BA.SET` (R134). -/
  | baSet (pos : Word)
  /-- `BA.PUT` (R135). -/
  | baPut (b : BitVec 1) (pos : Word)
  /-- `BA.CLR` (R136). -/
  | baClr (pos : Word)
  /-- `BA.TGL` (R137). -/
  | baTgl (pos : Word)
  /-- `BA.POPC` (R138). -/
  | baPopc
  /-- `BA.RDW` (R139). -/
  | baRdw (idx : Word)
  /-- `BA.WRW` (R140). -/
  | baWrw (idx val : Word)
  -- Linear keys (42_spatial_keys.md section 2)
  /-- `LK.FROM` (R156). -/
  | lkFrom (x y z : Word)
  /-- `LK.X` (R157). -/
  | lkX (k : Word)
  /-- `LK.Y` (R158). -/
  | lkY (k : Word)
  /-- `LK.Z` (R159). -/
  | lkZ (k : Word)
  /-- `LK.INCX` (R160). -/
  | lkIncX (k : Word)
  /-- `LK.DECX` (R161). -/
  | lkDecX (k : Word)
  /-- `LK.INCY` (R162). -/
  | lkIncY (k : Word)
  /-- `LK.DECY` (R163). -/
  | lkDecY (k : Word)
  /-- `LK.INCZ` (R164). -/
  | lkIncZ (k : Word)
  /-- `LK.DECZ` (R165). -/
  | lkDecZ (k : Word)
  /-- `LK.ADD` (R166). -/
  | lkAdd (a b : Word)
  /-- `LK.SUB` (R167). -/
  | lkSub (a b : Word)
  /-- `LK.CMP` (R168). -/
  | lkCmp (a b : Word)
  -- Morton keys (42_spatial_keys.md section 3)
  /-- `MK.FROM` (R170). -/
  | mkFrom (x y z : Word)
  /-- `MK.X` (R171). -/
  | mkX (k : Word)
  /-- `MK.Y` (R172). -/
  | mkY (k : Word)
  /-- `MK.Z` (R173). -/
  | mkZ (k : Word)
  /-- `MK.INCX` (R174). -/
  | mkIncX (k : Word)
  /-- `MK.DECX` (R175). -/
  | mkDecX (k : Word)
  /-- `MK.INCY` (R176). -/
  | mkIncY (k : Word)
  /-- `MK.DECY` (R177). -/
  | mkDecY (k : Word)
  /-- `MK.INCZ` (R178). -/
  | mkIncZ (k : Word)
  /-- `MK.DECZ` (R179). -/
  | mkDecZ (k : Word)
  /-- `MK.ADD` (R180). -/
  | mkAdd (a b : Word)
  /-- `MK.SUB` (R181). -/
  | mkSub (a b : Word)
  /-- `MK.CMP` (R182). -/
  | mkCmp (a b : Word)
  -- VoxelIndex and WorldIndex (43_voxel_index.md)
  /-- `VI.FROM` (R202). -/
  | viFrom (vx vy vz bX bY bZ : Word)
  /-- `VI.VKEY` (R203). -/
  | viVKey (k : Word)
  /-- `VI.BKEY` (R204). -/
  | viBKey (k : Word)
  /-- `VI.GETC` (R205). -/
  | viGetC (sel : BitVec 3) (k : Word)
  /-- `VI.CMP` (R207). -/
  | viCmp (a b : Word)
  /-- `WI.FROM` (R210). -/
  | wiFrom (wx wy wz : Word)
  -- chunks (44_layer_chunk.md)
  /-- `CH.SET` (R228). -/
  | chSet (vi : BitVec 12) (key : Word)
  /-- `CH.UNSET` (R229). -/
  | chUnset (vi : BitVec 12) (key : Word)
  /-- `CH.TGL` (R230). -/
  | chTgl (vi : BitVec 12) (key : Word)
  /-- `CH.GET` (R231). -/
  | chGet (vi : BitVec 12) (key : Word)
  /-- `CH.FILL` (R232). -/
  | chFill (vi : BitVec 12) (key : Word)
  /-- `CH.EMPTY` (R233). -/
  | chEmpty (vi : BitVec 12) (key : Word)
  /-- `CH.COUNT` (R234). -/
  | chCount (vi : BitVec 12) (key : Word)
  /-- `CH.LEN` (R235). -/
  | chLen (key : Word)
  /-- `CH.MGET` (R236). -/
  | chMGet (vi : BitVec 12) (key : Word)
  /-- `CH.MSET` (R237). -/
  | chMSet (vi : BitVec 12) (key val : Word)
  -- the chunk store (45_world_store.md)
  /-- `W.INS` (R252). -/
  | wIns (var : BitVec 2) (key : Word)
  /-- `W.GET` (R253). -/
  | wGet (key : Word)
  /-- `W.REM` (R254). -/
  | wRem (key : Word)
  -- face solver and index expander (46_face_solver.md)
  /-- `FACE` (R274). -/
  | face (key : Word)
  /-- `FM.RD` (R276). -/
  | fmRd (i : BitVec 12)
  /-- `GIDX` (R281). -/
  | gidx (flip : BitVec 1)
  /-- `GIDXO` (R282). -/
  | gidxo (flip : BitVec 1) (outLen : Word)
  -- the raycaster (47_raycaster.md)
  /-- `RAY` (R308). -/
  | ray (sx sy sz ex ey ez : Word)
deriving DecidableEq, Repr

end Sys2Proof
end

