-- ==== Sys2Proof/Decode.lean ====
section
/-!
DEFINITION. The command encoding of 30_encoding.md: the eighteen header formats (R83), the opcode map (R86), the
decoder, total on every list of port words, and the encoder. Decoding an illegal header is no failure of the decoder:
it names the reason (R87, R335) and says which words follow the header, since an illegal header is consumed alone (R336).
-/

namespace Sys2Proof

/-- The eighteen header formats (30_encoding.md R83). -/
inductive Format where
  | Z | W1 | W2 | W3 | W6 | P1 | PB1 | N0 | B3 | B2 | V1 | S1 | K1 | K2 | T1 | I0 | F0 | F1
deriving DecidableEq, Repr

/-- The operand-word count of a format (30_encoding.md R83; with R90, a command's length less one). -/
def formatOperands : Format → Nat
  | .Z | .N0 | .I0 | .F0 => 0
  | .W1 | .P1 | .PB1 | .V1 | .S1 | .K1 | .T1 | .F1 => 1
  | .W2 | .B2 | .K2 => 2
  | .W3 | .B3 => 3
  | .W6 => 6

/-- The header bits that must match exactly, opcode bits and must-be-zero bits (30_encoding.md R83, column "header mask"). -/
def formatMask : Format → Word
  | .Z | .W1 | .W2 | .W3 | .W6 => 0xFFFFFFFF#32
  | .P1 => 0xFFFFFFE0#32
  | .PB1 => 0xFFFFFEE0#32
  | .N0 => 0xFFFFFFC0#32
  | .B3 | .B2 => 0xFFFFFFF0#32
  | .V1 | .F0 | .F1 => 0xFFFFFFFE#32
  | .S1 => 0xFFFFFFF8#32
  | .K1 | .K2 | .I0 => 0xFFFFF000#32
  | .T1 => 0xFFFFFFFC#32

/-- A row of the opcode map (30_encoding.md R86): the opcode, the mnemonic, the format, and the command that the row
makes of `imm16` and of the operand words `x[0], x[1], …`. -/
structure OpRow where
  op : BitVec 8
  mnemonic : String
  format : Format
  build : BitVec 16 → (Nat → Word) → Instr

/-- The rows of BitOps (40_bitops.md) in the opcode map (30_encoding.md R86). -/
def rowsBitOps : List OpRow := [
  ⟨0x01#8, "BITAT", .P1, fun m x => .bitat (m.extractLsb' 0 5) (x 0)⟩,
  ⟨0x02#8, "BITINV", .P1, fun m x => .bitinv (m.extractLsb' 0 5) (x 0)⟩,
  ⟨0x03#8, "SETB", .P1, fun m x => .setb (m.extractLsb' 0 5) (x 0)⟩,
  ⟨0x04#8, "CLRB", .P1, fun m x => .clrb (m.extractLsb' 0 5) (x 0)⟩,
  ⟨0x05#8, "TGLB", .P1, fun m x => .tglb (m.extractLsb' 0 5) (x 0)⟩,
  ⟨0x06#8, "PUTB", .PB1, fun m x => .putb (m.extractLsb' 0 5) (m.extractLsb' 8 1) (x 0)⟩,
  ⟨0x07#8, "MASKN", .N0, fun m _ => .maskn (m.extractLsb' 0 6)⟩,
  ⟨0x08#8, "POPC", .W1, fun _ x => .popc (x 0)⟩,
  ⟨0x09#8, "ISPOW2", .W1, fun _ x => .ispow2 (x 0)⟩,
  ⟨0x0A#8, "FLAT3", .B3, fun m x => .flat3 (m.extractLsb' 0 4) (x 0) (x 1) (x 2)⟩,
  ⟨0x0B#8, "FLAT2", .B2, fun m x => .flat2 (m.extractLsb' 0 4) (x 0) (x 1)⟩]

/-- The rows of the scratch BitArray (41_bitarray.md) in the opcode map (30_encoding.md R86). -/
def rowsBitArray : List OpRow := [
  ⟨0x10#8, "BA.NEW", .W1, fun _ x => .baNew (x 0)⟩,
  ⟨0x11#8, "BA.GET", .W1, fun _ x => .baGet (x 0)⟩,
  ⟨0x12#8, "BA.GETINV", .W1, fun _ x => .baGetInv (x 0)⟩,
  ⟨0x13#8, "BA.SET", .W1, fun _ x => .baSet (x 0)⟩,
  ⟨0x14#8, "BA.PUT", .V1, fun m x => .baPut (m.extractLsb' 0 1) (x 0)⟩,
  ⟨0x15#8, "BA.CLR", .W1, fun _ x => .baClr (x 0)⟩,
  ⟨0x16#8, "BA.TGL", .W1, fun _ x => .baTgl (x 0)⟩,
  ⟨0x17#8, "BA.POPC", .Z, fun _ _ => .baPopc⟩,
  ⟨0x18#8, "BA.RDW", .W1, fun _ x => .baRdw (x 0)⟩,
  ⟨0x19#8, "BA.WRW", .W2, fun _ x => .baWrw (x 0) (x 1)⟩]

/-- The rows of Linear keys (42_spatial_keys.md section 2) in the opcode map (30_encoding.md R86). -/
def rowsLinearKey : List OpRow := [
  ⟨0x20#8, "LK.FROM", .W3, fun _ x => .lkFrom (x 0) (x 1) (x 2)⟩,
  ⟨0x21#8, "LK.X", .W1, fun _ x => .lkX (x 0)⟩,
  ⟨0x22#8, "LK.Y", .W1, fun _ x => .lkY (x 0)⟩,
  ⟨0x23#8, "LK.Z", .W1, fun _ x => .lkZ (x 0)⟩,
  ⟨0x24#8, "LK.INCX", .W1, fun _ x => .lkIncX (x 0)⟩,
  ⟨0x25#8, "LK.DECX", .W1, fun _ x => .lkDecX (x 0)⟩,
  ⟨0x26#8, "LK.INCY", .W1, fun _ x => .lkIncY (x 0)⟩,
  ⟨0x27#8, "LK.DECY", .W1, fun _ x => .lkDecY (x 0)⟩,
  ⟨0x28#8, "LK.INCZ", .W1, fun _ x => .lkIncZ (x 0)⟩,
  ⟨0x29#8, "LK.DECZ", .W1, fun _ x => .lkDecZ (x 0)⟩,
  ⟨0x2A#8, "LK.ADD", .W2, fun _ x => .lkAdd (x 0) (x 1)⟩,
  ⟨0x2B#8, "LK.SUB", .W2, fun _ x => .lkSub (x 0) (x 1)⟩,
  ⟨0x2C#8, "LK.CMP", .W2, fun _ x => .lkCmp (x 0) (x 1)⟩]

/-- The rows of Morton keys (42_spatial_keys.md section 3) in the opcode map (30_encoding.md R86). -/
def rowsMortonKey : List OpRow := [
  ⟨0x30#8, "MK.FROM", .W3, fun _ x => .mkFrom (x 0) (x 1) (x 2)⟩,
  ⟨0x31#8, "MK.X", .W1, fun _ x => .mkX (x 0)⟩,
  ⟨0x32#8, "MK.Y", .W1, fun _ x => .mkY (x 0)⟩,
  ⟨0x33#8, "MK.Z", .W1, fun _ x => .mkZ (x 0)⟩,
  ⟨0x34#8, "MK.INCX", .W1, fun _ x => .mkIncX (x 0)⟩,
  ⟨0x35#8, "MK.DECX", .W1, fun _ x => .mkDecX (x 0)⟩,
  ⟨0x36#8, "MK.INCY", .W1, fun _ x => .mkIncY (x 0)⟩,
  ⟨0x37#8, "MK.DECY", .W1, fun _ x => .mkDecY (x 0)⟩,
  ⟨0x38#8, "MK.INCZ", .W1, fun _ x => .mkIncZ (x 0)⟩,
  ⟨0x39#8, "MK.DECZ", .W1, fun _ x => .mkDecZ (x 0)⟩,
  ⟨0x3A#8, "MK.ADD", .W2, fun _ x => .mkAdd (x 0) (x 1)⟩,
  ⟨0x3B#8, "MK.SUB", .W2, fun _ x => .mkSub (x 0) (x 1)⟩,
  ⟨0x3C#8, "MK.CMP", .W2, fun _ x => .mkCmp (x 0) (x 1)⟩]

/-- The rows of VoxelIndex and WorldIndex (43_voxel_index.md) in the opcode map (30_encoding.md R86). -/
def rowsVoxelIndex : List OpRow := [
  ⟨0x40#8, "VI.FROM", .W6, fun _ x => .viFrom (x 0) (x 1) (x 2) (x 3) (x 4) (x 5)⟩,
  ⟨0x41#8, "VI.VKEY", .W1, fun _ x => .viVKey (x 0)⟩,
  ⟨0x42#8, "VI.BKEY", .W1, fun _ x => .viBKey (x 0)⟩,
  ⟨0x43#8, "VI.GETC", .S1, fun m x => .viGetC (m.extractLsb' 0 3) (x 0)⟩,
  ⟨0x44#8, "VI.CMP", .W2, fun _ x => .viCmp (x 0) (x 1)⟩,
  ⟨0x48#8, "WI.FROM", .W3, fun _ x => .wiFrom (x 0) (x 1) (x 2)⟩]

/-- The rows of chunks (44_layer_chunk.md) in the opcode map (30_encoding.md R86). -/
def rowsChunk : List OpRow := [
  ⟨0x50#8, "CH.SET", .K1, fun m x => .chSet (m.extractLsb' 0 12) (x 0)⟩,
  ⟨0x51#8, "CH.UNSET", .K1, fun m x => .chUnset (m.extractLsb' 0 12) (x 0)⟩,
  ⟨0x52#8, "CH.TGL", .K1, fun m x => .chTgl (m.extractLsb' 0 12) (x 0)⟩,
  ⟨0x53#8, "CH.GET", .K1, fun m x => .chGet (m.extractLsb' 0 12) (x 0)⟩,
  ⟨0x54#8, "CH.FILL", .K1, fun m x => .chFill (m.extractLsb' 0 12) (x 0)⟩,
  ⟨0x55#8, "CH.EMPTY", .K1, fun m x => .chEmpty (m.extractLsb' 0 12) (x 0)⟩,
  ⟨0x56#8, "CH.COUNT", .K1, fun m x => .chCount (m.extractLsb' 0 12) (x 0)⟩,
  ⟨0x57#8, "CH.LEN", .W1, fun _ x => .chLen (x 0)⟩,
  ⟨0x58#8, "CH.MGET", .K1, fun m x => .chMGet (m.extractLsb' 0 12) (x 0)⟩,
  ⟨0x59#8, "CH.MSET", .K2, fun m x => .chMSet (m.extractLsb' 0 12) (x 0) (x 1)⟩]

/-- The rows of the chunk store (45_world_store.md) in the opcode map (30_encoding.md R86). -/
def rowsStore : List OpRow := [
  ⟨0x60#8, "W.INS", .T1, fun m x => .wIns (m.extractLsb' 0 2) (x 0)⟩,
  ⟨0x61#8, "W.GET", .W1, fun _ x => .wGet (x 0)⟩,
  ⟨0x62#8, "W.REM", .W1, fun _ x => .wRem (x 0)⟩]

/-- The rows of face solver and index expander (46_face_solver.md) in the opcode map (30_encoding.md R86). -/
def rowsFaceSolver : List OpRow := [
  ⟨0x70#8, "FACE", .W1, fun _ x => .face (x 0)⟩,
  ⟨0x71#8, "FM.RD", .I0, fun m _ => .fmRd (m.extractLsb' 0 12)⟩,
  ⟨0x72#8, "GIDX", .F0, fun m _ => .gidx (m.extractLsb' 0 1)⟩,
  ⟨0x73#8, "GIDXO", .F1, fun m x => .gidxo (m.extractLsb' 0 1) (x 0)⟩]

/-- The rows of the raycaster (47_raycaster.md) in the opcode map (30_encoding.md R86). -/
def rowsRaycaster : List OpRow := [
  ⟨0x80#8, "RAY", .W6, fun _ x => .ray (x 0) (x 1) (x 2) (x 3) (x 4) (x 5)⟩]

/-- The opcode map of 30_encoding.md R86, all 71 rows. -/
def opcodeMap : List OpRow :=
  rowsBitOps ++ rowsBitArray ++ rowsLinearKey ++ rowsMortonKey ++ rowsVoxelIndex ++
  rowsChunk ++ rowsStore ++ rowsFaceSolver ++ rowsRaycaster

/-- `H[31:24]`, the opcode (30_encoding.md R81). -/
def headerOp (h : Word) : BitVec 8 := h.extractLsb' 24 8

/-- `H[23:16]`, reserved, must be 0 (30_encoding.md R81). -/
def headerReserved (h : Word) : BitVec 8 := h.extractLsb' 16 8

/-- `H[15:0]`, `imm16` (30_encoding.md R81). -/
def headerImm (h : Word) : BitVec 16 := h.extractLsb' 0 16

/-- The header word of an opcode and an `imm16`, its reserved byte 0 (30_encoding.md R81). -/
def headerWord (op : BitVec 8) (imm : BitVec 16) : Word := op ++ 0#8 ++ imm

/-- The header bits a row fixes: its opcode, and 0 at every other bit of its mask (30_encoding.md R83). -/
def rowMatch (r : OpRow) : Word := headerWord r.op 0#16

/-- The row of an opcode, if the opcode is assigned (30_encoding.md R86). -/
def rowOf (op : BitVec 8) : Option OpRow := opcodeMap.find? fun r => r.op == op

/-- Why a header word is no command (30_encoding.md R87, 60_exceptions.md R335). -/
inductive IllegalHeader where
  /-- `H[31:24]` is not in the opcode map. -/
  | unassignedOpcode
  /-- `H[23:16]` is not zero. -/
  | reservedByte
  /-- A bit of `imm16` that the format does not assign is not zero. -/
  | reservedField
deriving DecidableEq, Repr

/-- What the words on the command port are. -/
inductive Decoded where
  /-- The host has not yet sent one whole command. -/
  | incomplete
  /-- The first word is no legal header; `rest` are the words after it, which are not consumed (60_exceptions.md R336). -/
  | illegal (why : IllegalHeader) (rest : List Word)
  /-- One whole command, and the words after it. -/
  | command (i : Instr) (rest : List Word)
deriving DecidableEq, Repr

/-- Steps (1) and (2) of 30_encoding.md R92: decode the header against the opcode map under the row's mask, then read
as many operand words as the row has. -/
def decode : List Word → Decoded
  | [] => .incomplete
  | h :: rest =>
    match rowOf (headerOp h) with
    | none => .illegal .unassignedOpcode rest
    | some r =>
      if headerReserved h ≠ 0 then .illegal .reservedByte rest
      else if h &&& formatMask r.format ≠ rowMatch r then .illegal .reservedField rest
      else if rest.length < formatOperands r.format then .incomplete
      else .command (r.build (headerImm h) fun j => rest.getD j 0) (rest.drop (formatOperands r.format))

/-- The words of a command: its header by 30_encoding.md R81, R83 and R86, then its operand words in order (R80). -/
def encode : Instr → List Word
  | .bitat p d => headerWord 0x01#8 (p.setWidth 16) :: [d]
  | .bitinv p d => headerWord 0x02#8 (p.setWidth 16) :: [d]
  | .setb p d => headerWord 0x03#8 (p.setWidth 16) :: [d]
  | .clrb p d => headerWord 0x04#8 (p.setWidth 16) :: [d]
  | .tglb p d => headerWord 0x05#8 (p.setWidth 16) :: [d]
  | .putb p b d => headerWord 0x06#8 (p.setWidth 16 ||| (b.setWidth 16 <<< 8)) :: [d]
  | .maskn n => headerWord 0x07#8 (n.setWidth 16) :: []
  | .popc d => headerWord 0x08#8 0#16 :: [d]
  | .ispow2 v => headerWord 0x09#8 0#16 :: [v]
  | .flat3 b x y z => headerWord 0x0A#8 (b.setWidth 16) :: [x, y, z]
  | .flat2 b x y => headerWord 0x0B#8 (b.setWidth 16) :: [x, y]
  | .baNew n => headerWord 0x10#8 0#16 :: [n]
  | .baGet pos => headerWord 0x11#8 0#16 :: [pos]
  | .baGetInv pos => headerWord 0x12#8 0#16 :: [pos]
  | .baSet pos => headerWord 0x13#8 0#16 :: [pos]
  | .baPut b pos => headerWord 0x14#8 (b.setWidth 16) :: [pos]
  | .baClr pos => headerWord 0x15#8 0#16 :: [pos]
  | .baTgl pos => headerWord 0x16#8 0#16 :: [pos]
  | .baPopc => headerWord 0x17#8 0#16 :: []
  | .baRdw idx => headerWord 0x18#8 0#16 :: [idx]
  | .baWrw idx val => headerWord 0x19#8 0#16 :: [idx, val]
  | .lkFrom x y z => headerWord 0x20#8 0#16 :: [x, y, z]
  | .lkX k => headerWord 0x21#8 0#16 :: [k]
  | .lkY k => headerWord 0x22#8 0#16 :: [k]
  | .lkZ k => headerWord 0x23#8 0#16 :: [k]
  | .lkIncX k => headerWord 0x24#8 0#16 :: [k]
  | .lkDecX k => headerWord 0x25#8 0#16 :: [k]
  | .lkIncY k => headerWord 0x26#8 0#16 :: [k]
  | .lkDecY k => headerWord 0x27#8 0#16 :: [k]
  | .lkIncZ k => headerWord 0x28#8 0#16 :: [k]
  | .lkDecZ k => headerWord 0x29#8 0#16 :: [k]
  | .lkAdd a b => headerWord 0x2A#8 0#16 :: [a, b]
  | .lkSub a b => headerWord 0x2B#8 0#16 :: [a, b]
  | .lkCmp a b => headerWord 0x2C#8 0#16 :: [a, b]
  | .mkFrom x y z => headerWord 0x30#8 0#16 :: [x, y, z]
  | .mkX k => headerWord 0x31#8 0#16 :: [k]
  | .mkY k => headerWord 0x32#8 0#16 :: [k]
  | .mkZ k => headerWord 0x33#8 0#16 :: [k]
  | .mkIncX k => headerWord 0x34#8 0#16 :: [k]
  | .mkDecX k => headerWord 0x35#8 0#16 :: [k]
  | .mkIncY k => headerWord 0x36#8 0#16 :: [k]
  | .mkDecY k => headerWord 0x37#8 0#16 :: [k]
  | .mkIncZ k => headerWord 0x38#8 0#16 :: [k]
  | .mkDecZ k => headerWord 0x39#8 0#16 :: [k]
  | .mkAdd a b => headerWord 0x3A#8 0#16 :: [a, b]
  | .mkSub a b => headerWord 0x3B#8 0#16 :: [a, b]
  | .mkCmp a b => headerWord 0x3C#8 0#16 :: [a, b]
  | .viFrom vx vy vz bX bY bZ => headerWord 0x40#8 0#16 :: [vx, vy, vz, bX, bY, bZ]
  | .viVKey k => headerWord 0x41#8 0#16 :: [k]
  | .viBKey k => headerWord 0x42#8 0#16 :: [k]
  | .viGetC sel k => headerWord 0x43#8 (sel.setWidth 16) :: [k]
  | .viCmp a b => headerWord 0x44#8 0#16 :: [a, b]
  | .wiFrom wx wy wz => headerWord 0x48#8 0#16 :: [wx, wy, wz]
  | .chSet vi key => headerWord 0x50#8 (vi.setWidth 16) :: [key]
  | .chUnset vi key => headerWord 0x51#8 (vi.setWidth 16) :: [key]
  | .chTgl vi key => headerWord 0x52#8 (vi.setWidth 16) :: [key]
  | .chGet vi key => headerWord 0x53#8 (vi.setWidth 16) :: [key]
  | .chFill vi key => headerWord 0x54#8 (vi.setWidth 16) :: [key]
  | .chEmpty vi key => headerWord 0x55#8 (vi.setWidth 16) :: [key]
  | .chCount vi key => headerWord 0x56#8 (vi.setWidth 16) :: [key]
  | .chLen key => headerWord 0x57#8 0#16 :: [key]
  | .chMGet vi key => headerWord 0x58#8 (vi.setWidth 16) :: [key]
  | .chMSet vi key val => headerWord 0x59#8 (vi.setWidth 16) :: [key, val]
  | .wIns var key => headerWord 0x60#8 (var.setWidth 16) :: [key]
  | .wGet key => headerWord 0x61#8 0#16 :: [key]
  | .wRem key => headerWord 0x62#8 0#16 :: [key]
  | .face key => headerWord 0x70#8 0#16 :: [key]
  | .fmRd i => headerWord 0x71#8 (i.setWidth 16) :: []
  | .gidx flip => headerWord 0x72#8 (flip.setWidth 16) :: []
  | .gidxo flip outLen => headerWord 0x73#8 (flip.setWidth 16) :: [outLen]
  | .ray sx sy sz ex ey ez => headerWord 0x80#8 0#16 :: [sx, sy, sz, ex, ey, ez]

/-- The longest command is a header and six operand words (30_encoding.md R90). -/
def longestCommand : Nat := 7

/-- The words of a number whose bits are counted from the least significant bit of the first word. -/
def wordsOfNat (nbits w : Nat) : List Word :=
  (List.range longestCommand).map fun j => BitVec.ofNat 32 ((w % 2 ^ nbits) / 2 ^ (32 * j))

/-- The command this decoder reads from an instruction whose bits are `w`, every bit above `nbits` zero. The port moves
whole words, so there is no byte order (20_memory.md R51). -/
def decodeTableWord (nbits w : Nat) : Option Instr :=
  match decode (wordsOfNat nbits w) with
  | .command i _ => some i
  | _ => none

/-- The words, of those given, that the command at their head takes: one and its operands if its header is legal, and
the header alone if it is not (60_exceptions.md R336). -/
def commandWords (ws : List Word) : List Word :=
  match decode ws with
  | .command _ rest => ws.take (ws.length - rest.length)
  | _ => ws.take 1

end Sys2Proof
end

