-- ==== Sys2Proof/Config.lean ====
section
/-!
DEFINITION. The implementation parameters of 00_scope.md R6. What R6 gives a value is a number here; the two lookup
tables, which R6 leaves OPEN, are constants without a body (log entry 5).
-/

namespace Sys2Proof

/-- The largest `SBA_N` the block accepts: the spec's default (00_scope.md R6, 92_eei_decisions.md D22; log entry 4). -/
abbrev Config.sbaMaxWords : Nat := 2 ^ 31 - 1

/-- The default bucket count of the HashGrid (00_scope.md R6). No command depends on it (10_state.md R31). -/
abbrev Config.defaultBuckets : Nat := 1024

/-- Words of one BVXLayer: `4096/32` (10_state.md R26). -/
abbrev Config.layerWords : Nat := 128

/-- Entries of `FM`, bit positions of a layer (10_state.md R32, R26). -/
abbrev Config.bitvoxels : Nat := 4096

/-- Metadata slots of a chunk, one per voxel (10_state.md R27). -/
abbrev Config.voxels : Nat := 64

/-- The scale of a world-coordinate word, `2^WC_FRAC` with 16 fraction bits (00_scope.md R6, 30_encoding.md R85). -/
abbrev Config.wcScale : Int := 65536

/-- Vertices per bitvoxel in the renderer's vertex block, `VBLOCK` (00_scope.md R6). -/
abbrev Config.vblock : Nat := 24

/-- `indicesLut`: for each face mask a finite list of integers in 0..23, supplied by the renderer (00_scope.md R6,
46_face_solver.md R280). OPEN in the spec: nothing is known of its lists here, not even the length that R280 asks
(log entry 5). -/
opaque Config.lut : BitVec 6 → List (Fin 24)

/-- `indicesFlippedLut`, as `Config.lut` (00_scope.md R6, 46_face_solver.md R280; log entry 5). -/
opaque Config.lutf : BitVec 6 → List (Fin 24)

end Sys2Proof
end

