-- ==== Sys2Proof/Machine/State.lean ====
section
/-!
DEFINITION. The architectural state of the block (10_state.md) as plain data, its value after reset (R39), and the
reasons a step can stop. The block has no registers, no program counter, no flags and no modes (R20 to R23); what it has
is the chunk store, the face mask buffer, the scratch BitArray and the two sides of its command port.

A memory is a list of (address, contents) pairs, addresses strictly rising, with no entry equal to what an unlisted
address reads as, which is 0 everywhere (R39, R40, 41_bitarray.md R131; log entry 7).
-/

namespace Sys2Proof.Machine

/-- The metadata width of a chunk: 0, 8, 16 or 32 bits per voxel (10_state.md R25). -/
inductive MetaWidth where
  | bits0 | bits8 | bits16 | bits32
deriving DecidableEq, Repr

/-- A BitArray: a word count and the words at `0..n-1` (41_bitarray.md R130, 10_state.md R33). -/
structure BitArray where
  /-- The word count `A.n`, at least 1. -/
  n : Nat
  /-- `A.words`, as a memory of words by word index. -/
  words : List (Nat × Word)
deriving DecidableEq, Repr

/-- A BVXLayer: 128 words of 32 bits, as a memory of words by word index (10_state.md R26, 44_layer_chunk.md R220). -/
abbrev Layer := List (Nat × Word)

/-- A chunk (10_state.md R25). -/
structure Chunk where
  /-- The chunk's Morton key scalar, its identity (R28). -/
  key : Key
  /-- The metadata width `w`, fixed for the life of the chunk (R25). -/
  width : MetaWidth
  /-- The 4096 bitvoxel states (R26). -/
  layer : Layer
  /-- `meta`: 64 slots by voxel key, each an unsigned `w`-bit value held in a word (R27; log entry 8). -/
  slots : List (Nat × Word)
deriving DecidableEq, Repr

/-- `WORLD`, the finite partial map from key scalars to chunks (10_state.md R24): entries (key scalar, chunk), keys
strictly rising. The buckets of the HashGrid are not observable (R31; `Machine/HashGrid.lean`; log entry 6). -/
abbrev World := List (Nat × Chunk)

/-- The state of the block. -/
structure State where
  /-- `WORLD` (10_state.md R24). -/
  world : World
  /-- `FM`, 4096 entries of 8 bits (10_state.md R32). -/
  fm : List Host.Cell
  /-- `SBA_N` and `SBA.words` (10_state.md R33). -/
  sba : BitArray
  /-- The words the host has sent and the block has not consumed, the next one first: the command side of the port
  (30_encoding.md R80). The model's own field; log entry 1. -/
  cmdPort : List Word
  /-- The words of the response to the last command, `RH` first: the response side of the port (30_encoding.md R80, R82).
  The model's own field; log entry 2. -/
  respPort : List Word
deriving DecidableEq, Repr

/-- Reasons a step stops with a fault. THERE ARE NONE, so nobody raises one: every failure of the block is a response
with a status, after which the next command runs (60_exceptions.md R337, R340). -/
inductive Fault where
deriving DecidableEq, Repr

/-- Reasons a step is refused. -/
inductive Refusal where
  /-- The instruction of this mnemonic has no meaning in the model. Raised by `exec` alone, by an arm that rejects its
  instruction by name; no arm does. Safe: the model stops where the hardware goes on. -/
  | notModelled (mnemonic : String)
deriving DecidableEq, Repr

/-- The block right after reset (10_state.md R39, 70_reset_and_hazards.md R360): `WORLD` empty, every `FM` entry 0, `SBA_N = 1`, `SBA.words[0] = 0`.
The two port lists are empty (log entries 1 and 2). -/
def State.reset : State :=
  { world := []
    fm := []
    sba := { n := 1, words := [] }
    cmdPort := []
    respPort := [] }

/-- What a step or a meaning answers. -/
abbrev Result := Host.Outcome State Fault Refusal

end Sys2Proof.Machine
end

