-- ==== Sys2Proof/Machine/Flags.lean ====
section
/-!
DEFINITION. The block has no flags and no condition codes (10_state.md R22). What takes their place is here: the status of
a response (60_exceptions.md R330) with the response header that carries it (30_encoding.md R82), and the word a three-way
comparison returns (42_spatial_keys.md R168).
-/

namespace Sys2Proof.Machine

/-- The five statuses of a response (60_exceptions.md R330). -/
inductive Status where
  | ok | absent | outOfRange | illegalCommand | illegalOperand
deriving DecidableEq, Repr

/-- The code of a status in `RH[7:0]` (60_exceptions.md R330). -/
def statusCode : Status → BitVec 8
  | .ok => 0#8
  | .absent => 1#8
  | .outOfRange => 2#8
  | .illegalCommand => 3#8
  | .illegalOperand => 4#8

/-- `RH`: the count of result words in bits 31..8 and the status in bits 7..0 (30_encoding.md R82). A count of `2^24` or
more, which no tables that meet 46_face_solver.md R280 produce, is cut to its 24 bits (log entry 9). -/
def responseHeader (st : Status) (m : Nat) : Word := BitVec.ofNat 24 m ++ statusCode st

/-- The three-way result of a comparison on unsigned scalars: `0xFFFFFFFF`, 0 or 1 (42_spatial_keys.md R168, R182;
43_voxel_index.md R207). -/
def compareWord {w : Nat} (a b : BitVec w) : Word :=
  if a.toNat < b.toNat then 0xFFFFFFFF#32 else if a.toNat = b.toNat then 0#32 else 1#32

end Sys2Proof.Machine
end

