-- ==== Sys2Proof/Machine/Ops.lean ====
section
/-!
DEFINITION. The named operations over the state: the sparse memories and their canonical form, the chunk store
(45_world_store.md R250, R251), and the two ways a command ends, `reply` (a result) and `raise` (60_exceptions.md R337).
`raise` is what this block has in place of taking an exception; there is no return from one (R341).
-/

namespace Sys2Proof.Machine

/-! ### Lists of entries by address -/

/-- The entry at an address. -/
def lookupAt {α : Type} : List (Nat × α) → Nat → Option α
  | [], _ => none
  | (a, v) :: t, k => if a = k then some v else lookupAt t k

/-- The list without the entry at an address. -/
def eraseAt {α : Type} : List (Nat × α) → Nat → List (Nat × α)
  | [], _ => []
  | (a, v) :: t, k => if a = k then eraseAt t k else (a, v) :: eraseAt t k

/-- The list with one more entry, before the first entry of a higher address. -/
def insertAt {α : Type} : List (Nat × α) → Nat → α → List (Nat × α)
  | [], k, v => [(k, v)]
  | (a, u) :: t, k, v => if k < a then (k, v) :: (a, u) :: t else (a, u) :: insertAt t k v

/-- The list with `v` as its entry at an address. -/
def setAt {α : Type} (m : List (Nat × α)) (k : Nat) (v : α) : List (Nat × α) := insertAt (eraseAt m k) k v

/-- The addresses of the entries rise strictly. -/
def keysRising {α : Type} : List (Nat × α) → Bool
  | [] => true
  | (a, _) :: t => t.all (fun e => decide (a < e.1)) && keysRising t

/-! ### Memories of bit vectors -/

/-- What an address reads as that no entry lists: 0, since reset, `BA.NEW` and `W.INS` leave every cell 0 (10_state.md R39,
R40; 41_bitarray.md R131; log entry 7). -/
def unlisted {w : Nat} : BitVec w := 0#w

/-- `MemRead` of one cell (00_scope.md R9). -/
def readCell {w : Nat} (m : List (Nat × BitVec w)) (a : Nat) : BitVec w := (lookupAt m a).getD unlisted

/-- `MemWrite` of one cell (00_scope.md R9). Writing what an unlisted address reads as removes the entry. -/
def writeCell {w : Nat} (m : List (Nat × BitVec w)) (a : Nat) (v : BitVec w) : List (Nat × BitVec w) :=
  if v = unlisted then eraseAt m a else setAt m a v

/-- The canonical form of a memory of `size` cells: addresses strictly rising and below `size`, no listed cell equal to
what an unlisted one reads as. -/
def cellsWf {w : Nat} (size : Nat) (m : List (Nat × BitVec w)) : Bool :=
  keysRising m && m.all fun e => decide (e.1 < size) && decide (e.2 ≠ unlisted)

/-! ### The chunk store -/

/-- `worldGet(k)` (45_world_store.md R250): the chunk under the scalar, or absent. -/
def worldGet (w : World) (k : Key) : Option Chunk := lookupAt w k.toNat

/-- `worldGetOpt(k, dflt)` (45_world_store.md R251): never absent, and it stores nothing. -/
def worldGetOpt (w : World) (k : Key) (dflt : Chunk) : Chunk := (worldGet w k).getD dflt

/-- `WORLD[k] <- c` (45_world_store.md R252). -/
def worldPut (w : World) (k : Key) (c : Chunk) : World := setAt w k.toNat c

/-- `WORLD[k] <- absent` (45_world_store.md R254). -/
def worldRemove (w : World) (k : Key) : World := eraseAt w k.toNat

/-- The width in bits (10_state.md R25). -/
def metaBits : MetaWidth → Nat
  | .bits0 => 0
  | .bits8 => 8
  | .bits16 => 16
  | .bits32 => 32

/-- The canonical form of a chunk's two memories: 128 layer words, and 64 slots of `w` bits, none for `w = 0`
(10_state.md R25 to R27). -/
def chunkWf (c : Chunk) : Bool :=
  cellsWf Config.layerWords c.layer && cellsWf Config.voxels c.slots
    && c.slots.all fun e => decide (e.2.toNat < 2 ^ metaBits c.width)

/-- The canonical form of the store: keys strictly rising, each a 30-bit scalar and the key of its chunk (10_state.md
R24). -/
def worldWf (w : World) : Bool :=
  keysRising w && w.all fun e => decide (e.1 < 2 ^ 30) && decide (e.2.key.toNat = e.1) && chunkWf e.2

/-- Every memory of the state is in its canonical form. -/
def Memory.wf (s : State) : Bool :=
  worldWf s.world && cellsWf Config.bitvoxels s.fm && cellsWf s.sba.n s.sba.words

/-! ### How a command ends -/

/-- Puts a response on the port: `RH`, then the result words (30_encoding.md R80, R82). -/
def respond (st : Status) (results : List Word) (s : State) : State :=
  { s with respPort := responseHeader st results.length :: results }

/-- The command ends with status `OK` and these result words; `s` holds what the command wrote. -/
def reply (s : State) (results : List Word) : Result := .next (respond .ok results s)

/-- `raise E` (00_scope.md R9, 60_exceptions.md R337): the command ends with status `E`, no result words, and every element
of state as it was before the command. -/
def raise (st : Status) (s : State) : Result := .next (respond st [] s)

end Sys2Proof.Machine
end

