-- ==== Sys2Proof/Machine/Operands.lean ====
section
/-!
DEFINITION. The operand kinds of 30_encoding.md R85, with the port's checks in the order of R92: an illegal operand is
raised before the chunk lookup, and the lookup before the operation. Kind `word` is the word itself.
-/

namespace Sys2Proof.Machine

/-- Kinds `coord`, `pos` and `count`: `s32(x)`, the two's-complement reading (00_scope.md R8, 30_encoding.md R85). -/
def signedOperand (x : Word) : Int := x.toInt

/-- `trunc` of a `wcoord` operand, its fraction dropped toward zero (00_scope.md R8, 43_voxel_index.md R209). -/
def wcoordTrunc (x : Word) : Int := (signedOperand x).tdiv Config.wcScale

/-- `floor` of a `wcoord` operand, toward minus infinity (00_scope.md R8, 47_raycaster.md R301). -/
def wcoordFloor (x : Word) : Int := (signedOperand x).fdiv Config.wcScale

/-- Kind `key`: bits 31 and 30 must be 0 (30_encoding.md R85, 42_spatial_keys.md R185). -/
def keyOperand (x : Word) : Option Key :=
  if x.extractLsb' 30 2 = 0#2 then some (x.extractLsb' 0 30) else none

/-- Kind `vidx`: bits 31 to 12 must be 0 (30_encoding.md R85, 43_voxel_index.md R206). -/
def vidxOperand (x : Word) : Option VIdx :=
  if x.extractLsb' 12 20 = 0#20 then some (x.extractLsb' 0 12) else none

/-- Goes on with the key of a `key` operand, or raises `ILLEGAL_OPERAND` (42_spatial_keys.md R185). -/
def withKey (x : Word) (s : State) (go : Key → Result) : Result :=
  match keyOperand x with
  | none => raise .illegalOperand s
  | some k => go k

/-- Goes on with the index of a `vidx` operand, or raises `ILLEGAL_OPERAND` (43_voxel_index.md R206). -/
def withVIdx (x : Word) (s : State) (go : VIdx → Result) : Result :=
  match vidxOperand x with
  | none => raise .illegalOperand s
  | some k => go k

/-- The preamble of every command that names a chunk: the key check, then the lookup, which raises `ABSENT` when no chunk
is stored under the key (44_layer_chunk.md R227, 46_face_solver.md R274). -/
def withChunk (x : Word) (s : State) (go : Key → Chunk → Result) : Result :=
  withKey x s fun k =>
    match worldGet s.world k with
    | none => raise .absent s
    | some c => go k c

/-- A command of one `key` operand and one result, which reads no state. -/
def keyUnary (f : Key → Word) (x : Word) (s : State) : Result := withKey x s fun k => reply s [f k]

/-- A command of two `key` operands, the first checked first, and one result, which reads no state. -/
def keyBinary (f : Key → Key → Word) (x y : Word) (s : State) : Result :=
  withKey x s fun a => withKey y s fun b => reply s [f a b]

/-- An axis of a key constructor: the integer modulo 1024 (42_spatial_keys.md R156, R170). -/
def axisOf (v : Int) : Axis := BitVec.ofInt 10 v

/-- The triple of a key constructor's three integers, each wrapped on its own (42_spatial_keys.md R156, R170). -/
def tripleOf (x y z : Int) : Triple := { x := axisOf x, y := axisOf y, z := axisOf z }

/-- A value narrower than a word as a result word, zero-extended (00_scope.md R8 `zext`). -/
def resultWord {w : Nat} (v : BitVec w) : Word := v.setWidth 32

/-- The componentwise sum, each axis wrapping modulo 1024 (42_spatial_keys.md R166, R180). -/
def tripleAdd (a b : Triple) : Triple := { x := a.x + b.x, y := a.y + b.y, z := a.z + b.z }

/-- The componentwise difference, each axis wrapping modulo 1024 (42_spatial_keys.md R167, R181). -/
def tripleSub (a b : Triple) : Triple := { x := a.x - b.x, y := a.y - b.y, z := a.z - b.z }

end Sys2Proof.Machine
end

