-- ==== Sys2Proof/Machine/BitOps.lean ====
section
/-!
DEFINITION. BitOps (40_bitops.md): the pure functions on 32-bit words, and the eleven commands that apply them. A bit
position is a 5-bit value, so it has no meaning above 31 (R121).
-/

namespace Sys2Proof.Machine

/-! ### Single-bit functions -/

/-- `bitAt(d,p)` (R110). -/
def bitAt (d : Word) (p : BitVec 5) : Word := (d >>> p) &&& 1#32

/-- `bitInvAt = 1 - bitAt` (R111). -/
def bitInvAt (d : Word) (p : BitVec 5) : Word := 1#32 - bitAt d p

/-- `setBitAt(d,p)` (R112). -/
def setBitAt (d : Word) (p : BitVec 5) : Word := d ||| (1#32 <<< p)

/-- `unsetBitAt(d,p)` (R113). -/
def unsetBitAt (d : Word) (p : BitVec 5) : Word := d &&& ~~~(1#32 <<< p)

/-- `toggleBitAt(d,p)` (R114). -/
def toggleBitAt (d : Word) (p : BitVec 5) : Word := d ^^^ (1#32 <<< p)

/-- `setBit(d,p,b)` (R115). -/
def putBitAt (d : Word) (p : BitVec 5) (b : BitVec 1) : Word :=
  (d &&& ~~~(1#32 <<< p)) ||| (resultWord b <<< p)

/-! ### Masks, counts, tests -/

/-- `maskForBits(n)` for `n` in 0..32: `2^n - 1` as a word (R116). -/
def maskForBits (n : Nat) : Word := BitVec.ofNat 32 (2 ^ n - 1)

/-- The number of 1 bits among the low `k` bits of `v`. -/
def popcountBelow {w : Nat} (v : BitVec w) : Nat → Nat
  | 0 => 0
  | k + 1 => popcountBelow v k + (v.getLsbD k).toNat

/-- `popcount(v)`, the number of 1 bits (00_scope.md R8, R117). -/
def popcount {w : Nat} (v : BitVec w) : Nat := popcountBelow v w

/-- The SWAR population count that R117 quotes from general knowledge (93_implementation_defined.md G1). No command uses it;
R117's normative result is `popcount`. -/
def swarPopcount (d : Word) : Word :=
  let v1 := d - ((d >>> 1) &&& 0x55555555#32)
  let v2 := (v1 &&& 0x33333333#32) + ((v1 >>> 2) &&& 0x33333333#32)
  let v3 := (v2 + (v2 >>> 4)) &&& 0x0F0F0F0F#32
  (v3 * 0x01010101#32) >>> 24

/-- `isPowerOfTwo(v)` (R118). -/
def isPowerOfTwo (v : Word) : Bool := decide (v ≠ 0#32) && decide (v &&& (v - 1#32) = 0#32)

/-! ### Index flattening -/

/-- `flattenCoord3(x,y,z,b)` for `b` in 0..10 (R119). -/
def flattenCoord3 (b : Nat) (x y z : Word) : Word :=
  ((x <<< (2 * b)) ||| (y <<< b) ||| z) &&& BitVec.ofNat 32 (2 ^ (3 * b) - 1)

/-- `flattenCoord2(x,y,b)` for `b` in 0..10, with the `2b` mask (R120, 90_conflicts.md C6). -/
def flattenCoord2 (b : Nat) (x y : Word) : Word :=
  ((x <<< b) ||| y) &&& BitVec.ofNat 32 (2 ^ (2 * b) - 1)

/-! ### Text forms, which have no command -/

/-- `toBitString(w)`: 32 characters, the highest bit first (R122). -/
def toBitString (w : Word) : List Char := (List.range 32).map fun i => if w.getLsbD (31 - i) then '1' else '0'

/-- The value of a string of digits, the highest bit first. -/
def bitStringValue (cs : List Char) : Nat := cs.foldl (fun acc c => 2 * acc + (if c = '1' then 1 else 0)) 0

/-- `fromBitString(s)`, defined on the strings that `toBitString` produces and on no other (R123, 91_not_in_source.md N4;
log entry 10). -/
def fromBitString (cs : List Char) : Option Word :=
  if cs.length = 32 ∧ cs.all (fun c => c == '0' || c == '1') then some (BitVec.ofNat 32 (bitStringValue cs)) else none

/-! ### Commands -/

/-- `BITAT` (R110). -/
def execBitat (p : BitVec 5) (d : Word) (s : State) : Result := reply s [bitAt d p]

/-- `BITINV` (R111). -/
def execBitinv (p : BitVec 5) (d : Word) (s : State) : Result := reply s [bitInvAt d p]

/-- `SETB` (R112). -/
def execSetb (p : BitVec 5) (d : Word) (s : State) : Result := reply s [setBitAt d p]

/-- `CLRB` (R113). -/
def execClrb (p : BitVec 5) (d : Word) (s : State) : Result := reply s [unsetBitAt d p]

/-- `TGLB` (R114). -/
def execTglb (p : BitVec 5) (d : Word) (s : State) : Result := reply s [toggleBitAt d p]

/-- `PUTB` (R115). -/
def execPutb (p : BitVec 5) (b : BitVec 1) (d : Word) (s : State) : Result := reply s [putBitAt d p b]

/-- `MASKN` (R116): `ILLEGAL_OPERAND` when `n > 32`. -/
def execMaskn (n : BitVec 6) (s : State) : Result :=
  if n.toNat > 32 then raise .illegalOperand s else reply s [maskForBits n.toNat]

/-- `POPC` (R117). -/
def execPopc (d : Word) (s : State) : Result := reply s [BitVec.ofNat 32 (popcount d)]

/-- `ISPOW2` (R118). -/
def execIspow2 (v : Word) (s : State) : Result := reply s [if isPowerOfTwo v then 1#32 else 0#32]

/-- `FLAT3` (R119): `ILLEGAL_OPERAND` when `b > 10`. -/
def execFlat3 (b : BitVec 4) (x y z : Word) (s : State) : Result :=
  if b.toNat > 10 then raise .illegalOperand s else reply s [flattenCoord3 b.toNat x y z]

/-- `FLAT2` (R120): `ILLEGAL_OPERAND` when `b > 10`. -/
def execFlat2 (b : BitVec 4) (x y : Word) (s : State) : Result :=
  if b.toNat > 10 then raise .illegalOperand s else reply s [flattenCoord2 b.toNat x y]

end Sys2Proof.Machine
end

