-- ==== Sys2Proof/Machine/BitArray.lean ====
section
/-!
DEFINITION. The BitArray (41_bitarray.md R130) and the ten commands on the block's one stand-alone instance, `SBA`
(10_state.md R33). Every range check precedes every write (R130, 60_exceptions.md R337).
-/

namespace Sys2Proof.Machine

/-! ### The data type -/

/-- `locate(A, pos)` for a word count `n` (R130): the word index and the bit in the word, or `none` for `OUT_OF_RANGE`. -/
def locate (n : Nat) (pos : Int) : Option (Nat × BitVec 5) :=
  if pos < 0 then none
  else if (pos.toNat >>> 5) < n then some (pos.toNat >>> 5, BitVec.ofNat 5 pos.toNat)
  else none

/-- `bitAt(A,pos)` (R130). -/
def arrayBitAt (A : BitArray) (pos : Int) : Option Word :=
  match locate A.n pos with
  | none => none
  | some (j, p) => some (bitAt (readCell A.words j) p)

/-- `bitInvAt(A,pos)` (R130). -/
def arrayBitInvAt (A : BitArray) (pos : Int) : Option Word :=
  match locate A.n pos with
  | none => none
  | some (j, p) => some (bitInvAt (readCell A.words j) p)

/-- The array with the word that holds `pos` changed by `f` at `pos`'s bit: the common form of the four mutators of R130. -/
def arrayModify (f : Word → BitVec 5 → Word) (A : BitArray) (pos : Int) : Option BitArray :=
  match locate A.n pos with
  | none => none
  | some (j, p) => some { A with words := writeCell A.words j (f (readCell A.words j) p) }

/-- `setBitAt(A,pos)` (R130). -/
def arraySetBitAt (A : BitArray) (pos : Int) : Option BitArray := arrayModify setBitAt A pos

/-- `unsetBitAt(A,pos)` (R130). -/
def arrayUnsetBitAt (A : BitArray) (pos : Int) : Option BitArray := arrayModify unsetBitAt A pos

/-- `toggleBitAt(A,pos)` (R130). -/
def arrayToggleBitAt (A : BitArray) (pos : Int) : Option BitArray := arrayModify toggleBitAt A pos

/-- `setBit(A,pos,b)` (R130). -/
def arraySetBit (A : BitArray) (pos : Int) (b : BitVec 1) : Option BitArray :=
  arrayModify (fun d p => putBitAt d p b) A pos

/-- `popCount(A)` (R130), summed over the listed words: an unlisted word is 0 and adds nothing. -/
def arrayPopCount (A : BitArray) : Nat :=
  A.words.foldr (fun e acc => (if e.1 < A.n then popcount e.2 else 0) + acc) 0

/-- A new BitArray of `n` zero words (R131, 10_state.md R33). -/
def arrayNew (n : Nat) : BitArray := { n := n, words := [] }

/-! ### Command forms -/

/-- A read of one bit of `SBA`: its result, or `OUT_OF_RANGE` (R132, R133). -/
def sbaRead (r : Option Word) (s : State) : Result :=
  match r with
  | none => raise .outOfRange s
  | some v => reply s [v]

/-- A change of one bit of `SBA`, without result words, or `OUT_OF_RANGE` with `SBA` unchanged (R134 to R137). -/
def sbaUpdate (r : Option BitArray) (s : State) : Result :=
  match r with
  | none => raise .outOfRange s
  | some A => reply { s with sba := A } []

/-- `BA.NEW` in a block of capacity `cap` words (R131): a request of 0 or less makes one word. -/
def sbaNew (cap : Nat) (n : Int) (s : State) : Result :=
  if n > (cap : Int) then raise .illegalOperand s
  else reply { s with sba := arrayNew (if n ≥ 1 then n.toNat else 1) } []

/-! ### Commands -/

/-- `BA.NEW` (R131), at the capacity of 00_scope.md R6. -/
def execBaNew (n : Word) (s : State) : Result := sbaNew Config.sbaMaxWords (signedOperand n) s

/-- `BA.GET` (R132). -/
def execBaGet (pos : Word) (s : State) : Result := sbaRead (arrayBitAt s.sba (signedOperand pos)) s

/-- `BA.GETINV` (R133). -/
def execBaGetInv (pos : Word) (s : State) : Result := sbaRead (arrayBitInvAt s.sba (signedOperand pos)) s

/-- `BA.SET` (R134). -/
def execBaSet (pos : Word) (s : State) : Result := sbaUpdate (arraySetBitAt s.sba (signedOperand pos)) s

/-- `BA.PUT` (R135). -/
def execBaPut (b : BitVec 1) (pos : Word) (s : State) : Result := sbaUpdate (arraySetBit s.sba (signedOperand pos) b) s

/-- `BA.CLR` (R136). -/
def execBaClr (pos : Word) (s : State) : Result := sbaUpdate (arrayUnsetBitAt s.sba (signedOperand pos)) s

/-- `BA.TGL` (R137). -/
def execBaTgl (pos : Word) (s : State) : Result := sbaUpdate (arrayToggleBitAt s.sba (signedOperand pos)) s

/-- `BA.POPC` (R138): the count, cut to a word. -/
def execBaPopc (s : State) : Result := reply s [BitVec.ofNat 32 (arrayPopCount s.sba)]

/-- `BA.RDW` (R139): `ILLEGAL_OPERAND` when `idx >= SBA_N`. -/
def execBaRdw (idx : Word) (s : State) : Result :=
  if idx.toNat ≥ s.sba.n then raise .illegalOperand s else reply s [readCell s.sba.words idx.toNat]

/-- `BA.WRW` (R140): `ILLEGAL_OPERAND` when `idx >= SBA_N`, with `SBA` unchanged. -/
def execBaWrw (idx val : Word) (s : State) : Result :=
  if idx.toNat ≥ s.sba.n then raise .illegalOperand s
  else reply { s with sba := { s.sba with words := writeCell s.sba.words idx.toNat val } } []

end Sys2Proof.Machine
end

