-- ==== Sys2Proof/Machine/MortonKey.lean ====
section
/-!
DEFINITION. Morton keys (42_spatial_keys.md section 3). The encoding is the bit-position statement of R152, which is the
normative one; an axis is read by the compaction ladder of R155, and a key is stepped in place by the lane formulas of
R174 to R179. All commands are pure; each `key` operand is checked by R185.
-/

namespace Sys2Proof.Machine

/-! ### The encoding -/

/-- `M(x,y,z)`: bit `3k` is bit `k` of `x`, bit `3k+1` bit `k` of `y`, bit `3k+2` bit `k` of `z` (R152). -/
def mortonKey (t : Triple) : Key :=
  BitVec.ofFnLE fun i : Fin 30 =>
    match i.val % 3 with
    | 0 => t.x.getLsbD (i.val / 3)
    | 1 => t.y.getLsbD (i.val / 3)
    | _ => t.z.getLsbD (i.val / 3)

/-- `X3_MASK` (R153). -/
def maskX : Word := 0x09249249#32
/-- `Y3_MASK` (R153). -/
def maskY : Word := 0x12492492#32
/-- `Z3_MASK` (R153). -/
def maskZ : Word := 0x24924924#32
/-- `XY = X|Y` (R153). -/
def maskXY : Word := 0x1B6DB6DB#32
/-- `XZ = X|Z` (R153). -/
def maskXZ : Word := 0x2DB6DB6D#32
/-- `YZ = Y|Z` (R153). -/
def maskYZ : Word := 0x36DB6DB6#32

/-- `part(v)`, the spreading ladder of R154, the source's way to compute one axis of `M` (93_implementation_defined.md G2).
No command uses it; R152 is normative. -/
def mortonPart (v : Word) : Word :=
  let v0 := v &&& 0x000003FF#32
  let v1 := (v0 ^^^ (v0 <<< 16)) &&& 0xFF0000FF#32
  let v2 := (v1 ^^^ (v1 <<< 8)) &&& 0x0300F00F#32
  let v3 := (v2 ^^^ (v2 <<< 4)) &&& 0x030C30C3#32
  (v3 ^^^ (v3 <<< 2)) &&& 0x09249249#32

/-- `compact(v)`, the compaction ladder of R155 (93_implementation_defined.md G3). -/
def mortonCompact (v : Word) : Word :=
  let v0 := v &&& 0x09249249#32
  let v1 := (v0 ^^^ (v0 >>> 2)) &&& 0x030C30C3#32
  let v2 := (v1 ^^^ (v1 >>> 4)) &&& 0x0300F00F#32
  let v3 := (v2 ^^^ (v2 >>> 8)) &&& 0xFF0000FF#32
  (v3 ^^^ (v3 >>> 16)) &&& 0x000003FF#32

/-- `x = compact(k)` (R155, R171). -/
def mortonX (k : Key) : Word := mortonCompact (resultWord k)

/-- `y = compact(k >> 1)` (R155, R172). -/
def mortonY (k : Key) : Word := mortonCompact (resultWord k >>> 1)

/-- `z = compact(k >> 2)` (R155, R173). -/
def mortonZ (k : Key) : Word := mortonCompact (resultWord k >>> 2)

/-- The triple of a Morton scalar (R155). -/
def mortonTriple (k : Key) : Triple :=
  { x := (mortonX k).setWidth 10, y := (mortonY k).setWidth 10, z := (mortonZ k).setWidth 10 }

/-! ### Steps along one axis, in the interleave -/

/-- `incX(k)` (R174). -/
def mortonIncX (k : Word) : Word := (((k ||| maskYZ) + 1#32) &&& maskX) ||| (k &&& maskYZ)

/-- `decX(k)` (R175). -/
def mortonDecX (k : Word) : Word := (((k &&& maskX) - 1#32) &&& maskX) ||| (k &&& maskYZ)

/-- `incY(k)` (R176). -/
def mortonIncY (k : Word) : Word := (((k ||| maskXZ) + 2#32) &&& maskY) ||| (k &&& maskXZ)

/-- `decY(k)` (R177). -/
def mortonDecY (k : Word) : Word := (((k &&& maskY) - 2#32) &&& maskY) ||| (k &&& maskXZ)

/-- `incZ(k)` (R178). -/
def mortonIncZ (k : Word) : Word := (((k ||| maskXY) + 1#32) &&& maskZ) ||| (k &&& maskXY)

/-- `decZ(k)` (R179). -/
def mortonDecZ (k : Word) : Word := (((k &&& maskZ) - 4#32) &&& maskZ) ||| (k &&& maskXY)

/-- The lane form of addition that R180 quotes as an equivalent implementation (90_conflicts.md C1). No command uses it. -/
def mortonAddLanes (a b : Word) : Word :=
  (((a ||| maskYZ) + (b &&& maskX)) &&& maskX) ||| (((a ||| maskXZ) + (b &&& maskY)) &&& maskY)
    ||| (((a ||| maskXY) + (b &&& maskZ)) &&& maskZ)

/-- The lane form of subtraction that R181 quotes as an equivalent implementation (90_conflicts.md C1). No command uses
it. -/
def mortonSubLanes (a b : Word) : Word :=
  (((a &&& maskX) - (b &&& maskX)) &&& maskX) ||| (((a &&& maskY) - (b &&& maskY)) &&& maskY)
    ||| (((a &&& maskZ) - (b &&& maskZ)) &&& maskZ)

/-! ### Commands -/

/-- `MK.FROM` (R170). -/
def execMkFrom (x y z : Word) (s : State) : Result :=
  reply s [resultWord (mortonKey (tripleOf (signedOperand x) (signedOperand y) (signedOperand z)))]

/-- `MK.X` (R171). -/
def execMkX (k : Word) (s : State) : Result := keyUnary mortonX k s

/-- `MK.Y` (R172). -/
def execMkY (k : Word) (s : State) : Result := keyUnary mortonY k s

/-- `MK.Z` (R173). -/
def execMkZ (k : Word) (s : State) : Result := keyUnary mortonZ k s

/-- `MK.INCX` (R174). -/
def execMkIncX (k : Word) (s : State) : Result := keyUnary (fun k => mortonIncX (resultWord k)) k s

/-- `MK.DECX` (R175). -/
def execMkDecX (k : Word) (s : State) : Result := keyUnary (fun k => mortonDecX (resultWord k)) k s

/-- `MK.INCY` (R176). -/
def execMkIncY (k : Word) (s : State) : Result := keyUnary (fun k => mortonIncY (resultWord k)) k s

/-- `MK.DECY` (R177). -/
def execMkDecY (k : Word) (s : State) : Result := keyUnary (fun k => mortonDecY (resultWord k)) k s

/-- `MK.INCZ` (R178). -/
def execMkIncZ (k : Word) (s : State) : Result := keyUnary (fun k => mortonIncZ (resultWord k)) k s

/-- `MK.DECZ` (R179). -/
def execMkDecZ (k : Word) (s : State) : Result := keyUnary (fun k => mortonDecZ (resultWord k)) k s

/-- `MK.ADD` (R180). -/
def execMkAdd (a b : Word) (s : State) : Result :=
  keyBinary (fun a b => resultWord (mortonKey (tripleAdd (mortonTriple a) (mortonTriple b)))) a b s

/-- `MK.SUB` (R181). -/
def execMkSub (a b : Word) (s : State) : Result :=
  keyBinary (fun a b => resultWord (mortonKey (tripleSub (mortonTriple a) (mortonTriple b)))) a b s

/-- `MK.CMP` (R182). -/
def execMkCmp (a b : Word) (s : State) : Result := keyBinary (fun a b => compareWord a b) a b s

end Sys2Proof.Machine
end

