-- ==== Sys2Proof/Machine/VoxelIndex.lean ====
section
/-!
DEFINITION. VoxelIndex and WorldIndex (43_voxel_index.md). All commands are pure.
-/

namespace Sys2Proof.Machine

/-! ### VoxelIndex -/

/-- The VoxelIndex of six components: bits 11..10 `vx`, 9..8 `vy`, 7..6 `vz`, 5..4 `bx`, 3..2 `by`, 1..0 `bz` (R200). -/
def voxelIndex (vx vy vz bX bY bZ : Comp) : VIdx := vx ++ vy ++ vz ++ bX ++ bY ++ bZ

/-- `vKey`, bits 11..6 (R201). -/
def vKeyOf (k : VIdx) : BitVec 6 := k.extractLsb' 6 6

/-- `bKey`, bits 5..0 (R201). -/
def bKeyOf (k : VIdx) : BitVec 6 := k.extractLsb' 0 6

/-- The component `sel`, bits `11-2*sel : 10-2*sel`, for `sel` in 0..5: `vx`, `vy`, `vz`, `bx`, `by`, `bz` (R205). -/
def componentOf (sel : Nat) (k : VIdx) : Comp := k.extractLsb' (10 - 2 * sel) 2

/-- A component of the VoxelIndex constructor: the integer modulo 4 (R202). -/
def compOf (v : Int) : Comp := BitVec.ofInt 2 v

/-! ### WorldIndex -/

/-- `worldIndexFrom` of integer coordinates (R209): on each axis chunk `floor(w/16)`, voxel `floor((w mod 16)/4)`, bitvoxel
`w mod 4`; the chunk key is Morton and wraps modulo 1024 (R211). -/
def worldIndexOfCell (x y z : Int) : Key × VIdx :=
  (mortonKey (tripleOf (x.fdiv 16) (y.fdiv 16) (z.fdiv 16)),
   voxelIndex (compOf ((x.fmod 16).fdiv 4)) (compOf ((y.fmod 16).fdiv 4)) (compOf ((z.fmod 16).fdiv 4))
     (compOf (x.fmod 4)) (compOf (y.fmod 4)) (compOf (z.fmod 4)))

/-! ### Commands -/

/-- `VI.FROM` (R202). -/
def execViFrom (vx vy vz bX bY bZ : Word) (s : State) : Result :=
  reply s [resultWord (voxelIndex (compOf (signedOperand vx)) (compOf (signedOperand vy)) (compOf (signedOperand vz))
    (compOf (signedOperand bX)) (compOf (signedOperand bY)) (compOf (signedOperand bZ)))]

/-- `VI.VKEY` (R203). -/
def execViVKey (k : Word) (s : State) : Result := withVIdx k s fun k => reply s [resultWord (vKeyOf k)]

/-- `VI.BKEY` (R204). -/
def execViBKey (k : Word) (s : State) : Result := withVIdx k s fun k => reply s [resultWord (bKeyOf k)]

/-- `VI.GETC` (R205): `ILLEGAL_OPERAND` when `sel > 5`, checked before the operand word. -/
def execViGetC (sel : BitVec 3) (k : Word) (s : State) : Result :=
  if sel.toNat > 5 then raise .illegalOperand s
  else withVIdx k s fun k => reply s [resultWord (componentOf sel.toNat k)]

/-- `VI.CMP` (R207). -/
def execViCmp (a b : Word) (s : State) : Result :=
  withVIdx a s fun a => withVIdx b s fun b => reply s [compareWord a b]

/-- `WI.FROM` (R210): each coordinate is truncated toward zero, then decomposed. -/
def execWiFrom (wx wy wz : Word) (s : State) : Result :=
  let wi := worldIndexOfCell (wcoordTrunc wx) (wcoordTrunc wy) (wcoordTrunc wz)
  reply s [resultWord wi.1, resultWord wi.2]

end Sys2Proof.Machine
end

