-- ==== Sys2Proof/Machine/Chunk.lean ====
section
/-!
DEFINITION. BVXLayer and the chunk commands (44_layer_chunk.md). A layer is a BitArray of 128 words (R220) whose bit
position is the VoxelIndex key; a chunk command first checks its key and looks the chunk up (R227).
-/

namespace Sys2Proof.Machine

/-! ### Layer functions -/

/-- A layer as the BitArray it is (R220). -/
def layerArray (ly : Layer) : BitArray := { n := Config.layerWords, words := ly }

/-- The layer of a new chunk (10_state.md R40). -/
def emptyLayer : Layer := []

/-- The layer word that holds a bitvoxel, `k >> 5` (R221). -/
def layerWordOf (k : VIdx) : Nat := k.toNat >>> 5

/-- The bit of that word, `k & 31` (R221). -/
def layerBitOf (k : VIdx) : BitVec 5 := k.extractLsb' 0 5

/-- `layerGet(Ly,k)` (R221). -/
def layerGet (ly : Layer) (k : VIdx) : Word := bitAt (readCell ly (layerWordOf k)) (layerBitOf k)

/-- The layer with the word of `k` changed by `f` at the bit of `k`: the common form of set, unset and toggle (R221). -/
def layerModify (f : Word → BitVec 5 → Word) (ly : Layer) (k : VIdx) : Layer :=
  writeCell ly (layerWordOf k) (f (readCell ly (layerWordOf k)) (layerBitOf k))

/-- `layerSet(Ly,k)` (R221). -/
def layerSet (ly : Layer) (k : VIdx) : Layer := layerModify setBitAt ly k

/-- `layerUnset(Ly,k)` (R221). -/
def layerUnset (ly : Layer) (k : VIdx) : Layer := layerModify unsetBitAt ly k

/-- `layerToggle(Ly,k)` (R221). -/
def layerToggle (ly : Layer) (k : VIdx) : Layer := layerModify toggleBitAt ly k

/-- The voxel group `g = k[11:6]` of an index; the `bKey` plays no part (R223). -/
def groupOf (k : VIdx) : Nat := (vKeyOf k).toNat

/-- The two words of a voxel group written with one value (R223). -/
def writeGroup (ly : Layer) (g : Nat) (v : Word) : Layer := writeCell (writeCell ly (2 * g) v) (2 * g + 1) v

/-- `layerFill(Ly,k)` (R224). -/
def layerFill (ly : Layer) (k : VIdx) : Layer := writeGroup ly (groupOf k) 0xFFFFFFFF#32

/-- `layerEmpty(Ly,k)` (R225). -/
def layerEmpty (ly : Layer) (k : VIdx) : Layer := writeGroup ly (groupOf k) 0#32

/-- `layerCount(Ly,k)` (R226). -/
def layerCount (ly : Layer) (k : VIdx) : Nat :=
  popcount (readCell ly (2 * groupOf k)) + popcount (readCell ly (2 * groupOf k + 1))

/-- `layerLength(Ly)` (R226). -/
def layerLength (ly : Layer) : Nat := arrayPopCount (layerArray ly)

/-! ### Metadata -/

/-- `val mod 2^w`, the bits of a value that a slot of width `w` keeps (R237). -/
def metaValue (w : MetaWidth) (val : Word) : Word := BitVec.ofNat 32 (val.toNat % 2 ^ metaBits w)

/-- Metadata get: the slot of the voxel, and 0 in a 0-bit chunk (R236). -/
def metaGet (c : Chunk) (vi : VIdx) : Word := if c.width = .bits0 then 0#32 else readCell c.slots (groupOf vi)

/-- Metadata set: the low `w` bits into the slot of the voxel, and nothing in a 0-bit chunk (R237). -/
def metaSet (c : Chunk) (vi : VIdx) (val : Word) : Chunk :=
  if c.width = .bits0 then c else { c with slots := writeCell c.slots (groupOf vi) (metaValue c.width val) }

/-! ### Command forms -/

/-- A chunk command that writes the chunk's layer and returns nothing. -/
def chunkLayerUpdate (f : Layer → Layer) (key : Word) (s : State) : Result :=
  withChunk key s fun k c => reply { s with world := worldPut s.world k { c with layer := f c.layer } } []

/-- A chunk command that reads the chunk and returns one word. -/
def chunkRead (f : Chunk → Word) (key : Word) (s : State) : Result := withChunk key s fun _ c => reply s [f c]

/-! ### Commands -/

/-- `CH.SET` (R228). -/
def execChSet (vi : VIdx) (key : Word) (s : State) : Result := chunkLayerUpdate (fun ly => layerSet ly vi) key s

/-- `CH.UNSET` (R229). -/
def execChUnset (vi : VIdx) (key : Word) (s : State) : Result := chunkLayerUpdate (fun ly => layerUnset ly vi) key s

/-- `CH.TGL` (R230). -/
def execChTgl (vi : VIdx) (key : Word) (s : State) : Result := chunkLayerUpdate (fun ly => layerToggle ly vi) key s

/-- `CH.GET` (R231). -/
def execChGet (vi : VIdx) (key : Word) (s : State) : Result := chunkRead (fun c => layerGet c.layer vi) key s

/-- `CH.FILL` (R232). -/
def execChFill (vi : VIdx) (key : Word) (s : State) : Result := chunkLayerUpdate (fun ly => layerFill ly vi) key s

/-- `CH.EMPTY` (R233). -/
def execChEmpty (vi : VIdx) (key : Word) (s : State) : Result := chunkLayerUpdate (fun ly => layerEmpty ly vi) key s

/-- `CH.COUNT` (R234). -/
def execChCount (vi : VIdx) (key : Word) (s : State) : Result :=
  chunkRead (fun c => BitVec.ofNat 32 (layerCount c.layer vi)) key s

/-- `CH.LEN` (R235). -/
def execChLen (key : Word) (s : State) : Result := chunkRead (fun c => BitVec.ofNat 32 (layerLength c.layer)) key s

/-- `CH.MGET` (R236). -/
def execChMGet (vi : VIdx) (key : Word) (s : State) : Result := chunkRead (fun c => metaGet c vi) key s

/-- `CH.MSET` (R237). -/
def execChMSet (vi : VIdx) (key val : Word) (s : State) : Result :=
  withChunk key s fun k c => reply { s with world := worldPut s.world k (metaSet c vi val) } []

end Sys2Proof.Machine
end

