-- ==== Sys2Proof/Machine/Store.lean ====
section
/-!
DEFINITION. The chunk store's commands (45_world_store.md). The store matches on the 30-bit scalar alone (R250) and never
decodes it (R257).
-/

namespace Sys2Proof.Machine

/-- The width of a variant code 0..3 (R252). -/
def widthOfCode (var : BitVec 2) : MetaWidth :=
  match var.toNat with
  | 0 => .bits0
  | 1 => .bits8
  | 2 => .bits16
  | _ => .bits32

/-- The code of a width (R253). -/
def codeOfWidth : MetaWidth → Word
  | .bits0 => 0#32
  | .bits8 => 1#32
  | .bits16 => 2#32
  | .bits32 => 3#32

/-- A new chunk: 128 zero words and 64 zero slots (R252, 10_state.md R40). -/
def newChunk (k : Key) (w : MetaWidth) : Chunk := { key := k, width := w, layer := emptyLayer, slots := [] }

/-- Equality of chunks is equality of their keys, whatever their layers, widths and slots (10_state.md R28). It has no
command: a command names a chunk by its key. -/
def sameChunk (a b : Chunk) : Bool := decide (a.key = b.key)

/-- `W.INS` (R252): a chunk already stored under the key is replaced. -/
def execWIns (var : BitVec 2) (key : Word) (s : State) : Result :=
  withKey key s fun k => reply { s with world := worldPut s.world k (newChunk k (widthOfCode var)) } []

/-- `W.GET` (R253). -/
def execWGet (key : Word) (s : State) : Result := chunkRead (fun c => codeOfWidth c.width) key s

/-- `W.REM` (R254): `OK` with result 1 or 0. -/
def execWRem (key : Word) (s : State) : Result :=
  withKey key s fun k =>
    match worldGet s.world k with
    | none => reply s [0#32]
    | some _ => reply { s with world := worldRemove s.world k } [1#32]

end Sys2Proof.Machine
end

