-- ==== Sys2Proof/Machine/FaceSolver.lean ====
section
/-!
DEFINITION. The face-visibility solver and the index expander (46_face_solver.md). `FACE` writes only `FM`; the others
write nothing (20_memory.md R68).
-/

namespace Sys2Proof.Machine

/-! ### Directions and neighbours -/

/-- The six directions, in the order of their mask bits (R271). -/
inductive Dir where
  | xPos | xNeg | yPos | yNeg | zPos | zNeg
deriving DecidableEq, Repr

/-- The directions in ascending order of their number (R271). -/
def allDirs : List Dir := [.xPos, .xNeg, .yPos, .yNeg, .zPos, .zNeg]

/-- The number `d` of a direction, its bit in a mask (R271). -/
def dirIndex : Dir → Nat
  | .xPos => 0
  | .xNeg => 1
  | .yPos => 2
  | .yNeg => 3
  | .zPos => 4
  | .zNeg => 5

/-- The sign of a direction (R271). -/
def dirSign : Dir → Int
  | .xPos | .yPos | .zPos => 1
  | .xNeg | .yNeg | .zNeg => -1

/-- `step_d(K)`: the Morton increment or decrement of the direction (R271, R272). -/
def neighbourKey (d : Dir) (k : Key) : Key :=
  match d with
  | .xPos => (mortonIncX (resultWord k)).setWidth 30
  | .xNeg => (mortonDecX (resultWord k)).setWidth 30
  | .yPos => (mortonIncY (resultWord k)).setWidth 30
  | .yNeg => (mortonDecY (resultWord k)).setWidth 30
  | .zPos => (mortonIncZ (resultWord k)).setWidth 30
  | .zNeg => (mortonDecZ (resultWord k)).setWidth 30

/-- The zero chunk `ZERO` (10_state.md R29); its key is never read. -/
def zeroChunk : Chunk := { key := 0#30, width := .bits0, layer := emptyLayer, slots := [] }

/-- The layer of `NB[d]`: the neighbour's, or the zero chunk's when no chunk is stored under the neighbour's key (R272). -/
def neighbourLayer (w : World) (k : Key) (d : Dir) : Layer := (worldGetOpt w (neighbourKey d k) zeroChunk).layer

/-- One step of sign `sgn` along an axis from voxel component `v` and bitvoxel component `b` (R273): whether the step leaves
the chunk, and the two components after it. -/
def advance (v b : Comp) (sgn : Int) : Bool × Comp × Comp :=
  let b1 := (b.toNat : Int) + sgn
  if b1 < 0 ∨ b1 > 3 then
    let v1 := (v.toNat : Int) + sgn
    if v1 < 0 ∨ v1 > 3 then (true, compOf v1, compOf b1) else (false, compOf v1, compOf b1)
  else (false, v, compOf b1)

/-- The neighbouring bitvoxel of `i` in direction `d`: whether it lies in `NB[d]`, and its index (R273). Only the
components of the direction's axis change. -/
def neighbourIndex (i : VIdx) (d : Dir) : Bool × VIdx :=
  let vx := componentOf 0 i
  let vy := componentOf 1 i
  let vz := componentOf 2 i
  let bX := componentOf 3 i
  let bY := componentOf 4 i
  let bZ := componentOf 5 i
  match d with
  | .xPos | .xNeg =>
    match advance vx bX (dirSign d) with
    | (out, v, b) => (out, voxelIndex v vy vz b bY bZ)
  | .yPos | .yNeg =>
    match advance vy bY (dirSign d) with
    | (out, v, b) => (out, voxelIndex vx v vz bX b bZ)
  | .zPos | .zNeg =>
    match advance vz bZ (dirSign d) with
    | (out, v, b) => (out, voxelIndex vx vy v bX bY b)

/-- `neighbourState(T, NB, i, d)` (R273), for the layer of `T` and the layers of `NB`. -/
def neighbourState (ly : Layer) (nb : Dir → Layer) (i : VIdx) (d : Dir) : Word :=
  match neighbourIndex i d with
  | (true, j) => layerGet (nb d) j
  | (false, j) => layerGet ly j

/-! ### The solver -/

/-- The mask of a set bitvoxel: bit `d` is set exactly when the neighbour in direction `d` is unset (R274, steps 4b, 4c). -/
def faceMask (ly : Layer) (nb : Dir → Layer) (i : VIdx) : Mask6 :=
  allDirs.foldl (fun m d => m ||| (((~~~(neighbourState ly nb i d)) &&& 1#32).setWidth 6 <<< dirIndex d)) 0#6

/-- The entry of `FM` for index `i`, if it is not 0 (R274, step 4). -/
def faceEntry (ly : Layer) (nb : Dir → Layer) (i : Nat) : Option Host.Cell :=
  if layerGet ly (BitVec.ofNat 12 i) = 0#32 then none
  else if faceMask ly nb (BitVec.ofNat 12 i) = 0#6 then none
  else some (i, (faceMask ly nb (BitVec.ofNat 12 i)).setWidth 8)

/-- The contents of `FM` that the solver writes for the layer of the target and those of its neighbours (R274). -/
def faceBuffer (ly : Layer) (nb : Dir → Layer) : List Host.Cell :=
  if layerLength ly = 0 then [] else (List.range Config.bitvoxels).filterMap (faceEntry ly nb)

/-! ### The index expander -/

/-- A lookup table: for each face mask its list of vertex numbers (00_scope.md R6). -/
abbrev IndexTable := BitVec 6 → List (Fin 24)

/-- `FM[i]` as a mask (R276; every entry is in 0..63, 10_state.md R32). -/
def fmMask (fm : List Host.Cell) (i : Nat) : Mask6 := (readCell fm i).setWidth 6

/-- `faces(FM)`: the sum over all entries of their 1 bits (R278). -/
def faceCount (fm : List Host.Cell) : Nat :=
  (List.range Config.bitvoxels).foldl (fun acc i => acc + popcount (readCell fm i)) 0

/-- The indices of position `i`: nothing for mask 0, else the table's list offset by `24*i` (R279). -/
def expandAt (fm : List Host.Cell) (table : IndexTable) (i : Nat) : List Word :=
  if readCell fm i = 0#8 then []
  else (table (fmMask fm i)).map fun e => BitVec.ofNat 32 (e.val + Config.vblock * i)

/-- `expand(FM, T)`, positions in ascending order (R279). -/
def expand (fm : List Host.Cell) (table : IndexTable) : List Word :=
  (List.range Config.bitvoxels).flatMap (expandAt fm table)

/-- The table that field `flip` selects (R281). -/
def tableOf (flip : BitVec 1) : IndexTable := if flip = 0#1 then Config.lut else Config.lutf

/-! ### Commands -/

/-- `FACE` (R274). -/
def execFace (key : Word) (s : State) : Result :=
  withChunk key s fun k c => reply { s with fm := faceBuffer c.layer (neighbourLayer s.world k) } []

/-- `FM.RD` (R276). -/
def execFmRd (i : VIdx) (s : State) : Result := reply s [resultWord (readCell s.fm i.toNat)]

/-- `GIDX` (R281). -/
def execGidx (flip : BitVec 1) (s : State) : Result := reply s (expand s.fm (tableOf flip))

/-- `GIDXO` (R282, 60_exceptions.md R332): the length test uses `faces(FM)` and not the tables. -/
def execGidxo (flip : BitVec 1) (outLen : Word) (s : State) : Result :=
  if signedOperand outLen ≠ 6 * (faceCount s.fm : Int) then raise .outOfRange s
  else reply s (expand s.fm (tableOf flip))

end Sys2Proof.Machine
end

