-- ==== Sys2Proof/Machine/LinearKey.lean ====
section
/-!
DEFINITION. Linear keys (42_spatial_keys.md section 2). All commands are pure; each `key` operand is checked by R185. An
increment, decrement, sum or difference decodes, works per axis modulo 1024, and re-encodes.
-/

namespace Sys2Proof.Machine

/-- `L(x,y,z)`: `x` in bits 29..20, `y` in 19..10, `z` in 9..0 (R151). -/
def linearKey (t : Triple) : Key := t.x ++ t.y ++ t.z

/-- The triple of a Linear scalar (R151). -/
def linearTriple (k : Key) : Triple :=
  { x := k.extractLsb' 20 10, y := k.extractLsb' 10 10, z := k.extractLsb' 0 10 }

/-- A Linear key command of one operand: decode, change the triple, re-encode. -/
def linearUnary (f : Triple → Triple) (k : Word) (s : State) : Result :=
  keyUnary (fun k => resultWord (linearKey (f (linearTriple k)))) k s

/-- `LK.FROM` (R156). -/
def execLkFrom (x y z : Word) (s : State) : Result :=
  reply s [resultWord (linearKey (tripleOf (signedOperand x) (signedOperand y) (signedOperand z)))]

/-- `LK.X` (R157). -/
def execLkX (k : Word) (s : State) : Result := keyUnary (fun k => resultWord (linearTriple k).x) k s

/-- `LK.Y` (R158). -/
def execLkY (k : Word) (s : State) : Result := keyUnary (fun k => resultWord (linearTriple k).y) k s

/-- `LK.Z` (R159). -/
def execLkZ (k : Word) (s : State) : Result := keyUnary (fun k => resultWord (linearTriple k).z) k s

/-- `LK.INCX` (R160). -/
def execLkIncX (k : Word) (s : State) : Result := linearUnary (fun t => { t with x := t.x + 1#10 }) k s

/-- `LK.DECX` (R161). -/
def execLkDecX (k : Word) (s : State) : Result := linearUnary (fun t => { t with x := t.x - 1#10 }) k s

/-- `LK.INCY` (R162). -/
def execLkIncY (k : Word) (s : State) : Result := linearUnary (fun t => { t with y := t.y + 1#10 }) k s

/-- `LK.DECY` (R163). -/
def execLkDecY (k : Word) (s : State) : Result := linearUnary (fun t => { t with y := t.y - 1#10 }) k s

/-- `LK.INCZ` (R164). -/
def execLkIncZ (k : Word) (s : State) : Result := linearUnary (fun t => { t with z := t.z + 1#10 }) k s

/-- `LK.DECZ` (R165). -/
def execLkDecZ (k : Word) (s : State) : Result := linearUnary (fun t => { t with z := t.z - 1#10 }) k s

/-- `LK.ADD` (R166). -/
def execLkAdd (a b : Word) (s : State) : Result :=
  keyBinary (fun a b => resultWord (linearKey (tripleAdd (linearTriple a) (linearTriple b)))) a b s

/-- `LK.SUB` (R167). -/
def execLkSub (a b : Word) (s : State) : Result :=
  keyBinary (fun a b => resultWord (linearKey (tripleSub (linearTriple a) (linearTriple b)))) a b s

/-- `LK.CMP` (R168). -/
def execLkCmp (a b : Word) (s : State) : Result := keyBinary (fun a b => compareWord a b) a b s

end Sys2Proof.Machine
end

