-- ==== Sys2Proof/Machine/Raycaster.lean ====
section
/-!
DEFINITION. The DDA raycaster (47_raycaster.md), in the integer form of R313: every finite `t` is `num / len` with
`len = |Dq|`, the delta of the two Q16.16 words, and one step on an axis adds 65536 to `num`. `Machine/RayReference.lean`
states the same walk over the rationals, word for word from R302 to R305.
-/

namespace Sys2Proof.Machine

/-- The walk along one axis (R302 to R304, R313). `len = 0` stands for a zero delta, whose `t` and `dt` are `+inf`. -/
structure RayAxis where
  /-- The current cell `c[a]`. -/
  cell : Int
  /-- The terminal cell `cend[a]`. -/
  last : Int
  /-- The step direction `d[a]`. -/
  dir : Int
  /-- The numerator of `t[a]`. -/
  num : Int
  /-- The denominator of `t[a]`. -/
  len : Int
deriving DecidableEq, Repr

/-- The set-up of one axis from its start and end words (R302 to R304, R313). -/
def rayAxis (s e : Word) : RayAxis :=
  let c := wcoordFloor s
  let dq := signedOperand e - signedOperand s
  let num := if dq > 0 then Config.wcScale * (c + 1) - signedOperand s else signedOperand s - Config.wcScale * c
  { cell := c, last := wcoordFloor e, dir := dq.sign, num := num, len := dq.natAbs }

/-- `t[a] <= t[b]` (R301, R313): `+inf` is above every finite value and equal to itself. -/
def rayLe (a b : RayAxis) : Bool :=
  if b.len = 0 then true else if a.len = 0 then false else decide (a.num * b.len ≤ b.num * a.len)

/-- `c[a] <- c[a] + d[a]; t[a] <- t[a] + dt[a]` (R305, R313). -/
def rayStep (a : RayAxis) : RayAxis := { a with cell := a.cell + a.dir, num := a.num + Config.wcScale }

/-- The chunk is present and its bitvoxel is set; a missing chunk is an empty cell (R305). -/
def cellSet (w : World) (wi : Key × VIdx) : Bool :=
  match worldGet w wi.1 with
  | none => false
  | some c => decide (layerGet c.layer wi.2 = 1#32)

/-- The loop of R305, with its order of axes on ties (R306), for at most `fuel` cells (R307). The start cell is examined
before any step (R309). `none` is Absent. -/
def rayWalk (w : World) : Nat → RayAxis → RayAxis → RayAxis → Option (Key × VIdx)
  | 0, _, _, _ => none
  | fuel + 1, x, y, z =>
    if cellSet w (worldIndexOfCell x.cell y.cell z.cell) then some (worldIndexOfCell x.cell y.cell z.cell)
    else if rayLe x y && rayLe x z then
      if x.cell = x.last then none else rayWalk w fuel (rayStep x) y z
    else if rayLe y z then
      if y.cell = y.last then none else rayWalk w fuel x (rayStep y) z
    else
      if z.cell = z.last then none else rayWalk w fuel x y (rayStep z)

/-- The cells an axis can still pass (R307). -/
def raySpan (a : RayAxis) : Nat := (a.last - a.cell).natAbs

/-- The bound on the cells a walk examines: `|iend-i| + |jend-j| + |kend-k| + 1` (R307). -/
def rayFuel (x y z : RayAxis) : Nat := raySpan x + raySpan y + raySpan z + 1

/-- `raycast(s, e)` on the six words of the command (R305, R308). -/
def raycast (w : World) (sx sy sz ex ey ez : Word) : Option (Key × VIdx) :=
  let x := rayAxis sx ex
  let y := rayAxis sy ey
  let z := rayAxis sz ez
  rayWalk w (rayFuel x y z) x y z

/-- `RAY` (R308): it reads `WORLD` and writes nothing (20_memory.md R68, R314). -/
def execRay (sx sy sz ex ey ez : Word) (s : State) : Result :=
  match raycast s.world sx sy sz ex ey ez with
  | none => raise .absent s
  | some wi => reply s [resultWord wi.1, resultWord wi.2]

end Sys2Proof.Machine
end

