-- ==== Sys2Proof/Machine/Dispatch.lean ====
section
/-!
DEFINITION. The dispatch of a command to its meaning, one arm per row of the opcode map (30_encoding.md R86).
-/

namespace Sys2Proof.Machine

def exec (i : Instr) (s : State) : Host.Outcome State Fault Refusal :=
  match i with
  -- BitOps (40_bitops.md)
  | .bitat p d => Sys2Proof.Machine.execBitat p d s
  | .bitinv p d => Sys2Proof.Machine.execBitinv p d s
  | .setb p d => Sys2Proof.Machine.execSetb p d s
  | .clrb p d => Sys2Proof.Machine.execClrb p d s
  | .tglb p d => Sys2Proof.Machine.execTglb p d s
  | .putb p b d => Sys2Proof.Machine.execPutb p b d s
  | .maskn n => Sys2Proof.Machine.execMaskn n s
  | .popc d => Sys2Proof.Machine.execPopc d s
  | .ispow2 v => Sys2Proof.Machine.execIspow2 v s
  | .flat3 b x y z => Sys2Proof.Machine.execFlat3 b x y z s
  | .flat2 b x y => Sys2Proof.Machine.execFlat2 b x y s
  -- the scratch BitArray (41_bitarray.md)
  | .baNew n => Sys2Proof.Machine.execBaNew n s
  | .baGet pos => Sys2Proof.Machine.execBaGet pos s
  | .baGetInv pos => Sys2Proof.Machine.execBaGetInv pos s
  | .baSet pos => Sys2Proof.Machine.execBaSet pos s
  | .baPut b pos => Sys2Proof.Machine.execBaPut b pos s
  | .baClr pos => Sys2Proof.Machine.execBaClr pos s
  | .baTgl pos => Sys2Proof.Machine.execBaTgl pos s
  | .baPopc => Sys2Proof.Machine.execBaPopc s
  | .baRdw idx => Sys2Proof.Machine.execBaRdw idx s
  | .baWrw idx val => Sys2Proof.Machine.execBaWrw idx val s
  -- Linear keys (42_spatial_keys.md section 2)
  | .lkFrom x y z => Sys2Proof.Machine.execLkFrom x y z s
  | .lkX k => Sys2Proof.Machine.execLkX k s
  | .lkY k => Sys2Proof.Machine.execLkY k s
  | .lkZ k => Sys2Proof.Machine.execLkZ k s
  | .lkIncX k => Sys2Proof.Machine.execLkIncX k s
  | .lkDecX k => Sys2Proof.Machine.execLkDecX k s
  | .lkIncY k => Sys2Proof.Machine.execLkIncY k s
  | .lkDecY k => Sys2Proof.Machine.execLkDecY k s
  | .lkIncZ k => Sys2Proof.Machine.execLkIncZ k s
  | .lkDecZ k => Sys2Proof.Machine.execLkDecZ k s
  | .lkAdd a b => Sys2Proof.Machine.execLkAdd a b s
  | .lkSub a b => Sys2Proof.Machine.execLkSub a b s
  | .lkCmp a b => Sys2Proof.Machine.execLkCmp a b s
  -- Morton keys (42_spatial_keys.md section 3)
  | .mkFrom x y z => Sys2Proof.Machine.execMkFrom x y z s
  | .mkX k => Sys2Proof.Machine.execMkX k s
  | .mkY k => Sys2Proof.Machine.execMkY k s
  | .mkZ k => Sys2Proof.Machine.execMkZ k s
  | .mkIncX k => Sys2Proof.Machine.execMkIncX k s
  | .mkDecX k => Sys2Proof.Machine.execMkDecX k s
  | .mkIncY k => Sys2Proof.Machine.execMkIncY k s
  | .mkDecY k => Sys2Proof.Machine.execMkDecY k s
  | .mkIncZ k => Sys2Proof.Machine.execMkIncZ k s
  | .mkDecZ k => Sys2Proof.Machine.execMkDecZ k s
  | .mkAdd a b => Sys2Proof.Machine.execMkAdd a b s
  | .mkSub a b => Sys2Proof.Machine.execMkSub a b s
  | .mkCmp a b => Sys2Proof.Machine.execMkCmp a b s
  -- VoxelIndex and WorldIndex (43_voxel_index.md)
  | .viFrom vx vy vz bX bY bZ => Sys2Proof.Machine.execViFrom vx vy vz bX bY bZ s
  | .viVKey k => Sys2Proof.Machine.execViVKey k s
  | .viBKey k => Sys2Proof.Machine.execViBKey k s
  | .viGetC sel k => Sys2Proof.Machine.execViGetC sel k s
  | .viCmp a b => Sys2Proof.Machine.execViCmp a b s
  | .wiFrom wx wy wz => Sys2Proof.Machine.execWiFrom wx wy wz s
  -- chunks (44_layer_chunk.md)
  | .chSet vi key => Sys2Proof.Machine.execChSet vi key s
  | .chUnset vi key => Sys2Proof.Machine.execChUnset vi key s
  | .chTgl vi key => Sys2Proof.Machine.execChTgl vi key s
  | .chGet vi key => Sys2Proof.Machine.execChGet vi key s
  | .chFill vi key => Sys2Proof.Machine.execChFill vi key s
  | .chEmpty vi key => Sys2Proof.Machine.execChEmpty vi key s
  | .chCount vi key => Sys2Proof.Machine.execChCount vi key s
  | .chLen key => Sys2Proof.Machine.execChLen key s
  | .chMGet vi key => Sys2Proof.Machine.execChMGet vi key s
  | .chMSet vi key val => Sys2Proof.Machine.execChMSet vi key val s
  -- the chunk store (45_world_store.md)
  | .wIns var key => Sys2Proof.Machine.execWIns var key s
  | .wGet key => Sys2Proof.Machine.execWGet key s
  | .wRem key => Sys2Proof.Machine.execWRem key s
  -- face solver and index expander (46_face_solver.md)
  | .face key => Sys2Proof.Machine.execFace key s
  | .fmRd idx => Sys2Proof.Machine.execFmRd idx s
  | .gidx flip => Sys2Proof.Machine.execGidx flip s
  | .gidxo flip outLen => Sys2Proof.Machine.execGidxo flip outLen s
  -- the raycaster (47_raycaster.md)
  | .ray sx sy sz ex ey ez => Sys2Proof.Machine.execRay sx sy sz ex ey ez s

end Sys2Proof.Machine
end

