-- ==== Sys2Proof/Machine/Step.lean ====
section
/-!
DEFINITION. One step of the block: one whole command from its port (00_scope.md R5, 30_encoding.md R80).
-/

namespace Sys2Proof.Machine

/-- One step. A whole command is taken off the port and executed. An illegal header is taken off alone and answered
`ILLEGAL_COMMAND` (60_exceptions.md R335, R336). Until one whole command is there the block waits (log entry 3). -/
def step (s : State) : Result :=
  match Sys2Proof.decode s.cmdPort with
  | .incomplete => .next s
  | .illegal _ rest => raise .illegalCommand { s with cmdPort := rest }
  | .command i rest => exec i { s with cmdPort := rest }

/-- The state in which the host has sent the command whose bits are `w`, every bit above `nbits` zero, so that the next
step runs it. This stands for the host's sending of a command (log entry 1). -/
def State.withFetchWord (s : State) (nbits w : Nat) : State :=
  { s with cmdPort := Sys2Proof.commandWords (Sys2Proof.wordsOfNat nbits w) ++ s.cmdPort }

end Sys2Proof.Machine
end

