-- ==== Sys2Proof/Machine/HashGrid.lean ====
section
/-!
DEFINITION. The bucket structure of the HashGrid (10_state.md R30, 20_memory.md R57), which R31 says is not observable and
which the state therefore does not hold: a fixed array of buckets, each a list of (key scalar, chunk) entries. It stands
here so that the refinement of R24 by R30 can be stated; no command uses it.
-/

namespace Sys2Proof.Machine

/-- A HashGrid: its bucket count `N` and its buckets (10_state.md R30). -/
structure Grid where
  n : Nat
  buckets : List (List (Nat × Chunk))
deriving DecidableEq, Repr

/-- The bucket count for a requested size: it must be at least 1, and an invalid size falls back to the default
(00_scope.md R6). DESIGN CHOICE, safe: every size of 1 or more is valid, however large; whether a very large one is, is not
given (91_not_in_source.md N18), and no response depends on it (log entry 6). -/
def gridSize (requested : Int) : Nat := if requested ≥ 1 then requested.toNat else Config.defaultBuckets

/-- An empty grid of the requested size. -/
def gridNew (requested : Int) : Grid :=
  { n := gridSize requested, buckets := List.replicate (gridSize requested) [] }

/-- The bucket of a key scalar, `k mod N` (20_memory.md R57). -/
def bucketOf (g : Grid) (k : Key) : Nat := k.toNat % g.n

/-- The entries of the bucket of a key. -/
def bucketAt (g : Grid) (k : Key) : List (Nat × Chunk) := g.buckets.getD (bucketOf g k) []

/-- The bucket's list with the matching entry's value overwritten in place, or a new entry at its end (10_state.md R30). -/
def bucketSet : List (Nat × Chunk) → Nat → Chunk → List (Nat × Chunk)
  | [], k, c => [(k, c)]
  | (a, u) :: t, k, c => if a = k then (a, c) :: t else (a, u) :: bucketSet t k c

/-- The bucket's list without its matching entry. The order of the others is not stated (91_not_in_source.md N13); here
they keep it (log entry 6). -/
def bucketRemove : List (Nat × Chunk) → Nat → List (Nat × Chunk)
  | [], _ => []
  | (a, u) :: t, k => if a = k then t else (a, u) :: bucketRemove t k

/-- `get(k)`: a linear scan of the bucket, matching on the scalar (45_world_store.md R250). -/
def gridGet (g : Grid) (k : Key) : Option Chunk := lookupAt (bucketAt g k) k.toNat

/-- `set(k,v)` (45_world_store.md R252). -/
def gridSet (g : Grid) (k : Key) (c : Chunk) : Grid :=
  { g with buckets := g.buckets.set (bucketOf g k) (bucketSet (bucketAt g k) k.toNat c) }

/-- `remove(k)`: whether an entry matched, and the grid without it (45_world_store.md R254). -/
def gridRemove (g : Grid) (k : Key) : Bool × Grid :=
  ((gridGet g k).isSome, { g with buckets := g.buckets.set (bucketOf g k) (bucketRemove (bucketAt g k) k.toNat) })

/-- Every bucket's keys are distinct. -/
def bucketDistinct : List (Nat × Chunk) → Bool
  | [] => true
  | (a, _) :: t => t.all (fun e => decide (e.1 ≠ a)) && bucketDistinct t

/-- A grid the operations make: at least one bucket, `N` buckets, and at most one entry for each key scalar (10_state.md
R24, R30). -/
def gridWf (g : Grid) : Bool :=
  decide (1 ≤ g.n) && decide (g.buckets.length = g.n) && g.buckets.all bucketDistinct

/-- The relation of 10_state.md R30 between a grid and the map of R24: they hold the same chunk, or none, under every
key. -/
def GridRefines (g : Grid) (w : World) : Prop := ∀ k : Key, gridGet g k = worldGet w k

end Sys2Proof.Machine
end

