-- ==== Sys2Proof/Machine/RayReference.lean ====
section
/-!
DEFINITION. The raycaster as 47_raycaster.md R302 to R305 state it, over exact rationals extended with `+inf` (R301). It
is what `Machine/Raycaster.lean` computes in integers (R313); no command uses it.
-/

namespace Sys2Proof.Machine

/-- The walk along one axis over the rationals (R302 to R304). A `t` or `dt` of `none` is `+inf`. -/
structure QAxis where
  cell : Int
  last : Int
  dir : Int
  t : Option Rat
  dt : Option Rat
deriving DecidableEq, Repr

/-- `<=` on rationals extended with `+inf` (R301). -/
def infLe : Option Rat → Option Rat → Bool
  | _, none => true
  | none, some _ => false
  | some a, some b => decide (a ≤ b)

/-- `+` on rationals extended with `+inf` (R301). -/
def infAdd : Option Rat → Option Rat → Option Rat
  | some a, some b => some (a + b)
  | _, _ => none

/-- The rational a `wcoord` word stands for (30_encoding.md R85). -/
def wcoordRat (x : Word) : Rat := (signedOperand x : Rat) / 65536

/-- The set-up of one axis (R302, R303, R304). -/
def qAxis (s e : Rat) : QAxis :=
  let c := s.floor
  let delta := e - s
  if delta > 0 then
    { cell := c, last := e.floor, dir := 1, t := some (((c : Rat) + 1 - s) / delta), dt := some (1 / delta) }
  else if delta < 0 then
    { cell := c, last := e.floor, dir := -1, t := some ((s - (c : Rat)) / (-delta)), dt := some (1 / (-delta)) }
  else { cell := c, last := e.floor, dir := 0, t := none, dt := none }

/-- `c[a] <- c[a] + d[a]; t[a] <- t[a] + dt[a]` (R305). -/
def qStep (a : QAxis) : QAxis := { a with cell := a.cell + a.dir, t := infAdd a.t a.dt }

/-- The loop of R305 for at most `fuel` cells. -/
def qWalk (w : World) : Nat → QAxis → QAxis → QAxis → Option (Key × VIdx)
  | 0, _, _, _ => none
  | fuel + 1, x, y, z =>
    if cellSet w (worldIndexOfCell x.cell y.cell z.cell) then some (worldIndexOfCell x.cell y.cell z.cell)
    else if infLe x.t y.t && infLe x.t z.t then
      if x.cell = x.last then none else qWalk w fuel (qStep x) y z
    else if infLe y.t z.t then
      if y.cell = y.last then none else qWalk w fuel x (qStep y) z
    else
      if z.cell = z.last then none else qWalk w fuel x y (qStep z)

/-- `raycast(s, e)` over the rationals, for at most `fuel` cells. -/
def qRaycast (w : World) (fuel : Nat) (sx sy sz ex ey ez : Rat) : Option (Key × VIdx) :=
  qWalk w fuel (qAxis sx ex) (qAxis sy ey) (qAxis sz ez)

end Sys2Proof.Machine
end

