-- ==== Sys2Proof/WellFormed.lean ====
section
/-!
DEFINITION. The legal operand and field values of a command, as far as they depend on the command alone: the list of
30_encoding.md R89 and 60_exceptions.md R338, less the word index of `BA.RDW` and `BA.WRW`, which is checked against
`SBA_N`. Every term of `Instr` has an encoding; one that is not well formed is answered `ILLEGAL_OPERAND`.
-/

namespace Sys2Proof

/-- A `key` operand word holds a 30-bit key scalar (30_encoding.md R85, 42_spatial_keys.md R185). -/
def isKeyWord (x : Word) : Bool := decide (x.toNat < 2 ^ 30)

/-- A `vidx` operand word holds a VoxelIndex key (30_encoding.md R85, 43_voxel_index.md R206). -/
def isVIdxWord (x : Word) : Bool := decide (x.toNat ≤ 4095)

/-- The fields and operand words of a command are in the legal sets of 30_encoding.md R89. -/
def Instr.wellFormed : Instr → Bool
  | .maskn n => decide (n.toNat ≤ 32)
  | .flat3 b _ _ _ => decide (b.toNat ≤ 10)
  | .flat2 b _ _ => decide (b.toNat ≤ 10)
  | .baNew n => decide (n.toInt ≤ (Config.sbaMaxWords : Int))
  | .lkX k | .lkY k | .lkZ k | .lkIncX k | .lkDecX k | .lkIncY k | .lkDecY k | .lkIncZ k | .lkDecZ k => isKeyWord k
  | .lkAdd a b | .lkSub a b | .lkCmp a b => isKeyWord a && isKeyWord b
  | .mkX k | .mkY k | .mkZ k | .mkIncX k | .mkDecX k | .mkIncY k | .mkDecY k | .mkIncZ k | .mkDecZ k => isKeyWord k
  | .mkAdd a b | .mkSub a b | .mkCmp a b => isKeyWord a && isKeyWord b
  | .viVKey k | .viBKey k => isVIdxWord k
  | .viGetC sel k => decide (sel.toNat ≤ 5) && isVIdxWord k
  | .viCmp a b => isVIdxWord a && isVIdxWord b
  | .chSet _ key | .chUnset _ key | .chTgl _ key | .chGet _ key | .chFill _ key | .chEmpty _ key => isKeyWord key
  | .chCount _ key | .chMGet _ key | .chMSet _ key _ => isKeyWord key
  | .chLen key | .wIns _ key | .wGet key | .wRem key | .face key => isKeyWord key
  | .bitat _ _ | .bitinv _ _ | .setb _ _ | .clrb _ _ | .tglb _ _ | .putb _ _ _ | .popc _ | .ispow2 _ => true
  | .baGet _ | .baGetInv _ | .baSet _ | .baPut _ _ | .baClr _ | .baTgl _ | .baPopc | .baRdw _ | .baWrw _ _ => true
  | .lkFrom _ _ _ | .mkFrom _ _ _ | .viFrom _ _ _ _ _ _ | .wiFrom _ _ _ => true
  | .fmRd _ | .gidx _ | .gidxo _ _ | .ray _ _ _ _ _ _ => true

/-- The command's fields and operand words are legal (30_encoding.md R89). -/
abbrev Instr.WellFormed (i : Instr) : Prop := i.wellFormed = true

end Sys2Proof
end

