-- ==== Sys2Proof/Safety.lean ====
section
/-!
DEFINITION. The terms claims are made in: the invariant of 10_state.md R41, what a safe run is, which words are a command, how
a command ends, the views of the state that frames speak of (one bit of an array or layer, one chunk, one `FM` entry), and
positions along one axis.
-/

namespace Sys2Proof.Machine

/-! ### The invariant and safe runs -/

/-- `FM` entries are in 0..63 (10_state.md R32, R41 (b)). -/
def fmInv (s : State) : Bool := s.fm.all fun e => decide (e.2.toNat ≤ 63)

/-- `1 <= SBA_N <= SBA_MAX_WORDS` (10_state.md R41 (c)). -/
def sbaInv (s : State) : Bool := decide (1 ≤ s.sba.n) && decide (s.sba.n ≤ Config.sbaMaxWords)

/-- The invariant of 10_state.md R41 at every command boundary, with the canonical form of every memory. That form holds
(a), every stored chunk's key is the key it is stored under, and (d), every slot is below `2^w`, and so (e): no slot is
listed for `w = 0`. -/
def Invariant (s : State) : Bool := Memory.wf s && fmInv s && sbaInv s

/-- A run of `n` steps is safe when no step of it stops: the block answers every command (60_exceptions.md R337, R340). -/
def SafeRun (n : Nat) (s : State) : Prop := ∃ t, Host.Core.run Sys2Proof.core n s = .next t

/-! ### How a command ends -/

/-- The command ends `OK` with these result words and writes nothing. -/
def Answers (i : Instr) (s : State) (results : List Word) : Prop := exec i s = .next (respond .ok results s)

/-- The command ends with a status other than `OK`: no result words, every element of state as before (60_exceptions.md
R337). -/
def Raises (i : Instr) (s : State) (st : Status) : Prop := exec i s = .next (respond st [] s)

/-- The commands one after the other, from the first to the last. -/
def execAll : List Instr → State → Result
  | [], s => .next s
  | i :: rest, s =>
    match exec i s with
    | .next t => execAll rest t
    | r => r

/-- The first result word of the response that a command ends with; 0 when it has none. -/
def firstResult (r : Result) : Word :=
  match r with
  | .next t => t.respPort.getD 1 0#32
  | .fault _ | .refused _ => 0#32

/-! ### Commands on the port -/

/-- The header of opcode `op` with `imm16 = imm` and a zero reserved byte (30_encoding.md R81), followed by the operand
words `xs`, is the command `i`, whatever words come after it. -/
def CommandIs (op imm : Nat) (xs : List Word) (i : Instr) : Prop :=
  ∀ rest, decode (BitVec.ofNat 32 (op * 2 ^ 24 + imm) :: (xs ++ rest)) = .command i rest

/-- A header word matches some row of the opcode map under that row's mask (30_encoding.md R83, R87). -/
def MatchesSomeRow (h : Word) : Prop := ∃ r ∈ opcodeMap, h &&& formatMask r.format = rowMatch r

/-! ### Views of the state -/

/-- Position `q` of a BitArray (20_memory.md R52). -/
def arrayBit (A : BitArray) (q : Nat) : Bool := (readCell A.words (q / 32)).getLsbD (q % 32)

/-- Bitvoxel `k` of a layer (20_memory.md R52, R53). -/
def layerBit (ly : Layer) (k : VIdx) : Bool := (readCell ly (k.toNat / 32)).getLsbD (k.toNat % 32)

/-- A bit as a result word. -/
def bitWord (b : Bool) : Word := if b then 1#32 else 0#32

/-- `FM[i]` (10_state.md R32). -/
def fmEntry (s : State) (i : Nat) : BitVec 8 := readCell s.fm i

/-- A `pos` operand names a position of the array: `pos >= 0` and `pos >> 5 < n` (60_exceptions.md R331). -/
def PosInRange (n : Nat) (pos : Word) : Prop := 0 ≤ pos.toInt ∧ pos.toInt / 32 < (n : Int)

/-- The key operand names a chunk of the store: the word is a key scalar and a chunk is stored under it. -/
def Holds (s : State) (key : Word) (k : Key) (c : Chunk) : Prop := key = k.setWidth 32 ∧ worldGet s.world k = some c

/-- Every chunk but the one under `k` is the same in both stores. -/
def SameElsewhere (w w' : World) (k : Key) : Prop := ∀ j : Key, j ≠ k → worldGet w' j = worldGet w j

/-- The command ends `OK` without result words and changes `SBA` alone: the same word count, and position `q` is now
`f q`. -/
def SbaBecomes (i : Instr) (s : State) (f : Nat → Bool) : Prop :=
  ∃ A, exec i s = .next (respond .ok [] { s with sba := A }) ∧ A.n = s.sba.n ∧ ∀ q, arrayBit A q = f q

/-- The command ends `OK` without result words and changes `WORLD` alone, and there only what is stored under `k`, which is
now a chunk with the property `P`. -/
def ChunkBecomes (i : Instr) (s : State) (k : Key) (P : Chunk → Prop) : Prop :=
  ∃ w c, exec i s = .next (respond .ok [] { s with world := w }) ∧ worldGet w k = some c ∧ SameElsewhere s.world w k ∧ P c

/-- The two failures of the preamble of 44_layer_chunk.md R227, which change nothing: `ILLEGAL_OPERAND` for a word with bit
31 or 30 set, whatever is stored, and `ABSENT` for a key under which no chunk is stored. -/
def FailsWithoutChunk (i : Instr) (key : Word) (s : State) : Prop :=
  (2 ^ 30 ≤ key.toNat → Raises i s .illegalOperand) ∧
  (key.toNat < 2 ^ 30 → worldGet s.world (key.setWidth 30) = none → Raises i s .absent)

/-- Only the layer of the chunk has changed: bitvoxel `j` is now `f j`. -/
def LayerBecomes (old : Chunk) (f : VIdx → Bool) (c : Chunk) : Prop :=
  c.key = old.key ∧ c.width = old.width ∧ c.slots = old.slots ∧ ∀ j, layerBit c.layer j = f j

/-- The number of bits set in `FM`, `faces(FM)` of 46_face_solver.md R278. -/
def facesOf (fm : List Host.Cell) : Nat := ∑ i ∈ Finset.range 4096, popcount (readCell fm i)

/-- Two stores hold chunks under the same keys, with the same layers; metadata and widths may differ. -/
def SameLayers (w w' : World) : Prop := ∀ k : Key, (worldGet w k).map Chunk.layer = (worldGet w' k).map Chunk.layer

/-! ### Axes -/

/-- `L(x,y,z)` by its arithmetic (42_spatial_keys.md R151), for axes below 1024. -/
def linearWord (x y z : Nat) : Word := BitVec.ofNat 32 (x * 2 ^ 20 + y * 2 ^ 10 + z)

/-- Axis `a` of a Morton scalar (0 `x`, 1 `y`, 2 `z`), read from the bits `a`, `a + 3`, …, `a + 27` that 42_spatial_keys.md
R152 gives it. -/
def mortonAxis (a : Nat) (k : Key) : Nat := (BitVec.ofFnLE fun j : Fin 10 => k.getLsbD (3 * j.val + a)).toNat

/-- The position 0..15 of a bitvoxel along an axis of its chunk, `4*v + b` (43_voxel_index.md R201). -/
def axisPos (a : Nat) (i : VIdx) : Nat := 4 * (componentOf a i).toNat + (componentOf (a + 3) i).toNat

/-- The axis of a direction, `d div 2` (46_face_solver.md R271). -/
def dirAxis (d : Dir) : Nat := dirIndex d / 2

/-- The step of a direction along an axis: its sign on its own axis and 0 on the others (46_face_solver.md R271). -/
def dirStep (d : Dir) (a : Nat) : Int := if dirAxis d = a then dirSign d else 0

/-- `RAY` along axis `a`, from `u` to `v`, the other two coordinates `p` and `q` at both ends. -/
def axialRay (a : Fin 3) (u v p q : Word) : Instr :=
  match a with
  | 0 => .ray u p q v p q
  | 1 => .ray p u q p v q
  | 2 => .ray p q u p q v

/-- The cell at `n` on axis `a` and at `j`, `l` on the other two. -/
def axialCell (a : Fin 3) (n j l : Int) : Key × VIdx :=
  match a with
  | 0 => worldIndexOfCell n j l
  | 1 => worldIndexOfCell j n l
  | 2 => worldIndexOfCell j l n

/-- `n` is between `u` and `v`, in either order, both ends included. -/
def Between (u v n : Int) : Prop := (u ≤ n ∧ n ≤ v) ∨ (v ≤ n ∧ n ≤ u)

/-- The number of cells a walk examines at most: `|iend-i| + |jend-j| + |kend-k| + 1` (47_raycaster.md R307), each cell the
floor of its coordinate (R302). -/
def rayCells (sx sy sz ex ey ez : Word) : Nat :=
  (ex.toInt / 65536 - sx.toInt / 65536).natAbs + (ey.toInt / 65536 - sy.toInt / 65536).natAbs +
    (ez.toInt / 65536 - sz.toInt / 65536).natAbs + 1

/-- The length that 46_face_solver.md R280 asks of a lookup table. -/
def TableMeetsR280 (T : IndexTable) : Prop := ∀ m : Mask6, m ≠ 0#6 → (T m).length = 6 * popcount m

/-! ### Facts of the opcode map -/

/-- The key operand of the commands that look a chunk up first (44_layer_chunk.md R227, 45_world_store.md R253,
46_face_solver.md R274). -/
def chunkOperand : Instr → Option Word
  | .chSet _ key | .chUnset _ key | .chTgl _ key | .chGet _ key | .chFill _ key | .chEmpty _ key => some key
  | .chCount _ key | .chMGet _ key | .chMSet _ key _ | .chLen key | .wGet key | .face key => some key
  | .bitat _ _ | .bitinv _ _ | .setb _ _ | .clrb _ _ | .tglb _ _ | .putb _ _ _ | .maskn _ | .popc _ | .ispow2 _ => none
  | .flat3 _ _ _ _ | .flat2 _ _ _ | .baNew _ | .baGet _ | .baGetInv _ | .baSet _ | .baPut _ _ | .baClr _ => none
  | .baTgl _ | .baPopc | .baRdw _ | .baWrw _ _ | .lkFrom _ _ _ | .lkX _ | .lkY _ | .lkZ _ | .lkIncX _ => none
  | .lkDecX _ | .lkIncY _ | .lkDecY _ | .lkIncZ _ | .lkDecZ _ | .lkAdd _ _ | .lkSub _ _ | .lkCmp _ _ => none
  | .mkFrom _ _ _ | .mkX _ | .mkY _ | .mkZ _ | .mkIncX _ | .mkDecX _ | .mkIncY _ | .mkDecY _ | .mkIncZ _ => none
  | .mkDecZ _ | .mkAdd _ _ | .mkSub _ _ | .mkCmp _ _ | .viFrom _ _ _ _ _ _ | .viVKey _ | .viBKey _ => none
  | .viGetC _ _ | .viCmp _ _ | .wiFrom _ _ _ | .wIns _ _ | .wRem _ | .fmRd _ | .gidx _ | .gidxo _ _ => none
  | .ray _ _ _ _ _ _ => none

/-- The number of result words on `OK` (30_encoding.md R86, column "res"); `none` for the column's `m`. -/
def resultCount : Instr → Option Nat
  | .baNew _ | .baSet _ | .baPut _ _ | .baClr _ | .baTgl _ | .baWrw _ _ => some 0
  | .chSet _ _ | .chUnset _ _ | .chTgl _ _ | .chFill _ _ | .chEmpty _ _ | .chMSet _ _ _ | .wIns _ _ | .face _ => some 0
  | .bitat _ _ | .bitinv _ _ | .setb _ _ | .clrb _ _ | .tglb _ _ | .putb _ _ _ | .maskn _ | .popc _ | .ispow2 _ => some 1
  | .flat3 _ _ _ _ | .flat2 _ _ _ | .baGet _ | .baGetInv _ | .baPopc | .baRdw _ => some 1
  | .lkFrom _ _ _ | .lkX _ | .lkY _ | .lkZ _ | .lkIncX _ | .lkDecX _ | .lkIncY _ | .lkDecY _ | .lkIncZ _ => some 1
  | .lkDecZ _ | .lkAdd _ _ | .lkSub _ _ | .lkCmp _ _ => some 1
  | .mkFrom _ _ _ | .mkX _ | .mkY _ | .mkZ _ | .mkIncX _ | .mkDecX _ | .mkIncY _ | .mkDecY _ | .mkIncZ _ => some 1
  | .mkDecZ _ | .mkAdd _ _ | .mkSub _ _ | .mkCmp _ _ => some 1
  | .viFrom _ _ _ _ _ _ | .viVKey _ | .viBKey _ | .viGetC _ _ | .viCmp _ _ => some 1
  | .chGet _ _ | .chCount _ _ | .chLen _ | .chMGet _ _ | .wGet _ | .wRem _ | .fmRd _ => some 1
  | .wiFrom _ _ _ | .ray _ _ _ _ _ _ => some 2
  | .gidx _ | .gidxo _ _ => none

end Sys2Proof.Machine
end

