-- ==== Sys2Proof/Certificates/Slice0/Obligations.lean ====
section
/-!
DEFINITION. The statements for the provers. Each docstring names the rule of spec/ it formalises. `Answers`, `Raises`,
`SbaBecomes` and `ChunkBecomes` (Safety.lean) all say that `exec` answers a next state and give that state whole;
`CommandIs op imm xs i` says which words are the command `i`.
-/

open Sys2Proof Sys2Proof.Machine

/-! ### Encoding and the port -/

/-- Decoding the words of any command, whatever follows them, gives the command and leaves what follows (R80, R83, R86). -/
def Obligations.DecodeOfEncodeIsTheCommand : Prop :=
  ∀ (i : Instr) (rest : List Word), decode (encode i ++ rest) = .command i rest

/-- Every command has one encoding: words that decode to a command are its encoding and what follows (R81, R83, R86). -/
def Obligations.EncodeOfDecodeIsTheWords : Prop :=
  ∀ (ws : List Word) (i : Instr) (rest : List Word), decode ws = .command i rest → encode i ++ rest = ws

/-- A header that matches a row is never illegal; one that matches none is consumed alone and answered `0x00000003` with no
state changed; and the opcodes without a row are those of the list in R87 (R87, R335, R336). -/
def Obligations.HeaderIsIllegalExactlyWhenNoRowMatches : Prop :=
  (∀ (h : Word) (rest : List Word), MatchesSomeRow h → ∀ why rest', decode (h :: rest) ≠ .illegal why rest') ∧
  (∀ (s : State) (h : Word) (rest : List Word), ¬ MatchesSomeRow h →
    step { s with cmdPort := h :: rest } = .next { s with cmdPort := rest, respPort := [0x00000003#32] }) ∧
  (∀ op : BitVec 8, (∀ r ∈ opcodeMap, r.op ≠ op) ↔
    op.toNat = 0x00 ∨ (0x0C ≤ op.toNat ∧ op.toNat ≤ 0x0F) ∨ (0x1A ≤ op.toNat ∧ op.toNat ≤ 0x1F) ∨
    (0x2D ≤ op.toNat ∧ op.toNat ≤ 0x2F) ∨ (0x3D ≤ op.toNat ∧ op.toNat ≤ 0x3F) ∨
    (0x45 ≤ op.toNat ∧ op.toNat ≤ 0x47) ∨ (0x49 ≤ op.toNat ∧ op.toNat ≤ 0x4F) ∨
    (0x5A ≤ op.toNat ∧ op.toNat ≤ 0x5F) ∨ (0x63 ≤ op.toNat ∧ op.toNat ≤ 0x6F) ∨
    (0x74 ≤ op.toNat ∧ op.toNat ≤ 0x7F) ∨ (0x81 ≤ op.toNat ∧ op.toNat ≤ 0xFF))

/-- A command is 1, 2, 3, 4 or 7 words long, one more than the operand words of its opcode's row, and commands of one opcode
have one length (R90). -/
def Obligations.CommandLengthFollowsFromTheOpcode : Prop :=
  ∀ i : Instr,
    ((encode i).length = 1 ∨ (encode i).length = 2 ∨ (encode i).length = 3 ∨ (encode i).length = 4 ∨
      (encode i).length = 7) ∧
    (∃ r ∈ opcodeMap, r.op = headerOp ((encode i).headD 0) ∧ (encode i).length = 1 + formatOperands r.format) ∧
    ∀ j : Instr, headerOp ((encode i).headD 0) = headerOp ((encode j).headD 0) → (encode i).length = (encode j).length

/-- One or two words of each family, written out from R81, R83 and R86, decode to the commands they stand for. -/
def Obligations.SampleWordsDecodeToTheirCommands : Prop :=
  decode [0x0100001F#32, 0x80000001#32] = .command (.bitat 31#5 0x80000001#32) [] ∧
  decode [0x06000104#32, 0x000000F0#32] = .command (.putb 4#5 1#1 0x000000F0#32) [] ∧
  decode [0x0A00000A#32, 1#32, 2#32, 3#32] = .command (.flat3 10#4 1#32 2#32 3#32) [] ∧
  decode [0x14000001#32, 127#32] = .command (.baPut 1#1 127#32) [] ∧
  decode [0x19000000#32, 2#32, 0xFFFF#32] = .command (.baWrw 2#32 0xFFFF#32) [] ∧
  decode [0x2A000000#32, 5#32, 6#32] = .command (.lkAdd 5#32 6#32) [] ∧
  decode [0x30000000#32, 3#32, 5#32, 7#32] = .command (.mkFrom 3#32 5#32 7#32) [] ∧
  decode [0x43000005#32, 0xE46#32] = .command (.viGetC 5#3 0xE46#32) [] ∧
  decode [0x59000ABC#32, 7#32, 9#32] = .command (.chMSet 0xABC#12 7#32 9#32) [] ∧
  decode [0x60000003#32, 7#32] = .command (.wIns 3#2 7#32) [] ∧
  decode [0x71000555#32] = .command (.fmRd 0x555#12) [] ∧
  decode [0x73000001#32, 36#32] = .command (.gidxo 1#1 36#32) [] ∧
  decode [0x80000000#32, 1#32, 2#32, 3#32, 4#32, 5#32, 6#32] = .command (.ray 1#32 2#32 3#32 4#32 5#32 6#32) []

/-- A step takes the whole command at the head of the port off it and runs it; while there is no whole command on the port
the state stays as it is (R5, R80; the waiting is the model's, log entry 3). -/
def Obligations.StepRunsTheDecodedCommand : Prop :=
  ∀ s : State,
    (∀ (i : Instr) (rest : List Word), decode s.cmdPort = .command i rest →
      step s = exec i { s with cmdPort := rest }) ∧
    (decode s.cmdPort = .incomplete → step s = .next s)

/-- Every command ends in one response: a header with one of the five status codes in bits 7..0 and the number of result
words in bits 31..8, no result words unless the status is `OK`, and then as many as the opcode's row says, for the index
expander at most 147456 under tables that meet R280 (R82, R330). Three clauses rest on the model's own choices or on an
inference: the count stands in bits 31..8 for fewer than `2^24` results, as it is cut to that field (log entry 9); the bound
147456 takes as its premise R280, which the spec marks derived (log entry 5); and that the command port is left alone is the
model's (log entry 1). -/
def Obligations.EveryCommandEndsInOneResponse : Prop :=
  (∀ (i : Instr) (s : State), ∃ t st results, exec i s = .next t ∧
    t.respPort = responseHeader st results.length :: results ∧ t.cmdPort = s.cmdPort ∧
    (st ≠ .ok → results = []) ∧ (st = .ok → ∀ m, resultCount i = some m → results.length = m)) ∧
  (∀ (st : Status) (m : Nat), m < 2 ^ 24 →
    (responseHeader st m).toNat / 2 ^ 8 = m ∧
    (responseHeader st m).toNat % 2 ^ 8 =
      match st with
      | .ok => 0
      | .absent => 1
      | .outOfRange => 2
      | .illegalCommand => 3
      | .illegalOperand => 4) ∧
  (∀ (T : IndexTable) (fm : List Host.Cell), TableMeetsR280 T → (∀ e ∈ fm, e.2.toNat ≤ 63) →
    (expand fm T).length ≤ 147456)

/-! ### The whole machine -/

/-- After reset `WORLD` is empty, every `FM` entry is 0, `SBA` is one zero word, and `ZERO` is all zero (R39). -/
def Obligations.ResetLeavesTheValuesOfR39 : Prop :=
  (∀ k : Key, worldGet State.reset.world k = none) ∧ (∀ i : Nat, i < 4096 → fmEntry State.reset i = 0#8) ∧
  State.reset.sba.n = 1 ∧ readCell State.reset.sba.words 0 = 0#32 ∧
  (∀ j : VIdx, layerBit zeroChunk.layer j = false) ∧ zeroChunk.width = .bits0

/-- The invariant of R41 holds after reset. -/
def Obligations.ResetMeetsTheInvariant : Prop := Invariant State.reset = true

/-- Every step from a state that meets the invariant of R41 leads to one that meets it (R41, which the spec marks derived);
and no run stops: from every state every number of steps leads to a state. The second clause is the model's: that a failure
is a response and no stop is deduced from R337 and R340 (log entry 15), and that a step without a whole command on the port
waits, as at reset, is a design choice (log entry 3). -/
def Obligations.StepKeepsTheInvariant : Prop :=
  (∀ s t : State, Invariant s = true → step s = .next t → Invariant t = true) ∧ (∀ (n : Nat) (s : State), SafeRun n s)

/-- A command that ends with a status other than `OK` has no result words and leaves every element of state as it was
(R337). -/
def Obligations.FailedCommandsChangeNothing : Prop :=
  ∀ (i : Instr) (s t : State) (st : Status) (results : List Word), exec i s = .next t →
    t.respPort = responseHeader st results.length :: results → st ≠ .ok → t = respond st [] s

/-- `ILLEGAL_OPERAND` is answered exactly for the operand and field values of the list in R338. -/
def Obligations.IllegalOperandExactlyForTheListOfR338 : Prop :=
  ∀ (i : Instr) (s : State), Raises i s .illegalOperand ↔
    (¬ i.WellFormed ∨ (∃ idx, i = .baRdw idx ∧ s.sba.n ≤ idx.toNat) ∨
      (∃ idx val, i = .baWrw idx val ∧ s.sba.n ≤ idx.toNat))

/-- `OUT_OF_RANGE` is answered exactly by the six bit accesses outside `SBA` and by `GIDXO` with a wrong length (R331,
R332). -/
def Obligations.OutOfRangeExactlyForItsTwoCauses : Prop :=
  ∀ (i : Instr) (s : State), Raises i s .outOfRange ↔
    ((∃ pos, ¬ PosInRange s.sba.n pos ∧ (i = .baGet pos ∨ i = .baGetInv pos ∨ i = .baSet pos ∨
        (∃ b, i = .baPut b pos) ∨ i = .baClr pos ∨ i = .baTgl pos)) ∨
      (∃ flip outLen, i = .gidxo flip outLen ∧ outLen.toInt ≠ 6 * (facesOf s.fm : Int)))

/-- `ABSENT` is answered exactly by the commands that name a chunk under whose key nothing is stored, and by a `RAY` that
finds no set bitvoxel (R334). -/
def Obligations.AbsentExactlyForItsCauses : Prop :=
  ∀ (i : Instr) (s : State), Raises i s .absent ↔
    ((∃ key : Word, chunkOperand i = some key ∧ key.toNat < 2 ^ 30 ∧ worldGet s.world (key.setWidth 30) = none) ∨
      (∃ sx sy sz ex ey ez, i = .ray sx sy sz ex ey ez ∧ raycast s.world sx sy sz ex ey ez = none))

/-- `FM` changes only when `FACE` runs, and what `FACE` writes depends on the world alone (R67). -/
def Obligations.FaceMaskBufferIsASnapshot : Prop :=
  (∀ (i : Instr) (s t : State), exec i s = .next t → (∀ key, i ≠ .face key) → t.fm = s.fm) ∧
  (∀ (key : Word) (k : Key) (c : Chunk) (s s' t t' : State), Holds s key k c → s'.world = s.world →
    exec (.face key) s = .next t → exec (.face key) s' = .next t' → t.fm = t'.fm)

/-- Each unit is written by its own commands and by no other: `SBA` by `BA.*` (R33, R378), `WORLD` by the chunk commands
that write and by `W.INS` and `W.REM` (R24, R26, R68), `FM` by `FACE` (R67, R68). That no command touches the words that
wait on the port is the model's choice (log entry 1). -/
def Obligations.UnitsAreWrittenByTheirOwnCommandsOnly : Prop :=
  ∀ (i : Instr) (s t : State), exec i s = .next t →
    t.cmdPort = s.cmdPort ∧
    (t.sba = s.sba ∨ (∃ n, i = .baNew n) ∨ (∃ pos, i = .baSet pos) ∨ (∃ b pos, i = .baPut b pos) ∨
      (∃ pos, i = .baClr pos) ∨ (∃ pos, i = .baTgl pos) ∨ (∃ idx val, i = .baWrw idx val)) ∧
    (t.world = s.world ∨ (∃ vi key, i = .chSet vi key) ∨ (∃ vi key, i = .chUnset vi key) ∨
      (∃ vi key, i = .chTgl vi key) ∨ (∃ vi key, i = .chFill vi key) ∨ (∃ vi key, i = .chEmpty vi key) ∨
      (∃ vi key val, i = .chMSet vi key val) ∨ (∃ var key, i = .wIns var key) ∨ (∃ key, i = .wRem key)) ∧
    (t.fm = s.fm ∨ ∃ key, i = .face key)

/-- Metadata and widths do not affect `FACE` or `RAY`: in two states whose stores hold the same layers under the same keys,
`FACE` writes the same masks and `RAY` gives the same answer (R274, R305, R376). -/
def Obligations.MetadataAffectsNeitherFaceNorRay : Prop :=
  ∀ (s s' : State), SameLayers s.world s'.world →
    (∀ (key : Word) (t t' : State) (k : Key) (c : Chunk), Holds s key k c → exec (.face key) s = .next t →
      exec (.face key) s' = .next t' → t.fm = t'.fm ∧ t.respPort = t'.respPort) ∧
    (∀ (sx sy sz ex ey ez : Word) (t t' : State), exec (.ray sx sy sz ex ey ez) s = .next t →
      exec (.ray sx sy sz ex ey ez) s' = .next t' → t.respPort = t'.respPort)

/-! ### BitOps -/

/-- `BITAT`, `BITINV` and `PUTB`: the bit at `p`, one minus it, and the word with bit `p` replaced by `b` and every other
bit kept, which is `SETB` for 1 and `CLRB` for 0 (R110, R111, R115). -/
def Obligations.SingleBitReadsAndPut : Prop :=
  ∀ (p : BitVec 5) (b : BitVec 1) (d : Word) (s : State),
    CommandIs 0x01 p.toNat [d] (.bitat p d) ∧
    Answers (.bitat p d) s [BitVec.ofNat 32 (d.toNat / 2 ^ p.toNat % 2)] ∧
    CommandIs 0x02 p.toNat [d] (.bitinv p d) ∧
    Answers (.bitinv p d) s [BitVec.ofNat 32 (1 - d.toNat / 2 ^ p.toNat % 2)] ∧
    CommandIs 0x06 (p.toNat + 2 ^ 8 * b.toNat) [d] (.putb p b d) ∧
    ∃ r : Word, Answers (.putb p b d) s [r] ∧
      (∀ q : Nat, q < 32 → r.getLsbD q = if q = p.toNat then b == 1#1 else d.getLsbD q) ∧
      (b = 1#1 → Answers (.setb p d) s [r]) ∧ (b = 0#1 → Answers (.clrb p d) s [r])

/-- `SETB`, `CLRB` and `TGLB`: bit `p` becomes 1, becomes 0, is inverted, and every other bit is kept (R112 to R114, whose
formulas the spec marks derived). -/
def Obligations.SingleBitMutationsKeepTheOtherBits : Prop :=
  ∀ (p : BitVec 5) (d : Word) (s : State),
    CommandIs 0x03 p.toNat [d] (.setb p d) ∧ CommandIs 0x04 p.toNat [d] (.clrb p d) ∧
    CommandIs 0x05 p.toNat [d] (.tglb p d) ∧
    (∃ r : Word, Answers (.setb p d) s [r] ∧
      ∀ q : Nat, q < 32 → r.getLsbD q = if q = p.toNat then true else d.getLsbD q) ∧
    (∃ r : Word, Answers (.clrb p d) s [r] ∧
      ∀ q : Nat, q < 32 → r.getLsbD q = if q = p.toNat then false else d.getLsbD q) ∧
    (∃ r : Word, Answers (.tglb p d) s [r] ∧
      ∀ q : Nat, q < 32 → r.getLsbD q = if q = p.toNat then !d.getLsbD q else d.getLsbD q)

/-- `MASKN` gives `2^n - 1` for `n` in 0..32 and `ILLEGAL_OPERAND` above; `ISPOW2` gives 1 exactly for the words of its
formula, which are the powers of two (R116, R118). -/
def Obligations.MasksAndPowersOfTwo : Prop :=
  (∀ (n : BitVec 6) (s : State), CommandIs 0x07 n.toNat [] (.maskn n) ∧
    (n.toNat ≤ 32 → Answers (.maskn n) s [BitVec.ofNat 32 (2 ^ n.toNat - 1)]) ∧
    (32 < n.toNat → Raises (.maskn n) s .illegalOperand)) ∧
  (∀ (v : Word) (s : State), CommandIs 0x09 0 [v] (.ispow2 v) ∧
    Answers (.ispow2 v) s [if v ≠ 0#32 ∧ v &&& (v - 1#32) = 0#32 then 1#32 else 0#32] ∧
    ((v ≠ 0#32 ∧ v &&& (v - 1#32) = 0#32) ↔ ∃ e : Nat, v.toNat = 2 ^ e))

/-- `POPC` gives the number of 1 bits (R117). -/
def Obligations.PopcCountsTheSetBits : Prop :=
  ∀ (d : Word) (s : State), CommandIs 0x08 0 [d] (.popc d) ∧
    Answers (.popc d) s [BitVec.ofNat 32 ((Finset.range 32).filter fun q => d.getLsbD q = true).card]

/-- The SWAR sequence that R117 quotes from general knowledge computes the number of 1 bits. -/
def Obligations.SwarSequenceCountsTheSetBits : Prop :=
  ∀ d : Word, (swarPopcount d).toNat = ((Finset.range 32).filter fun q => d.getLsbD q = true).card

/-- `FLAT3` and `FLAT2` give the low `3b` and `2b` bits of the overlaid, unmasked inputs for `b` in 0..10, and
`ILLEGAL_OPERAND` above (R119, R120). -/
def Obligations.FlattenedCoordinates : Prop :=
  ∀ (b : BitVec 4) (x y z : Word) (s : State),
    CommandIs 0x0A b.toNat [x, y, z] (.flat3 b x y z) ∧ CommandIs 0x0B b.toNat [x, y] (.flat2 b x y) ∧
    (b.toNat ≤ 10 →
      Answers (.flat3 b x y z) s
        [BitVec.ofNat 32
          ((x.toNat * 2 ^ (2 * b.toNat) ||| y.toNat * 2 ^ b.toNat ||| z.toNat) % 2 ^ (3 * b.toNat))] ∧
      Answers (.flat2 b x y) s
        [BitVec.ofNat 32 ((x.toNat * 2 ^ b.toNat ||| y.toNat) % 2 ^ (2 * b.toNat))]) ∧
    (10 < b.toNat → Raises (.flat3 b x y z) s .illegalOperand ∧ Raises (.flat2 b x y) s .illegalOperand)

/-- `toBitString` gives 32 digits, the highest bit first, and `fromBitString` is its inverse on the strings of 32 digits
(R122, R123). -/
def Obligations.BitStringsAreInverse : Prop :=
  (∀ w : Word, (toBitString w).length = 32 ∧
    (∀ i : Nat, i < 32 → (toBitString w)[i]? = some (if w.getLsbD (31 - i) then '1' else '0')) ∧
    fromBitString (toBitString w) = some w) ∧
  (∀ cs : List Char, cs.length = 32 → (∀ c ∈ cs, c = '0' ∨ c = '1') →
    ∃ w, fromBitString cs = some w ∧ toBitString w = cs)

/-! ### The scratch BitArray -/

/-- `BA.NEW` makes an array of `n` zero words, one word for a request of 0 or less, and nothing else changes; in a block of
any capacity a request above it is `ILLEGAL_OPERAND` (R131, whose zero words the spec marks derived). That the command
succeeds for every request, the first clause, is the model's choice: it rests on the presumed capacity `2^31 - 1` (log entry
4). -/
def Obligations.NewScratchArrayIsAllZero : Prop :=
  (∀ (n : Word) (s : State), CommandIs 0x10 0 [n] (.baNew n) ∧
    ∃ A, exec (.baNew n) s = .next (respond .ok [] { s with sba := A }) ∧
      A.n = (if 1 ≤ n.toInt then n.toInt.toNat else 1) ∧ ∀ j : Nat, readCell A.words j = 0#32) ∧
  (∀ (cap : Nat) (n : Int) (s : State),
    ((cap : Int) < n → sbaNew cap n s = .next (respond .illegalOperand [] s)) ∧
    (n ≤ (cap : Int) → ∃ A, sbaNew cap n s = .next (respond .ok [] { s with sba := A }) ∧
      A.n = (if 1 ≤ n then n.toNat else 1) ∧ ∀ j : Nat, readCell A.words j = 0#32))

/-- `BA.GET` and `BA.GETINV` give the bit at a position in range and one minus it, and answer `OUT_OF_RANGE` for a negative
position or one whose word index is not below `SBA_N` (R132, R133). -/
def Obligations.ScratchArrayBitReads : Prop :=
  ∀ (pos : Word) (s : State), CommandIs 0x11 0 [pos] (.baGet pos) ∧ CommandIs 0x12 0 [pos] (.baGetInv pos) ∧
    (PosInRange s.sba.n pos →
      Answers (.baGet pos) s [bitWord (arrayBit s.sba pos.toInt.toNat)] ∧
      Answers (.baGetInv pos) s [bitWord (!arrayBit s.sba pos.toInt.toNat)]) ∧
    (¬ PosInRange s.sba.n pos → Raises (.baGet pos) s .outOfRange ∧ Raises (.baGetInv pos) s .outOfRange)

/-- `BA.SET`, `BA.PUT`, `BA.CLR` and `BA.TGL` change the one bit at a position in range and nothing else, and answer
`OUT_OF_RANGE` with nothing changed outside it (R134 to R137). -/
def Obligations.ScratchArrayBitWrites : Prop :=
  ∀ (pos : Word) (b : BitVec 1) (s : State),
    CommandIs 0x13 0 [pos] (.baSet pos) ∧ CommandIs 0x14 b.toNat [pos] (.baPut b pos) ∧
    CommandIs 0x15 0 [pos] (.baClr pos) ∧ CommandIs 0x16 0 [pos] (.baTgl pos) ∧
    (PosInRange s.sba.n pos →
      SbaBecomes (.baSet pos) s (fun q => if q = pos.toInt.toNat then true else arrayBit s.sba q) ∧
      SbaBecomes (.baPut b pos) s (fun q => if q = pos.toInt.toNat then b == 1#1 else arrayBit s.sba q) ∧
      SbaBecomes (.baClr pos) s (fun q => if q = pos.toInt.toNat then false else arrayBit s.sba q) ∧
      SbaBecomes (.baTgl pos) s (fun q => if q = pos.toInt.toNat then !arrayBit s.sba q else arrayBit s.sba q)) ∧
    (¬ PosInRange s.sba.n pos →
      Raises (.baSet pos) s .outOfRange ∧ Raises (.baPut b pos) s .outOfRange ∧
      Raises (.baClr pos) s .outOfRange ∧ Raises (.baTgl pos) s .outOfRange)

/-- `BA.POPC` gives the number of set positions of `SBA`, cut to a word (R138). -/
def Obligations.ScratchArrayPopulation : Prop :=
  ∀ s : State, Invariant s = true → CommandIs 0x17 0 [] .baPopc ∧
    Answers .baPopc s
      [BitVec.ofNat 32 ((Finset.range (32 * s.sba.n)).filter fun q => arrayBit s.sba q = true).card]

/-- `BA.RDW` gives the word at an index below `SBA_N`, bit `p` of it being position `32*idx + p`; `BA.WRW` writes that word
and nothing else; both answer `ILLEGAL_OPERAND` at any other index (R139, R140). -/
def Obligations.ScratchArrayWordAccess : Prop :=
  ∀ (idx val : Word) (s : State), CommandIs 0x18 0 [idx] (.baRdw idx) ∧ CommandIs 0x19 0 [idx, val] (.baWrw idx val) ∧
    (idx.toNat < s.sba.n →
      (∃ r : Word, Answers (.baRdw idx) s [r] ∧ r = readCell s.sba.words idx.toNat ∧
        ∀ p : Nat, p < 32 → r.getLsbD p = arrayBit s.sba (32 * idx.toNat + p)) ∧
      (∃ A, exec (.baWrw idx val) s = .next (respond .ok [] { s with sba := A }) ∧ A.n = s.sba.n ∧
        ∀ j : Nat, readCell A.words j = if j = idx.toNat then val else readCell s.sba.words j)) ∧
    (s.sba.n ≤ idx.toNat → Raises (.baRdw idx) s .illegalOperand ∧ Raises (.baWrw idx val) s .illegalOperand)

/-! ### Spatial keys -/

/-- `LK.FROM` and `MK.FROM` take each signed coordinate modulo 1024 and pack the three, the Linear key by place value and
the Morton key bit by bit (R156, R170). -/
def Obligations.KeyConstructorsWrapEachAxis : Prop :=
  ∀ (x y z : Word) (s : State),
    CommandIs 0x20 0 [x, y, z] (.lkFrom x y z) ∧
    Answers (.lkFrom x y z) s
      [linearWord (x.toInt % 1024).toNat (y.toInt % 1024).toNat (z.toInt % 1024).toNat] ∧
    CommandIs 0x30 0 [x, y, z] (.mkFrom x y z) ∧
    ∃ r : Word, Answers (.mkFrom x y z) s [r] ∧ r.toNat < 2 ^ 30 ∧
      ∀ j : Nat, j < 10 →
        r.getLsbD (3 * j) = (x.toInt % 1024).toNat.testBit j ∧
        r.getLsbD (3 * j + 1) = (y.toInt % 1024).toNat.testBit j ∧
        r.getLsbD (3 * j + 2) = (z.toInt % 1024).toNat.testBit j

/-- The Linear accessors, increments and decrements on a key: the three 10-bit fields, and one of them stepped modulo 1024
with the other two kept; `ILLEGAL_OPERAND` on a word with bit 31 or 30 set (R157 to R165, R185). -/
def Obligations.LinearAccessorsAndSteps : Prop :=
  ∀ (k : Word) (s : State),
    CommandIs 0x21 0 [k] (.lkX k) ∧ CommandIs 0x22 0 [k] (.lkY k) ∧ CommandIs 0x23 0 [k] (.lkZ k) ∧
    CommandIs 0x24 0 [k] (.lkIncX k) ∧ CommandIs 0x25 0 [k] (.lkDecX k) ∧ CommandIs 0x26 0 [k] (.lkIncY k) ∧
    CommandIs 0x27 0 [k] (.lkDecY k) ∧ CommandIs 0x28 0 [k] (.lkIncZ k) ∧ CommandIs 0x29 0 [k] (.lkDecZ k) ∧
    (∀ x y z : Nat, x < 1024 → y < 1024 → z < 1024 → k = linearWord x y z →
      Answers (.lkX k) s [BitVec.ofNat 32 x] ∧ Answers (.lkY k) s [BitVec.ofNat 32 y] ∧
      Answers (.lkZ k) s [BitVec.ofNat 32 z] ∧
      Answers (.lkIncX k) s [linearWord ((x + 1) % 1024) y z] ∧
      Answers (.lkDecX k) s [linearWord ((x + 1023) % 1024) y z] ∧
      Answers (.lkIncY k) s [linearWord x ((y + 1) % 1024) z] ∧
      Answers (.lkDecY k) s [linearWord x ((y + 1023) % 1024) z] ∧
      Answers (.lkIncZ k) s [linearWord x y ((z + 1) % 1024)] ∧
      Answers (.lkDecZ k) s [linearWord x y ((z + 1023) % 1024)]) ∧
    (k.toNat < 2 ^ 30 → ∃ x y z : Nat, x < 1024 ∧ y < 1024 ∧ z < 1024 ∧ k = linearWord x y z) ∧
    (2 ^ 30 ≤ k.toNat → ∀ f ∈ [Instr.lkX, Instr.lkY, Instr.lkZ, Instr.lkIncX, Instr.lkDecX, Instr.lkIncY, Instr.lkDecY,
      Instr.lkIncZ, Instr.lkDecZ], Raises (f k) s .illegalOperand)

/-- `LK.ADD` and `LK.SUB` work componentwise modulo 1024; `ILLEGAL_OPERAND` when either word has bit 31 or 30 set (R166,
R167). -/
def Obligations.LinearSumsAndDifferences : Prop :=
  ∀ (a b : Word) (s : State),
    CommandIs 0x2A 0 [a, b] (.lkAdd a b) ∧ CommandIs 0x2B 0 [a, b] (.lkSub a b) ∧
    (∀ ax ay az bx bY bz : Nat, ax < 1024 → ay < 1024 → az < 1024 → bx < 1024 → bY < 1024 → bz < 1024 →
      a = linearWord ax ay az → b = linearWord bx bY bz →
      Answers (.lkAdd a b) s [linearWord ((ax + bx) % 1024) ((ay + bY) % 1024) ((az + bz) % 1024)] ∧
      Answers (.lkSub a b) s
        [linearWord ((ax + 1024 - bx) % 1024) ((ay + 1024 - bY) % 1024) ((az + 1024 - bz) % 1024)]) ∧
    (2 ^ 30 ≤ a.toNat ∨ 2 ^ 30 ≤ b.toNat →
      Raises (.lkAdd a b) s .illegalOperand ∧ Raises (.lkSub a b) s .illegalOperand)

/-- `LK.CMP`, `MK.CMP` and `VI.CMP` compare the unsigned scalars, with `0xFFFFFFFF`, 0 or 1 for less, equal or greater, and
answer `ILLEGAL_OPERAND` when an operand is not a key or not a VoxelIndex (R168, R182, R207). -/
def Obligations.ComparisonsOfScalars : Prop :=
  ∀ (a b : Word) (s : State),
    CommandIs 0x2C 0 [a, b] (.lkCmp a b) ∧ CommandIs 0x3C 0 [a, b] (.mkCmp a b) ∧
    CommandIs 0x44 0 [a, b] (.viCmp a b) ∧
    (a.toNat < 2 ^ 30 → b.toNat < 2 ^ 30 →
      Answers (.lkCmp a b) s
        [if a.toNat < b.toNat then 0xFFFFFFFF#32 else if a.toNat = b.toNat then 0#32 else 1#32] ∧
      Answers (.mkCmp a b) s
        [if a.toNat < b.toNat then 0xFFFFFFFF#32 else if a.toNat = b.toNat then 0#32 else 1#32]) ∧
    (2 ^ 30 ≤ a.toNat ∨ 2 ^ 30 ≤ b.toNat →
      Raises (.lkCmp a b) s .illegalOperand ∧ Raises (.mkCmp a b) s .illegalOperand) ∧
    (a.toNat ≤ 4095 → b.toNat ≤ 4095 →
      Answers (.viCmp a b) s
        [if a.toNat < b.toNat then 0xFFFFFFFF#32 else if a.toNat = b.toNat then 0#32 else 1#32]) ∧
    (4095 < a.toNat ∨ 4095 < b.toNat → Raises (.viCmp a b) s .illegalOperand)

/-- `MK.X`, `MK.Y` and `MK.Z` pack the bits 0, 3, …, the bits 1, 4, … and the bits 2, 5, … of the key into bits 0..9;
`ILLEGAL_OPERAND` on a word with bit 31 or 30 set (R171 to R173). -/
def Obligations.MortonAccessorsReadTheLanes : Prop :=
  ∀ (k : Word) (s : State),
    CommandIs 0x31 0 [k] (.mkX k) ∧ CommandIs 0x32 0 [k] (.mkY k) ∧ CommandIs 0x33 0 [k] (.mkZ k) ∧
    (k.toNat < 2 ^ 30 →
      Answers (.mkX k) s [BitVec.ofNat 32 (mortonAxis 0 (k.setWidth 30))] ∧
      Answers (.mkY k) s [BitVec.ofNat 32 (mortonAxis 1 (k.setWidth 30))] ∧
      Answers (.mkZ k) s [BitVec.ofNat 32 (mortonAxis 2 (k.setWidth 30))]) ∧
    (2 ^ 30 ≤ k.toNat → ∀ f ∈ [Instr.mkX, Instr.mkY, Instr.mkZ], Raises (f k) s .illegalOperand)

/-- The six Morton steps give the words of the formulas of R174 to R179 on a key, and `ILLEGAL_OPERAND` on a word with bit
31 or 30 set (the spec marks the amounts 2 and 4 of the last two decrements derived, log entry 12). -/
def Obligations.MortonStepFormulas : Prop :=
  ∀ (k : Word) (s : State),
    CommandIs 0x34 0 [k] (.mkIncX k) ∧ CommandIs 0x35 0 [k] (.mkDecX k) ∧ CommandIs 0x36 0 [k] (.mkIncY k) ∧
    CommandIs 0x37 0 [k] (.mkDecY k) ∧ CommandIs 0x38 0 [k] (.mkIncZ k) ∧ CommandIs 0x39 0 [k] (.mkDecZ k) ∧
    (k.toNat < 2 ^ 30 →
      Answers (.mkIncX k) s [(((k ||| 0x36DB6DB6#32) + 1#32) &&& 0x09249249#32) ||| (k &&& 0x36DB6DB6#32)] ∧
      Answers (.mkDecX k) s [(((k &&& 0x09249249#32) - 1#32) &&& 0x09249249#32) ||| (k &&& 0x36DB6DB6#32)] ∧
      Answers (.mkIncY k) s [(((k ||| 0x2DB6DB6D#32) + 2#32) &&& 0x12492492#32) ||| (k &&& 0x2DB6DB6D#32)] ∧
      Answers (.mkDecY k) s [(((k &&& 0x12492492#32) - 2#32) &&& 0x12492492#32) ||| (k &&& 0x2DB6DB6D#32)] ∧
      Answers (.mkIncZ k) s [(((k ||| 0x1B6DB6DB#32) + 1#32) &&& 0x24924924#32) ||| (k &&& 0x1B6DB6DB#32)] ∧
      Answers (.mkDecZ k) s [(((k &&& 0x24924924#32) - 4#32) &&& 0x24924924#32) ||| (k &&& 0x1B6DB6DB#32)]) ∧
    (2 ^ 30 ≤ k.toNat → ∀ f ∈ [Instr.mkIncX, Instr.mkDecX, Instr.mkIncY, Instr.mkDecY, Instr.mkIncZ, Instr.mkDecZ],
      Raises (f k) s .illegalOperand)

/-- Each Morton step adds or subtracts 1 modulo 1024 on its own axis and keeps the other two: no carry or borrow crosses
from one lane of the interleave to another (the values that R174 to R179 mark derived). -/
def Obligations.MortonStepsMoveOneCoordinate : Prop :=
  ∀ (k : Key) (s : State),
    ∀ p ∈ [(Instr.mkIncX, 0, 1), (Instr.mkDecX, 0, 1023), (Instr.mkIncY, 1, 1), (Instr.mkDecY, 1, 1023),
      (Instr.mkIncZ, 2, 1), (Instr.mkDecZ, 2, 1023)],
      ∃ r : Key, Answers (p.1 (k.setWidth 32)) s [r.setWidth 32] ∧
        ∀ a : Nat, a < 3 → mortonAxis a r = if a = p.2.1 then (mortonAxis a k + p.2.2) % 1024 else mortonAxis a k

/-- `MK.ADD` and `MK.SUB` work componentwise modulo 1024; `ILLEGAL_OPERAND` when either word has bit 31 or 30 set (R180,
R181). That the lane forms which the rules quote give the same words is the spec's own inference (90_conflicts.md C1, the
claim of equality marked derived; log entry 12). -/
def Obligations.MortonSumsAndDifferences : Prop :=
  (∀ (a b : Key) (s : State),
    ∃ r d : Key, Answers (.mkAdd (a.setWidth 32) (b.setWidth 32)) s [r.setWidth 32] ∧
      Answers (.mkSub (a.setWidth 32) (b.setWidth 32)) s [d.setWidth 32] ∧
      (∀ i : Nat, i < 3 → mortonAxis i r = (mortonAxis i a + mortonAxis i b) % 1024 ∧
        mortonAxis i d = (mortonAxis i a + 1024 - mortonAxis i b) % 1024) ∧
      mortonAddLanes (a.setWidth 32) (b.setWidth 32) = r.setWidth 32 ∧
      mortonSubLanes (a.setWidth 32) (b.setWidth 32) = d.setWidth 32) ∧
  (∀ (a b : Word) (s : State), CommandIs 0x3A 0 [a, b] (.mkAdd a b) ∧ CommandIs 0x3B 0 [a, b] (.mkSub a b) ∧
    (2 ^ 30 ≤ a.toNat ∨ 2 ^ 30 ≤ b.toNat →
      Raises (.mkAdd a b) s .illegalOperand ∧ Raises (.mkSub a b) s .illegalOperand))

/-- The ladders of R154 and R155 compute the interleave of R152: spreading puts bit `j` of the low ten bits at `3j`, and
compaction gathers the bits at `3j` back, on every word. -/
def Obligations.MortonLaddersComputeTheInterleave : Prop :=
  (∀ (v : Word) (q : Nat), q < 32 →
    (mortonPart v).getLsbD q = (decide (q % 3 = 0) && decide (q < 30) && v.getLsbD (q / 3)) ∧
    (mortonCompact v).getLsbD q = (decide (q < 10) && v.getLsbD (3 * q))) ∧
  (∀ x y z : Word,
    (mortonPart x ||| (mortonPart y <<< 1) ||| (mortonPart z <<< 2)) =
      (mortonKey { x := x.setWidth 10, y := y.setWidth 10, z := z.setWidth 10 }).setWidth 32)

/-- Both encodings are bijections between triples and 30-bit scalars (R150, which the spec marks derived from R151 and
R152). -/
def Obligations.KeyEncodingsAreBijections : Prop :=
  (∀ t : Triple, linearTriple (linearKey t) = t ∧ mortonTriple (mortonKey t) = t) ∧
  (∀ k : Key, linearKey (linearTriple k) = k ∧ mortonKey (mortonTriple k) = k)

/-- Increment and decrement on one axis undo each other on every key, of either kind, and 1024 increments return the
key (R183, whose Linear half the spec marks derived). -/
def Obligations.StepsUndoEachOther : Prop :=
  ∀ (k : Key) (s : State),
    ∀ p ∈ [(Instr.lkIncX, Instr.lkDecX), (Instr.lkIncY, Instr.lkDecY), (Instr.lkIncZ, Instr.lkDecZ),
      (Instr.mkIncX, Instr.mkDecX), (Instr.mkIncY, Instr.mkDecY), (Instr.mkIncZ, Instr.mkDecZ)],
      (∃ r : Word, Answers (p.1 (k.setWidth 32)) s [r] ∧ Answers (p.2 r) s [k.setWidth 32]) ∧
      (∃ r : Word, Answers (p.2 (k.setWidth 32)) s [r] ∧ Answers (p.1 r) s [k.setWidth 32]) ∧
      (fun x => firstResult (exec (p.1 x) s))^[1024] (k.setWidth 32) = k.setWidth 32

/-- On encodings of the same triples the Linear and the Morton command of every operation give encodings of the same
triple, and both comparisons say equal exactly for equal triples (R169, which the spec marks derived). -/
def Obligations.LinearAndMortonAgreeOnTriples : Prop :=
  ∀ (t u : Triple) (s : State),
    (∀ p ∈ [(Instr.lkX, Instr.mkX), (Instr.lkY, Instr.mkY), (Instr.lkZ, Instr.mkZ)],
      ∃ r : Word, Answers (p.1 ((linearKey t).setWidth 32)) s [r] ∧ Answers (p.2 ((mortonKey t).setWidth 32)) s [r]) ∧
    (∀ p ∈ [(Instr.lkIncX, Instr.mkIncX), (Instr.lkDecX, Instr.mkDecX), (Instr.lkIncY, Instr.mkIncY),
        (Instr.lkDecY, Instr.mkDecY), (Instr.lkIncZ, Instr.mkIncZ), (Instr.lkDecZ, Instr.mkDecZ)],
      ∃ v : Triple, Answers (p.1 ((linearKey t).setWidth 32)) s [(linearKey v).setWidth 32] ∧
        Answers (p.2 ((mortonKey t).setWidth 32)) s [(mortonKey v).setWidth 32]) ∧
    (∀ p ∈ [(Instr.lkAdd, Instr.mkAdd), (Instr.lkSub, Instr.mkSub)],
      ∃ v : Triple,
        Answers (p.1 ((linearKey t).setWidth 32) ((linearKey u).setWidth 32)) s [(linearKey v).setWidth 32] ∧
        Answers (p.2 ((mortonKey t).setWidth 32) ((mortonKey u).setWidth 32)) s [(mortonKey v).setWidth 32]) ∧
    (Answers (.lkCmp ((linearKey t).setWidth 32) ((linearKey u).setWidth 32)) s [0#32] ↔ t = u) ∧
    (Answers (.mkCmp ((mortonKey t).setWidth 32) ((mortonKey u).setWidth 32)) s [0#32] ↔ t = u)

/-! ### VoxelIndex and WorldIndex -/

/-- `VI.FROM` wraps each of six signed components modulo 4 and packs them; `VI.VKEY`, `VI.BKEY` and `VI.GETC` read the
fields back, and answer `ILLEGAL_OPERAND` above 4095 or for `sel` above 5 (R202 to R206). -/
def Obligations.VoxelIndexFields : Prop :=
  (∀ (vx vy vz bx bY bz : Word) (s : State),
    CommandIs 0x40 0 [vx, vy, vz, bx, bY, bz] (.viFrom vx vy vz bx bY bz) ∧
    Answers (.viFrom vx vy vz bx bY bz) s
      [BitVec.ofNat 32 ((vx.toInt % 4).toNat * 2 ^ 10 + (vy.toInt % 4).toNat * 2 ^ 8 + (vz.toInt % 4).toNat * 2 ^ 6 +
        (bx.toInt % 4).toNat * 2 ^ 4 + (bY.toInt % 4).toNat * 2 ^ 2 + (bz.toInt % 4).toNat)]) ∧
  (∀ (sel : BitVec 3) (k : Word) (s : State),
    CommandIs 0x41 0 [k] (.viVKey k) ∧ CommandIs 0x42 0 [k] (.viBKey k) ∧
    CommandIs 0x43 sel.toNat [k] (.viGetC sel k) ∧
    (k.toNat ≤ 4095 →
      Answers (.viVKey k) s [BitVec.ofNat 32 (k.toNat / 2 ^ 6)] ∧
      Answers (.viBKey k) s [BitVec.ofNat 32 (k.toNat % 2 ^ 6)] ∧
      (sel.toNat ≤ 5 →
        Answers (.viGetC sel k) s [BitVec.ofNat 32 (k.toNat / 2 ^ (10 - 2 * sel.toNat) % 4)])) ∧
    (4095 < k.toNat → Raises (.viVKey k) s .illegalOperand ∧ Raises (.viBKey k) s .illegalOperand ∧
      Raises (.viGetC sel k) s .illegalOperand) ∧
    (5 < sel.toNat → Raises (.viGetC sel k) s .illegalOperand))

/-- `WI.FROM` truncates each coordinate toward zero to an integer `w`; along each axis the chunk is `floor(w/16)` modulo
1024, the voxel `floor((w mod 16)/4)` and the bitvoxel `w mod 4` (R209, R210). -/
def Obligations.WorldIndexDecomposition : Prop :=
  ∀ (wx wy wz : Word) (s : State), CommandIs 0x48 0 [wx, wy, wz] (.wiFrom wx wy wz) ∧
    ∃ (key : Key) (index : VIdx), Answers (.wiFrom wx wy wz) s [key.setWidth 32, index.setWidth 32] ∧
      ∀ p ∈ [(0, wx.toInt.tdiv 65536), (1, wy.toInt.tdiv 65536), (2, wz.toInt.tdiv 65536)],
        (mortonAxis p.1 key : Int) = p.2 / 16 % 1024 ∧
        ((componentOf p.1 index).toNat : Int) = p.2 % 16 / 4 ∧
        ((componentOf (p.1 + 3) index).toNat : Int) = p.2 % 4

/-- World space is a torus of period 16384: two integer cells are the same bitvoxel of the same chunk exactly when their
coordinates are congruent modulo 16384 on every axis (R56, R211, which the spec derives from R209). -/
def Obligations.WorldIsATorusOfPeriod16384 : Prop :=
  ∀ x y z x' y' z' : Int, worldIndexOfCell x y z = worldIndexOfCell x' y' z' ↔
    (x % 16384 = x' % 16384 ∧ y % 16384 = y' % 16384 ∧ z % 16384 = z' % 16384)

/-! ### Chunks -/

/-- `CH.SET`, `CH.UNSET` and `CH.TGL` on a stored chunk change the one bitvoxel of its layer and nothing else; on any other
key operand they fail as R227 says (R228 to R230). -/
def Obligations.ChunkBitWrites : Prop :=
  ∀ (vi : VIdx) (key : Word) (k : Key) (c : Chunk) (s : State),
    CommandIs 0x50 vi.toNat [key] (.chSet vi key) ∧ CommandIs 0x51 vi.toNat [key] (.chUnset vi key) ∧
    CommandIs 0x52 vi.toNat [key] (.chTgl vi key) ∧
    (∀ i ∈ [Instr.chSet vi key, Instr.chUnset vi key, Instr.chTgl vi key], FailsWithoutChunk i key s) ∧
    (Holds s key k c →
      ChunkBecomes (.chSet vi key) s k
        (LayerBecomes c fun j => if j = vi then true else layerBit c.layer j) ∧
      ChunkBecomes (.chUnset vi key) s k
        (LayerBecomes c fun j => if j = vi then false else layerBit c.layer j) ∧
      ChunkBecomes (.chTgl vi key) s k
        (LayerBecomes c fun j => if j = vi then !layerBit c.layer j else layerBit c.layer j))

/-- `CH.FILL` and `CH.EMPTY` on a stored chunk set and clear the 64 bitvoxels of the voxel that `vi[11:6]` names and change
nothing else; on any other key operand they fail as R227 says (R232, R233). -/
def Obligations.ChunkVoxelWrites : Prop :=
  ∀ (vi : VIdx) (key : Word) (k : Key) (c : Chunk) (s : State),
    CommandIs 0x54 vi.toNat [key] (.chFill vi key) ∧ CommandIs 0x55 vi.toNat [key] (.chEmpty vi key) ∧
    FailsWithoutChunk (.chFill vi key) key s ∧ FailsWithoutChunk (.chEmpty vi key) key s ∧
    (Holds s key k c →
      ChunkBecomes (.chFill vi key) s k
        (LayerBecomes c fun j => if j.toNat / 64 = vi.toNat / 64 then true else layerBit c.layer j) ∧
      ChunkBecomes (.chEmpty vi key) s k
        (LayerBecomes c fun j => if j.toNat / 64 = vi.toNat / 64 then false else layerBit c.layer j))

/-- On a stored chunk `CH.GET` gives the bitvoxel, `CH.COUNT` the number of set bitvoxels of the voxel, `CH.LEN` that of
the layer, and `CH.MGET` the voxel's slot, 0 in a 0-bit chunk; nothing changes; on any other key operand they fail as R227
says (R231, R234 to R236). -/
def Obligations.ChunkReads : Prop :=
  ∀ (vi : VIdx) (key : Word) (k : Key) (c : Chunk) (s : State),
    CommandIs 0x53 vi.toNat [key] (.chGet vi key) ∧ CommandIs 0x56 vi.toNat [key] (.chCount vi key) ∧
    CommandIs 0x57 0 [key] (.chLen key) ∧ CommandIs 0x58 vi.toNat [key] (.chMGet vi key) ∧
    (∀ i ∈ [Instr.chGet vi key, Instr.chCount vi key, Instr.chLen key, Instr.chMGet vi key], FailsWithoutChunk i key s) ∧
    (Holds s key k c →
      Answers (.chGet vi key) s [bitWord (layerBit c.layer vi)] ∧
      Answers (.chCount vi key) s
        [BitVec.ofNat 32 ((Finset.range 64).filter fun b =>
          layerBit c.layer (BitVec.ofNat 12 (64 * (vi.toNat / 64) + b)) = true).card] ∧
      Answers (.chMGet vi key) s [if c.width = .bits0 then 0#32 else readCell c.slots (vi.toNat / 64)] ∧
      (Invariant s = true →
        Answers (.chLen key) s
          [BitVec.ofNat 32 ((Finset.range 4096).filter fun q => layerBit c.layer (BitVec.ofNat 12 q) = true).card]))

/-- `CH.MSET` stores the low `w` bits of the value in the slot of the voxel that `vi[11:6]` names, nothing in a 0-bit chunk,
and changes nothing else; on any other key operand it fails as R227 says (R237). -/
def Obligations.ChunkMetadataWrites : Prop :=
  ∀ (vi : VIdx) (key val : Word) (k : Key) (c : Chunk) (s : State),
    CommandIs 0x59 vi.toNat [key, val] (.chMSet vi key val) ∧ FailsWithoutChunk (.chMSet vi key val) key s ∧
    (Holds s key k c →
      ChunkBecomes (.chMSet vi key val) s k fun c' =>
        c'.key = c.key ∧ c'.width = c.width ∧ c'.layer = c.layer ∧
        ∀ g : Nat, readCell c'.slots g =
          if g = vi.toNat / 64 then
            match c.width with
            | .bits0 => readCell c.slots g
            | .bits8 => BitVec.ofNat 32 (val.toNat % 2 ^ 8)
            | .bits16 => BitVec.ofNat 32 (val.toNat % 2 ^ 16)
            | .bits32 => val
          else readCell c.slots g)

/-- In a new chunk, after `CH.SET` of every index of a list, `CH.LEN` gives the number of distinct indices and `CH.GET`
gives 1 exactly for them. In any chunk, after `CH.FILL` of a voxel its count is 64 and its 64 bitvoxels read 1, and after
`CH.EMPTY` the count is 0 and they read 0 (R238). -/
def Obligations.LayerLaws : Prop :=
  (∀ (s : State) (k : Key) (var : BitVec 2) (S : List VIdx), ∃ t,
    execAll (.wIns var (k.setWidth 32) :: S.map fun i => .chSet i (k.setWidth 32)) s = .next t ∧
    Answers (.chLen (k.setWidth 32)) t [BitVec.ofNat 32 S.toFinset.card] ∧
    ∀ i : VIdx, Answers (.chGet i (k.setWidth 32)) t [bitWord (decide (i ∈ S))]) ∧
  (∀ (s : State) (key : Word) (k : Key) (c : Chunk) (vi : VIdx), Holds s key k c →
    (∃ t, exec (.chFill vi key) s = .next t ∧ Answers (.chCount vi key) t [64#32] ∧
      ∀ j : VIdx, j.toNat / 64 = vi.toNat / 64 → Answers (.chGet j key) t [1#32]) ∧
    (∃ t, exec (.chEmpty vi key) s = .next t ∧ Answers (.chCount vi key) t [0#32] ∧
      ∀ j : VIdx, j.toNat / 64 = vi.toNat / 64 → Answers (.chGet j key) t [0#32]))

/-! ### The chunk store -/

/-- `W.INS` stores an empty chunk of the given width under the key, in place of any chunk there, and changes nothing else;
`ILLEGAL_OPERAND` for a word with bit 31 or 30 set (R252). -/
def Obligations.InsertStoresAnEmptyChunk : Prop :=
  (∀ (var : BitVec 2) (k : Key) (s : State),
    ChunkBecomes (.wIns var (k.setWidth 32)) s k fun c =>
      c.key = k ∧ metaBits c.width = (if var = 0#2 then 0 else 2 ^ (var.toNat + 2)) ∧
      (∀ j : VIdx, layerBit c.layer j = false) ∧ ∀ g : Nat, readCell c.slots g = 0#32) ∧
  (∀ (var : BitVec 2) (key : Word) (s : State), CommandIs 0x60 var.toNat [key] (.wIns var key) ∧
    (2 ^ 30 ≤ key.toNat → Raises (.wIns var key) s .illegalOperand))

/-- `W.GET` gives the width code of a stored chunk and `ABSENT` for none; `W.REM` removes a stored chunk with result 1,
gives 0 for none, and leaves every other chunk; `ILLEGAL_OPERAND` for a word with bit 31 or 30 set (R253, R254). -/
def Obligations.GetAndRemove : Prop :=
  ∀ (key : Word) (s : State), CommandIs 0x61 0 [key] (.wGet key) ∧ CommandIs 0x62 0 [key] (.wRem key) ∧
    (∀ (k : Key) (c : Chunk), Holds s key k c →
      Answers (.wGet key) s
        [match c.width with
          | .bits0 => 0#32
          | .bits8 => 1#32
          | .bits16 => 2#32
          | .bits32 => 3#32] ∧
      ∃ w, exec (.wRem key) s = .next (respond .ok [1#32] { s with world := w }) ∧ worldGet w k = none ∧
        SameElsewhere s.world w k) ∧
    (key.toNat < 2 ^ 30 → worldGet s.world (key.setWidth 30) = none →
      Raises (.wGet key) s .absent ∧ Answers (.wRem key) s [0#32]) ∧
    (2 ^ 30 ≤ key.toNat → Raises (.wGet key) s .illegalOperand ∧ Raises (.wRem key) s .illegalOperand)

/-- The buckets of R30 hold the map of R24 for every bucket count: a new grid refines the empty store, and get, set and
remove on a grid that refines a store are those of the store, so that keys which share a bucket never alias (R30; R31 and
R255, which the spec marks derived; log entry 6). -/
def Obligations.HashGridRefinesTheStore : Prop :=
  (∀ requested : Int, gridWf (gridNew requested) = true ∧ GridRefines (gridNew requested) []) ∧
  (∀ (g : Grid) (w : World) (k : Key) (c : Chunk), gridWf g = true → GridRefines g w →
    gridGet g k = worldGet w k ∧
    gridWf (gridSet g k c) = true ∧ GridRefines (gridSet g k c) (worldPut w k c) ∧
    (gridRemove g k).1 = (worldGet w k).isSome ∧
    gridWf (gridRemove g k).2 = true ∧ GridRefines (gridRemove g k).2 (worldRemove w k))

/-! ### The face solver and the index expander -/

/-- `FACE` of a stored chunk: an unset bitvoxel gets 0; bit `d` of a set one's mask is set exactly when the bitvoxel one
position further in direction `d` is unset, which lies in the chunk itself while the position stays in 0..15 and else at the
wrapped position of the chunk stored under the stepped key, an absent chunk reading as empty; bits 6 and 7 are 0, and only
`FM` changes. `ABSENT` and `ILLEGAL_OPERAND` change nothing (R271 to R274). -/
def Obligations.FaceMasksOfAChunk : Prop :=
  ∀ (key : Word) (s : State), CommandIs 0x70 0 [key] (.face key) ∧
    (∀ (k : Key) (T : Chunk), Holds s key k T → ∃ fm,
      exec (.face key) s = .next (respond .ok [] { s with fm := fm }) ∧
      (∀ i : VIdx, (readCell fm i.toNat).toNat ≤ 63 ∧ (layerBit T.layer i = false → readCell fm i.toNat = 0#8)) ∧
      (∀ (i j : VIdx) (d : Dir) (nk : Key), layerBit T.layer i = true →
        (∀ a : Nat, a < 3 → (axisPos a j : Int) = ((axisPos a i : Int) + dirStep d a) % 16) →
        (∀ a : Nat, a < 3 → (mortonAxis a nk : Int) = ((mortonAxis a k : Int) + dirStep d a) % 1024) →
        (readCell fm i.toNat).getLsbD (dirIndex d) =
          !(if 0 ≤ (axisPos (dirAxis d) i : Int) + dirSign d ∧ (axisPos (dirAxis d) i : Int) + dirSign d ≤ 15 then
              layerBit T.layer j
            else cellSet s.world (nk, j)))) ∧
    FailsWithoutChunk (.face key) key s

/-- The contract of R270 in world space: after `FACE` of a chunk, for every cell of that chunk, bit `d` of its entry is set
exactly when the cell is set and the next cell in direction `d` is not, across voxel and chunk boundaries and around the
torus (R270; the torus is R56, which the spec derives from R209). -/
def Obligations.FaceMasksOfWorldCells : Prop :=
  ∀ (key : Word) (k : Key) (T : Chunk) (s t : State), Holds s key k T → exec (.face key) s = .next t →
    ∀ (x y z : Int) (d : Dir), (worldIndexOfCell x y z).1 = k →
      (fmEntry t (worldIndexOfCell x y z).2.toNat).getLsbD (dirIndex d) =
        (cellSet s.world (worldIndexOfCell x y z) &&
          !cellSet s.world (worldIndexOfCell (x + dirStep d 0) (y + dirStep d 1) (z + dirStep d 2)))

/-- `FM.RD` gives the entry. `GIDX` gives, for each position in ascending order whose entry is not 0, the selected table's
list for that entry with `24*i` added. `GIDXO` does the same when the length given is six times the bits set in `FM` and
else answers `OUT_OF_RANGE` (R276, R279, R281, R282). -/
def Obligations.ReadingTheFaceMaskBuffer : Prop :=
  ∀ (i : BitVec 12) (flip : BitVec 1) (outLen : Word) (s : State),
    CommandIs 0x71 i.toNat [] (.fmRd i) ∧ CommandIs 0x72 flip.toNat [] (.gidx flip) ∧
    CommandIs 0x73 flip.toNat [outLen] (.gidxo flip outLen) ∧
    Answers (.fmRd i) s [BitVec.ofNat 32 (fmEntry s i.toNat).toNat] ∧
    ∃ out : List Word,
      (out = (List.range 4096).foldl (fun acc n =>
        if fmEntry s n = 0#8 then acc
        else acc ++ ((if flip = 0#1 then Config.lut else Config.lutf) ((fmEntry s n).setWidth 6)).map
          fun e => BitVec.ofNat 32 (e.val + 24 * n)) []) ∧
      Answers (.gidx flip) s out ∧
      (outLen.toInt = 6 * (facesOf s.fm : Int) → Answers (.gidxo flip outLen) s out) ∧
      (outLen.toInt ≠ 6 * (facesOf s.fm : Int) → Raises (.gidxo flip outLen) s .outOfRange)

/-- Under any two tables that meet R280 the expansion of a face buffer has six indices for each bit set in it, the same
number under both, and every index is at most 98303 (R279, R283; the premise R280 is marked derived, log entry 5). -/
def Obligations.ExpandedLengthIsSixTimesTheFaces : Prop :=
  ∀ (T T' : IndexTable) (fm : List Host.Cell), TableMeetsR280 T → TableMeetsR280 T' → (∀ e ∈ fm, e.2.toNat ≤ 63) →
    (expand fm T).length = 6 * facesOf fm ∧ (expand fm T').length = (expand fm T).length ∧
    ∀ w ∈ expand fm T, w.toNat ≤ 98303

/-! ### The raycaster -/

/-- `RAY` answers what the walk of R302 to R306 over exact rationals answers: the key and index of its hit, or `ABSENT`;
and that walk has ended within the cell count of R307, which is at most 196606, so that allowing it more changes nothing
(R302 to R308). -/
def Obligations.RayIsTheRationalWalk : Prop :=
  ∀ (sx sy sz ex ey ez : Word) (s : State),
    CommandIs 0x80 0 [sx, sy, sz, ex, ey, ez] (.ray sx sy sz ex ey ez) ∧
    rayCells sx sy sz ex ey ez ≤ 196606 ∧
    ∀ fuel : Nat, rayCells sx sy sz ex ey ez ≤ fuel →
      match qRaycast s.world fuel (wcoordRat sx) (wcoordRat sy) (wcoordRat sz) (wcoordRat ex) (wcoordRat ey)
        (wcoordRat ez) with
      | some (key, index) => Answers (.ray sx sy sz ex ey ez) s [key.setWidth 32, index.setWidth 32]
      | none => Raises (.ray sx sy sz ex ey ez) s .absent

/-- The start cell is examined first, whatever the direction; a segment of zero length hits exactly when its one cell is
set; and whatever `RAY` answers is a set bitvoxel of a stored chunk (R309, which the spec marks derived from R305). -/
def Obligations.RayStartsAtItsFirstCellAndHitsSetBitvoxels : Prop :=
  ∀ (sx sy sz ex ey ez : Word) (s : State),
    (∀ start : Key × VIdx,
      start = worldIndexOfCell (sx.toInt / 65536) (sy.toInt / 65536) (sz.toInt / 65536) →
      (cellSet s.world start = true →
        Answers (.ray sx sy sz ex ey ez) s [start.1.setWidth 32, start.2.setWidth 32]) ∧
      (cellSet s.world start = false → Raises (.ray sx sy sz sx sy sz) s .absent)) ∧
    (∀ (key : Key) (index : VIdx), Answers (.ray sx sy sz ex ey ez) s [key.setWidth 32, index.setWidth 32] →
      ∃ c, worldGet s.world key = some c ∧ layerBit c.layer index = true)

/-- An axis-parallel `RAY`, on any axis and in either direction, answers the first set cell on its line from the start cell
to the terminal cell, and `ABSENT` when none of them is set (R312). -/
def Obligations.AxialRaysHitTheFirstSetCell : Prop :=
  ∀ (a : Fin 3) (u v p q : Word) (s : State),
    (∀ n : Int, Between (u.toInt / 65536) (v.toInt / 65536) n →
      cellSet s.world (axialCell a n (p.toInt / 65536) (q.toInt / 65536)) = true →
      (∀ m : Int, Between (u.toInt / 65536) n m → m ≠ n →
        cellSet s.world (axialCell a m (p.toInt / 65536) (q.toInt / 65536)) = false) →
      Answers (axialRay a u v p q) s
        [(axialCell a n (p.toInt / 65536) (q.toInt / 65536)).1.setWidth 32,
          (axialCell a n (p.toInt / 65536) (q.toInt / 65536)).2.setWidth 32]) ∧
    ((∀ n : Int, Between (u.toInt / 65536) (v.toInt / 65536) n →
      cellSet s.world (axialCell a n (p.toInt / 65536) (q.toInt / 65536)) = false) →
      Raises (axialRay a u v p q) s .absent)
end

