-- ==== Sys2Proof/Laws/BitOps.lean ====
section
/-!
SUPPORT. What the BitOps functions of Machine/BitOps.lean do, bit by bit.
-/

namespace Sys2Proof.Machine

theorem getLsbD_one_shift (p : BitVec 5) {q : Nat} (hq : q < 32) : (1#32 <<< p).getLsbD q = decide (q = p.toNat) := by
  have := p.isLt
  simp only [BitVec.shiftLeft_eq', BitVec.getLsbD_shiftLeft, hq, BitVec.getLsbD_one]
  by_cases h : q = p.toNat <;> simp [h]
  omega

/-- `bitAt` is the bit (R110). -/
theorem bitAt_eq (d : Word) (p : BitVec 5) : bitAt d p = bitWord (d.getLsbD p.toNat) := by
  apply BitVec.eq_of_getLsbD_eq
  intro i hi
  unfold bitAt bitWord
  by_cases h : d.getLsbD p.toNat <;> by_cases h2 : i = 0 <;> simp [h, h2, BitVec.getLsbD_one]

@[simp] theorem one_sub_bitWord (b : Bool) : 1#32 - bitWord b = bitWord (!b) := by cases b <;> rfl

/-- `bitInvAt` is the bit inverted (R111). -/
theorem bitInvAt_eq (d : Word) (p : BitVec 5) : bitInvAt d p = bitWord (!d.getLsbD p.toNat) := by
  rw [bitInvAt, bitAt_eq, one_sub_bitWord]

theorem bitWord_inj {a b : Bool} : bitWord a = bitWord b ↔ a = b := by cases a <;> cases b <;> decide

theorem getLsbD_setBitAt (d : Word) (p : BitVec 5) {q : Nat} (hq : q < 32) :
    (setBitAt d p).getLsbD q = if q = p.toNat then true else d.getLsbD q := by
  simp only [setBitAt, BitVec.getLsbD_or, getLsbD_one_shift p hq]
  by_cases h : q = p.toNat <;> simp [h]

theorem getLsbD_unsetBitAt (d : Word) (p : BitVec 5) {q : Nat} (hq : q < 32) :
    (unsetBitAt d p).getLsbD q = if q = p.toNat then false else d.getLsbD q := by
  simp only [unsetBitAt, BitVec.getLsbD_and, BitVec.getLsbD_not, getLsbD_one_shift p hq, hq]
  by_cases h : q = p.toNat <;> simp [h]

theorem getLsbD_toggleBitAt (d : Word) (p : BitVec 5) {q : Nat} (hq : q < 32) :
    (toggleBitAt d p).getLsbD q = if q = p.toNat then !d.getLsbD q else d.getLsbD q := by
  simp only [toggleBitAt, BitVec.getLsbD_xor, getLsbD_one_shift p hq]
  by_cases h : q = p.toNat <;> simp [h]

/-- `setBit` is `setBitAt` for 1 and `unsetBitAt` for 0 (R115). -/
theorem putBitAt_eq (d : Word) (p : BitVec 5) (b : BitVec 1) :
    putBitAt d p b = if b = 1#1 then setBitAt d p else unsetBitAt d p := by
  rcases (by revert b; decide : b = 0#1 ∨ b = 1#1) with rfl | rfl
  · have e : resultWord (0#1) = 0#32 := rfl
    simp [putBitAt, unsetBitAt, e]
  · have e : resultWord (1#1) = 1#32 := rfl
    apply BitVec.eq_of_getLsbD_eq
    intro q hq
    simp only [if_true, putBitAt, setBitAt, e, BitVec.getLsbD_or, BitVec.getLsbD_and, BitVec.getLsbD_not,
      getLsbD_one_shift p hq, hq]
    by_cases h : q = p.toNat <;> simp [h]

theorem getLsbD_putBitAt (d : Word) (p : BitVec 5) (b : BitVec 1) {q : Nat} (hq : q < 32) :
    (putBitAt d p b).getLsbD q = if q = p.toNat then b == 1#1 else d.getLsbD q := by
  rw [putBitAt_eq]
  rcases (by revert b; decide : b = 0#1 ∨ b = 1#1) with rfl | rfl
  · simpa using getLsbD_unsetBitAt d p hq
  · simpa using getLsbD_setBitAt d p hq

/-- Bits counted from the low end are the set positions below the count. -/
theorem popcountBelow_eq_card {w : Nat} (v : BitVec w) (n : Nat) :
    popcountBelow v n = ((Finset.range n).filter fun q => v.getLsbD q = true).card := by
  induction n with
  | zero => rfl
  | succ n ih =>
    rw [popcountBelow, ih, Finset.range_add_one, Finset.filter_insert]
    split <;> rename_i h
    · rw [Finset.card_insert_of_notMem (by simp), h]; rfl
    · simp [h]

theorem popcountBelow_le {w : Nat} (v : BitVec w) (n : Nat) : popcountBelow v n ≤ n := by
  rw [popcountBelow_eq_card]
  exact (Finset.card_filter_le _ _).trans (by simp)

theorem popcount_le {w : Nat} (v : BitVec w) : popcount v ≤ w := popcountBelow_le v w

@[simp] theorem popcount_zero (w : Nat) : popcount (0#w) = 0 := by
  simp [popcount, popcountBelow_eq_card]

end Sys2Proof.Machine
end

