-- ==== Sys2Proof/Laws/Memory.lean ====
section
/-!
SUPPORT. The laws of the sparse memories: reading after a write, with no premise on the list, and the canonical form, which
every operation keeps.
-/

namespace Sys2Proof.Machine

variable {α : Type} {w : Nat}

/-! ### Reading after a write -/

theorem lookupAt_eraseAt (m : List (Nat × α)) (k j : Nat) :
    lookupAt (eraseAt m k) j = if j = k then none else lookupAt m j := by
  induction m with
  | nil => simp [eraseAt, lookupAt]
  | cons e t ih =>
    obtain ⟨a, v⟩ := e
    simp only [eraseAt]
    split <;> simp only [lookupAt, ih] <;> grind

theorem lookupAt_insertAt (m : List (Nat × α)) (k j : Nat) (v : α) (h : lookupAt m k = none) :
    lookupAt (insertAt m k v) j = if j = k then some v else lookupAt m j := by
  induction m with
  | nil => simp [insertAt, lookupAt, eq_comm]
  | cons e t ih =>
    obtain ⟨a, u⟩ := e
    simp only [lookupAt] at h
    simp only [insertAt]
    split <;> simp only [lookupAt] <;> grind

/-- A store of an entry is seen at its address and nowhere else. -/
theorem lookupAt_setAt (m : List (Nat × α)) (k j : Nat) (v : α) :
    lookupAt (setAt m k v) j = if j = k then some v else lookupAt m j := by
  rw [setAt, lookupAt_insertAt _ _ _ _ (by simp [lookupAt_eraseAt]), lookupAt_eraseAt]
  grind

@[simp] theorem lookupAt_setAt_self (m : List (Nat × α)) (k : Nat) (v : α) : lookupAt (setAt m k v) k = some v := by
  simp [lookupAt_setAt]

@[simp] theorem readCell_nil (a : Nat) : readCell ([] : List (Nat × BitVec w)) a = 0#w := rfl

/-- A write is seen at its address and nowhere else. -/
theorem readCell_writeCell (m : List (Nat × BitVec w)) (a b : Nat) (v : BitVec w) :
    readCell (writeCell m a v) b = if b = a then v else readCell m b := by
  unfold readCell writeCell
  split
  · rw [lookupAt_eraseAt]; grind
  · rw [lookupAt_setAt]; grind

@[simp] theorem readCell_writeCell_self (m : List (Nat × BitVec w)) (a : Nat) (v : BitVec w) :
    readCell (writeCell m a v) a = v := by simp [readCell_writeCell]

theorem readCell_writeCell_ne (m : List (Nat × BitVec w)) {a b : Nat} (v : BitVec w) (h : b ≠ a) :
    readCell (writeCell m a v) b = readCell m b := by simp [readCell_writeCell, h]

/-! ### Membership -/

theorem mem_eraseAt (m : List (Nat × α)) (k : Nat) (e : Nat × α) : e ∈ eraseAt m k ↔ e ∈ m ∧ e.1 ≠ k := by
  induction m with
  | nil => simp [eraseAt]
  | cons d t ih =>
    obtain ⟨a, v⟩ := d
    simp only [eraseAt]
    split
    · rw [ih]; constructor
      · rintro ⟨h, h'⟩; exact ⟨List.mem_cons_of_mem _ h, h'⟩
      · rintro ⟨h, h'⟩
        rcases List.mem_cons.1 h with rfl | h
        · exact absurd ‹_› h'
        · exact ⟨h, h'⟩
    · rw [List.mem_cons, List.mem_cons, ih]; constructor
      · rintro (rfl | ⟨h, h'⟩)
        · exact ⟨.inl rfl, ‹_›⟩
        · exact ⟨.inr h, h'⟩
      · rintro ⟨rfl | h, h'⟩
        · exact .inl rfl
        · exact .inr ⟨h, h'⟩

theorem mem_insertAt (m : List (Nat × α)) (k : Nat) (v : α) (e : Nat × α) : e ∈ insertAt m k v ↔ e = (k, v) ∨ e ∈ m := by
  induction m with
  | nil => simp [insertAt]
  | cons d t ih =>
    obtain ⟨a, u⟩ := d
    simp only [insertAt]
    split
    · simp
    · rw [List.mem_cons, ih, List.mem_cons]; tauto

theorem mem_setAt (m : List (Nat × α)) (k : Nat) (v : α) (e : Nat × α) :
    e ∈ setAt m k v ↔ e = (k, v) ∨ (e ∈ m ∧ e.1 ≠ k) := by rw [setAt, mem_insertAt, mem_eraseAt]

/-! ### Rising addresses -/

theorem keysRising_cons (a : Nat) (v : α) (t : List (Nat × α)) :
    keysRising ((a, v) :: t) = true ↔ (∀ e ∈ t, a < e.1) ∧ keysRising t = true := by
  simp [keysRising]

theorem keysRising_eraseAt (m : List (Nat × α)) (k : Nat) (h : keysRising m = true) : keysRising (eraseAt m k) = true := by
  induction m with
  | nil => rfl
  | cons d t ih =>
    obtain ⟨a, v⟩ := d
    rw [keysRising_cons] at h
    simp only [eraseAt]
    split
    · exact ih h.2
    · rw [keysRising_cons]
      exact ⟨fun e he => h.1 e ((mem_eraseAt t k e).1 he).1, ih h.2⟩

theorem keysRising_insertAt (m : List (Nat × α)) (k : Nat) (v : α) (h : keysRising m = true) (hk : ∀ e ∈ m, e.1 ≠ k) :
    keysRising (insertAt m k v) = true := by
  induction m with
  | nil => simp [insertAt, keysRising]
  | cons d t ih =>
    obtain ⟨a, u⟩ := d
    have ht := (keysRising_cons a u t).1 h
    simp only [insertAt]
    split
    · rw [keysRising_cons]
      refine ⟨fun e he => ?_, h⟩
      rcases List.mem_cons.1 he with rfl | he
      · assumption
      · have := ht.1 e he; omega
    · rw [keysRising_cons]
      refine ⟨fun e he => ?_, ih ht.2 fun e he => hk e (List.mem_cons_of_mem _ he)⟩
      rcases (mem_insertAt t k v e).1 he with rfl | he
      · have : a ≠ k := hk (a, u) List.mem_cons_self
        show a < k
        omega
      · exact ht.1 e he

theorem keysRising_setAt (m : List (Nat × α)) (k : Nat) (v : α) (h : keysRising m = true) :
    keysRising (setAt m k v) = true :=
  keysRising_insertAt _ k v (keysRising_eraseAt m k h) fun e he => ((mem_eraseAt m k e).1 he).2

/-- In a list of rising addresses an entry is what its address looks up. -/
theorem lookupAt_of_mem {m : List (Nat × α)} (h : keysRising m = true) {e : Nat × α} (he : e ∈ m) :
    lookupAt m e.1 = some e.2 := by
  induction m with
  | nil => cases he
  | cons d t ih =>
    obtain ⟨a, v⟩ := d
    have ht := (keysRising_cons a v t).1 h
    rcases List.mem_cons.1 he with rfl | he
    · simp [lookupAt]
    · have : a ≠ e.1 := by have := ht.1 e he; omega
      simp [lookupAt, this, ih ht.2 he]

theorem mem_of_lookupAt {m : List (Nat × α)} {k : Nat} {v : α} (h : lookupAt m k = some v) : (k, v) ∈ m := by
  induction m with
  | nil => cases h
  | cons d t ih =>
    obtain ⟨a, u⟩ := d
    simp only [lookupAt] at h
    split at h
    · obtain rfl := Option.some.inj h; subst_vars; exact List.mem_cons_self
    · exact List.mem_cons_of_mem _ (ih h)

/-! ### The canonical form of a memory -/

theorem cellsWf_iff (n : Nat) (m : List (Nat × BitVec w)) :
    cellsWf n m = true ↔ keysRising m = true ∧ ∀ e ∈ m, e.1 < n ∧ e.2 ≠ unlisted := by
  simp [cellsWf]

@[simp] theorem cellsWf_nil (n : Nat) : cellsWf n ([] : List (Nat × BitVec w)) = true := rfl

/-- A write inside the memory keeps the canonical form. -/
theorem cellsWf_writeCell {n : Nat} {m : List (Nat × BitVec w)} (h : cellsWf n m = true) {a : Nat} (ha : a < n)
    (v : BitVec w) : cellsWf n (writeCell m a v) = true := by
  rw [cellsWf_iff] at h ⊢
  unfold writeCell
  split
  · exact ⟨keysRising_eraseAt m a h.1, fun e he => h.2 e ((mem_eraseAt m a e).1 he).1⟩
  · refine ⟨keysRising_setAt m a v h.1, fun e he => ?_⟩
    rcases (mem_setAt m a v e).1 he with rfl | ⟨he, -⟩
    · exact ⟨ha, ‹_›⟩
    · exact h.2 e he

/-! ### The canonical form of the store -/

theorem worldWf_iff (W : World) : worldWf W = true ↔
    keysRising W = true ∧ ∀ e ∈ W, e.1 < 2 ^ 30 ∧ e.2.key.toNat = e.1 ∧ chunkWf e.2 = true := by
  simp [worldWf, and_assoc]

@[simp] theorem worldWf_nil : worldWf [] = true := rfl

/-- Storing a well-formed chunk under its own key keeps the canonical form. -/
theorem worldWf_worldPut {W : World} (h : worldWf W = true) {k : Key} {c : Chunk} (hk : c.key = k)
    (hc : chunkWf c = true) : worldWf (worldPut W k c) = true := by
  rw [worldWf_iff] at h ⊢
  refine ⟨keysRising_setAt _ _ _ h.1, fun e he => ?_⟩
  rcases (mem_setAt _ _ _ e).1 he with rfl | ⟨he, -⟩
  · exact ⟨k.isLt, by rw [hk], hc⟩
  · exact h.2 e he

/-- Removing a chunk keeps the canonical form. -/
theorem worldWf_worldRemove {W : World} (h : worldWf W = true) (k : Key) : worldWf (worldRemove W k) = true := by
  rw [worldWf_iff] at h ⊢
  exact ⟨keysRising_eraseAt _ _ h.1, fun e he => h.2 e ((mem_eraseAt _ _ e).1 he).1⟩

/-- A chunk that the store holds is well formed and lies under its own key. -/
theorem chunk_of_worldWf {W : World} (h : worldWf W = true) {k : Key} {c : Chunk} (hc : worldGet W k = some c) :
    c.key = k ∧ chunkWf c = true := by
  have := ((worldWf_iff W).1 h).2 _ (mem_of_lookupAt hc)
  exact ⟨BitVec.eq_of_toNat_eq this.2.1, this.2.2⟩

theorem worldGet_worldPut (W : World) (k j : Key) (c : Chunk) :
    worldGet (worldPut W k c) j = if j = k then some c else worldGet W j := by
  simp only [worldGet, worldPut, lookupAt_setAt, ← BitVec.toNat_inj]

theorem worldGet_worldRemove (W : World) (k j : Key) :
    worldGet (worldRemove W k) j = if j = k then none else worldGet W j := by
  simp only [worldGet, worldRemove, lookupAt_eraseAt, ← BitVec.toNat_inj]

end Sys2Proof.Machine
end

