-- ==== Sys2Proof/Laws/BitArray.lean ====
section
/-!
SUPPORT. What the BitArray functions of Machine/BitArray.lean do, in terms of the positions of the array.
-/

namespace Sys2Proof.Machine

/-- Where a position lies, and when there is none (R130). -/
theorem locate_eq (n : Nat) (pos : Int) : locate n pos =
    if 0 ≤ pos ∧ pos / 32 < (n : Int) then some (pos.toNat / 32, BitVec.ofNat 5 (pos.toNat % 32)) else none := by
  have e5 : BitVec.ofNat 5 pos.toNat = BitVec.ofNat 5 (pos.toNat % 32) := by
    apply BitVec.eq_of_toNat_eq
    simp
  unfold locate
  simp only [Nat.shiftRight_eq_div_pow, e5]
  split
  · rw [if_neg (by omega)]
  · split
    · rw [if_pos (by omega)]
    · rw [if_neg (by omega)]

/-- A read of one bit of the array. -/
theorem arrayBitAt_eq (A : BitArray) (pos : Int) : arrayBitAt A pos =
    if 0 ≤ pos ∧ pos / 32 < (A.n : Int) then some (bitWord (arrayBit A pos.toNat)) else none := by
  rw [arrayBitAt, locate_eq]
  by_cases h : 0 ≤ pos ∧ pos / 32 < (A.n : Int)
  · simp only [if_pos h, bitAt_eq, arrayBit]
    congr 3
    simp
  · simp only [if_neg h]

theorem arrayBitInvAt_eq (A : BitArray) (pos : Int) : arrayBitInvAt A pos =
    if 0 ≤ pos ∧ pos / 32 < (A.n : Int) then some (bitWord (!arrayBit A pos.toNat)) else none := by
  rw [arrayBitInvAt, locate_eq]
  by_cases h : 0 ≤ pos ∧ pos / 32 < (A.n : Int)
  · simp only [if_pos h, bitInvAt_eq, arrayBit]
    congr 4
    simp
  · simp only [if_neg h]

/-- Outside the array a mutator fails. -/
theorem arrayModify_none {f : Word → BitVec 5 → Word} {A : BitArray} {pos : Int}
    (h : ¬ (0 ≤ pos ∧ pos / 32 < (A.n : Int))) : arrayModify f A pos = none := by
  rw [arrayModify, locate_eq, if_neg h]

/-- In the array a mutator that acts on one bit of a word as `g` acts on that position of the array as `g`, and on no
other. -/
theorem arrayModify_some {f : Word → BitVec 5 → Word} {g : Bool → Bool}
    (hf : ∀ (d : Word) (p : BitVec 5) {q : Nat}, q < 32 →
      (f d p).getLsbD q = if q = p.toNat then g (d.getLsbD q) else d.getLsbD q)
    {A : BitArray} {pos : Int} (h : 0 ≤ pos ∧ pos / 32 < (A.n : Int)) :
    ∃ A', arrayModify f A pos = some A' ∧ A'.n = A.n ∧
      ∀ q, arrayBit A' q = if q = pos.toNat then g (arrayBit A q) else arrayBit A q := by
  rw [arrayModify, locate_eq, if_pos h]
  refine ⟨_, rfl, rfl, fun q => ?_⟩
  simp only [arrayBit, readCell_writeCell]
  by_cases h1 : q / 32 = pos.toNat / 32
  · have e : (q % 32 = (BitVec.ofNat 5 (pos.toNat % 32)).toNat) ↔ q = pos.toNat := by simp; omega
    rw [if_pos h1, hf _ _ (by omega), ← h1]
    simp only [e]
  · rw [if_neg h1, if_neg (by rintro rfl; exact h1 rfl)]

/-- A mutator keeps the canonical form and the word count. -/
theorem arrayModify_wf {f : Word → BitVec 5 → Word} {A A' : BitArray} {pos : Int} (h : arrayModify f A pos = some A')
    (hA : cellsWf A.n A.words = true) : A'.n = A.n ∧ cellsWf A'.n A'.words = true := by
  by_cases hp : 0 ≤ pos ∧ pos / 32 < (A.n : Int)
  · rw [arrayModify, locate_eq, if_pos hp] at h
    obtain rfl := Option.some.inj h
    exact ⟨rfl, cellsWf_writeCell hA (by omega) _⟩
  · rw [arrayModify_none hp] at h
    cases h

/-- In the canonical form the population count over the listed words is the sum over all words of the array. -/
theorem arrayPopCount_eq_sum {A : BitArray} (h : cellsWf A.n A.words = true) :
    arrayPopCount A = ∑ j ∈ Finset.range A.n, popcount (readCell A.words j) := by
  obtain ⟨n, m⟩ := A
  rw [cellsWf_iff] at h
  obtain ⟨hk, hm⟩ := h
  simp only [arrayPopCount]
  simp only at hk hm
  induction m with
  | nil => simp
  | cons e t ih =>
    obtain ⟨a, v⟩ := e
    have ht := (keysRising_cons a v t).1 hk
    have ha : a < n := (hm _ List.mem_cons_self).1
    have hnone : lookupAt t a = none := by
      cases hl : lookupAt t a with
      | none => rfl
      | some u => exact absurd (ht.1 _ (mem_of_lookupAt hl)) (lt_irrefl a)
    simp only [List.foldr_cons, ha, if_true]
    rw [ih ht.2 fun e he => hm e (List.mem_cons_of_mem _ he), ← Finset.add_sum_erase _ _ (Finset.mem_range.2 ha),
      ← Finset.add_sum_erase (Finset.range n) (fun j => popcount (readCell ((a, v) :: t) j)) (Finset.mem_range.2 ha)]
    have h1 : readCell t a = 0#32 := by rw [readCell, hnone]; rfl
    have h2 : readCell ((a, v) :: t) a = v := by simp [readCell, lookupAt]
    rw [h1, h2, popcount_zero, Nat.zero_add]
    congr 1
    refine Finset.sum_congr rfl fun j hj => ?_
    have : a ≠ j := (Finset.mem_erase.1 hj).1.symm
    simp [readCell, lookupAt, this]

end Sys2Proof.Machine
end

