-- ==== Sys2Proof/Laws/State.lean ====
section
/-!
SUPPORT. One lemma per field for each update of the state and of a chunk that has a name, all true by definition, so that
no later proof unfolds a record update.
-/

namespace Sys2Proof.Machine

variable (st : Status) (rs : List Word) (s : State)

@[simp] theorem respond_world : (respond st rs s).world = s.world := rfl
@[simp] theorem respond_fm : (respond st rs s).fm = s.fm := rfl
@[simp] theorem respond_sba : (respond st rs s).sba = s.sba := rfl
@[simp] theorem respond_cmdPort : (respond st rs s).cmdPort = s.cmdPort := rfl
@[simp] theorem respond_respPort : (respond st rs s).respPort = responseHeader st rs.length :: rs := rfl

@[simp] theorem withFetchWord_world (n w : Nat) : (s.withFetchWord n w).world = s.world := rfl
@[simp] theorem withFetchWord_fm (n w : Nat) : (s.withFetchWord n w).fm = s.fm := rfl
@[simp] theorem withFetchWord_sba (n w : Nat) : (s.withFetchWord n w).sba = s.sba := rfl
@[simp] theorem withFetchWord_respPort (n w : Nat) : (s.withFetchWord n w).respPort = s.respPort := rfl
@[simp] theorem withFetchWord_cmdPort (n w : Nat) :
    (s.withFetchWord n w).cmdPort = Sys2Proof.commandWords (Sys2Proof.wordsOfNat n w) ++ s.cmdPort := rfl

@[simp] theorem reset_world : State.reset.world = [] := rfl
@[simp] theorem reset_fm : State.reset.fm = [] := rfl
@[simp] theorem reset_sba : State.reset.sba = { n := 1, words := [] } := rfl
@[simp] theorem reset_cmdPort : State.reset.cmdPort = [] := rfl
@[simp] theorem reset_respPort : State.reset.respPort = [] := rfl

@[simp] theorem arrayNew_n (n : Nat) : (arrayNew n).n = n := rfl
@[simp] theorem arrayNew_words (n : Nat) : (arrayNew n).words = [] := rfl
@[simp] theorem layerArray_n (ly : Layer) : (layerArray ly).n = Config.layerWords := rfl
@[simp] theorem layerArray_words (ly : Layer) : (layerArray ly).words = ly := rfl

@[simp] theorem metaSet_key (c : Chunk) (vi : VIdx) (v : Word) : (metaSet c vi v).key = c.key := by
  unfold metaSet; split <;> rfl
@[simp] theorem metaSet_width (c : Chunk) (vi : VIdx) (v : Word) : (metaSet c vi v).width = c.width := by
  unfold metaSet; split <;> rfl
@[simp] theorem metaSet_layer (c : Chunk) (vi : VIdx) (v : Word) : (metaSet c vi v).layer = c.layer := by
  unfold metaSet; split <;> rfl

end Sys2Proof.Machine
end

