-- ==== Sys2Proof/Laws/Chunk.lean ====
section
/-!
SUPPORT. What the layer and metadata functions of Machine/Chunk.lean do, in terms of the bitvoxels of a layer, and that
they keep a chunk's canonical form.
-/

namespace Sys2Proof.Machine

/-! ### Bitvoxels -/

theorem layerWordOf_eq (k : VIdx) : layerWordOf k = k.toNat / 32 := Nat.shiftRight_eq_div_pow _ _

theorem layerWordOf_lt (k : VIdx) : layerWordOf k < Config.layerWords := by
  rw [layerWordOf_eq]
  have := k.isLt
  simp only [Config.layerWords]
  omega

theorem layerBitOf_toNat (k : VIdx) : (layerBitOf k).toNat = k.toNat % 32 := by
  simp [layerBitOf, BitVec.extractLsb'_toNat]

theorem groupOf_eq (k : VIdx) : groupOf k = k.toNat / 64 := by
  have := k.isLt
  simp only [groupOf, vKeyOf, BitVec.extractLsb'_toNat, Nat.shiftRight_eq_div_pow]
  omega

theorem groupOf_lt (k : VIdx) : groupOf k < Config.voxels := by
  have := k.isLt
  rw [groupOf_eq]
  simp only [Config.voxels]
  omega

/-- `layerGet` is the bitvoxel (R221). -/
theorem layerGet_eq (ly : Layer) (k : VIdx) : layerGet ly k = bitWord (layerBit ly k) := by
  rw [layerGet, bitAt_eq, layerBitOf_toNat, layerWordOf_eq, layerBit]

/-- A function that acts on one bit of a word as `g` acts on one bitvoxel as `g` and on no other (R221). -/
theorem layerBit_layerModify {f : Word → BitVec 5 → Word} {g : Bool → Bool}
    (hf : ∀ (d : Word) (p : BitVec 5) {q : Nat}, q < 32 →
      (f d p).getLsbD q = if q = p.toNat then g (d.getLsbD q) else d.getLsbD q)
    (ly : Layer) (k j : VIdx) :
    layerBit (layerModify f ly k) j = if j = k then g (layerBit ly j) else layerBit ly j := by
  simp only [layerBit, layerModify, readCell_writeCell, layerWordOf_eq]
  have e : j = k ↔ j.toNat = k.toNat := BitVec.toNat_inj.symm
  by_cases h1 : j.toNat / 32 = k.toNat / 32
  · rw [if_pos h1, hf _ _ (by omega), layerBitOf_toNat, ← h1]
    have e2 : (j.toNat % 32 = k.toNat % 32) ↔ j = k := by rw [e]; omega
    simp only [e2]
  · rw [if_neg h1, if_neg (by rw [e]; rintro h; exact h1 (by rw [h]))]

theorem layerBit_layerSet (ly : Layer) (k j : VIdx) :
    layerBit (layerSet ly k) j = if j = k then true else layerBit ly j :=
  layerBit_layerModify (g := fun _ => true) getLsbD_setBitAt ly k j

theorem layerBit_layerUnset (ly : Layer) (k j : VIdx) :
    layerBit (layerUnset ly k) j = if j = k then false else layerBit ly j :=
  layerBit_layerModify (g := fun _ => false) getLsbD_unsetBitAt ly k j

theorem layerBit_layerToggle (ly : Layer) (k j : VIdx) :
    layerBit (layerToggle ly k) j = if j = k then !layerBit ly j else layerBit ly j :=
  layerBit_layerModify (g := fun b => !b) getLsbD_toggleBitAt ly k j

/-- A group write gives every bitvoxel of the voxel the bit of the written word, and no other changes (R223). -/
theorem layerBit_writeGroup (ly : Layer) (k j : VIdx) (v : Word) :
    layerBit (writeGroup ly (groupOf k) v) j =
      if j.toNat / 64 = k.toNat / 64 then v.getLsbD (j.toNat % 32) else layerBit ly j := by
  simp only [layerBit, writeGroup, readCell_writeCell, groupOf_eq]
  by_cases h : j.toNat / 64 = k.toNat / 64
  · rw [if_pos h]
    by_cases h1 : j.toNat / 32 = 2 * (k.toNat / 64) + 1
    · rw [if_pos h1]
    · rw [if_neg h1, if_pos (by omega)]
  · rw [if_neg h, if_neg (by omega), if_neg (by omega)]

theorem layerBit_layerFill (ly : Layer) (k j : VIdx) :
    layerBit (layerFill ly k) j = if j.toNat / 64 = k.toNat / 64 then true else layerBit ly j := by
  rw [layerFill, layerBit_writeGroup]
  have : (0xFFFFFFFF#32).getLsbD (j.toNat % 32) = true := by
    have h := Nat.mod_lt j.toNat (show 0 < 32 by decide)
    generalize j.toNat % 32 = n at h
    interval_cases n <;> rfl
  rw [this]

theorem layerBit_layerEmpty (ly : Layer) (k j : VIdx) :
    layerBit (layerEmpty ly k) j = if j.toNat / 64 = k.toNat / 64 then false else layerBit ly j := by
  rw [layerEmpty, layerBit_writeGroup]
  simp

/-! ### Counts -/

/-- Two words hold the set positions of 64 consecutive ones. -/
theorem popcount_pair (x y : Word) : popcount x + popcount y =
    ((Finset.range 64).filter fun b => (if b < 32 then x else y).getLsbD (b % 32) = true).card := by
  rw [Finset.card_filter, show (64 : Nat) = 32 + 32 from rfl, Finset.sum_range_add, popcount, popcount,
    popcountBelow_eq_card, popcountBelow_eq_card, Finset.card_filter, Finset.card_filter]
  refine congrArg₂ (· + ·) (Finset.sum_congr rfl fun b hb => ?_) (Finset.sum_congr rfl fun b hb => ?_)
  · have := Finset.mem_range.1 hb
    rw [if_pos this, Nat.mod_eq_of_lt this]
  · have := Finset.mem_range.1 hb
    rw [if_neg (show ¬ 32 + b < 32 by omega), show (32 + b) % 32 = b by omega]

/-- `layerCount` is the number of set bitvoxels of the voxel (R226). -/
theorem layerCount_eq (ly : Layer) (k : VIdx) : layerCount ly k =
    ((Finset.range 64).filter fun b => layerBit ly (BitVec.ofNat 12 (64 * (k.toNat / 64) + b)) = true).card := by
  have hk := k.isLt
  rw [layerCount, popcount_pair, groupOf_eq]
  refine congrArg Finset.card (Finset.filter_congr fun b hb => ?_)
  have hb := Finset.mem_range.1 hb
  have e : (BitVec.ofNat 12 (64 * (k.toNat / 64) + b)).toNat = 64 * (k.toNat / 64) + b := by
    rw [BitVec.toNat_ofNat]
    omega
  rw [layerBit, e, show (64 * (k.toNat / 64) + b) % 32 = b % 32 by omega]
  by_cases h : b < 32
  · rw [if_pos h, show (64 * (k.toNat / 64) + b) / 32 = 2 * (k.toNat / 64) by omega]
  · rw [if_neg h, show (64 * (k.toNat / 64) + b) / 32 = 2 * (k.toNat / 64) + 1 by omega]

/-- The bits of the first `n` words of an array, position by position. -/
theorem sum_popcount_eq_card (A : BitArray) (n : Nat) : ∑ j ∈ Finset.range n, popcount (readCell A.words j) =
    ((Finset.range (32 * n)).filter fun q => arrayBit A q = true).card := by
  rw [Finset.card_filter]
  induction n with
  | zero => rfl
  | succ n ih =>
    rw [Finset.sum_range_succ, ih, show 32 * (n + 1) = 32 * n + 32 by ring, Finset.sum_range_add]
    refine congrArg₂ (· + ·) rfl ?_
    rw [popcount, popcountBelow_eq_card, Finset.card_filter]
    refine Finset.sum_congr rfl fun b hb => ?_
    have := Finset.mem_range.1 hb
    rw [arrayBit, show (32 * n + b) / 32 = n by omega, show (32 * n + b) % 32 = b by omega]

/-- `layerLength` is the number of set bitvoxels of a layer in the canonical form (R226). -/
theorem layerLength_eq {ly : Layer} (h : cellsWf Config.layerWords ly = true) : layerLength ly =
    ((Finset.range 4096).filter fun q => layerBit ly (BitVec.ofNat 12 q) = true).card := by
  rw [layerLength, arrayPopCount_eq_sum h, sum_popcount_eq_card]
  refine congrArg Finset.card (Finset.filter_congr fun q hq => ?_)
  have hq := Finset.mem_range.1 hq
  have e : (BitVec.ofNat 12 q).toNat = q := by
    rw [BitVec.toNat_ofNat]
    simp only [layerArray_n, Config.layerWords] at hq
    omega
  rw [layerBit, e]
  rfl

/-! ### The canonical form -/

theorem chunkWf_iff (c : Chunk) : chunkWf c = true ↔ cellsWf Config.layerWords c.layer = true ∧
    cellsWf Config.voxels c.slots = true ∧ ∀ e ∈ c.slots, e.2.toNat < 2 ^ metaBits c.width := by
  simp [chunkWf, and_assoc]

theorem layerModify_wf {f : Word → BitVec 5 → Word} {ly : Layer} (h : cellsWf Config.layerWords ly = true) (k : VIdx) :
    cellsWf Config.layerWords (layerModify f ly k) = true := cellsWf_writeCell h (layerWordOf_lt k) _

theorem writeGroup_wf {ly : Layer} (h : cellsWf Config.layerWords ly = true) (k : VIdx) (v : Word) :
    cellsWf Config.layerWords (writeGroup ly (groupOf k) v) = true := by
  have := groupOf_lt k
  simp only [Config.voxels, Config.layerWords] at *
  exact cellsWf_writeCell (cellsWf_writeCell h (by omega) v) (by omega) v

/-- A chunk with another layer in the canonical form is in the canonical form. -/
theorem chunkWf_layer {c : Chunk} (h : chunkWf c = true) {ly : Layer} (hl : cellsWf Config.layerWords ly = true) :
    chunkWf { c with layer := ly } = true := by
  rw [chunkWf_iff] at h ⊢
  exact ⟨hl, h.2⟩

theorem metaValue_lt (w : MetaWidth) (val : Word) : (metaValue w val).toNat < 2 ^ metaBits w := by
  rw [metaValue, BitVec.toNat_ofNat]
  exact (Nat.mod_le _ _).trans_lt (Nat.mod_lt _ (by positivity))

/-- A metadata write keeps a chunk's canonical form. -/
theorem chunkWf_metaSet {c : Chunk} (h : chunkWf c = true) (vi : VIdx) (val : Word) : chunkWf (metaSet c vi val) = true := by
  unfold metaSet
  split
  · exact h
  · rw [chunkWf_iff] at h ⊢
    refine ⟨h.1, cellsWf_writeCell h.2.1 (groupOf_lt vi) _, fun e he => ?_⟩
    simp only [writeCell] at he
    split at he
    · exact h.2.2 e ((mem_eraseAt _ _ e).1 he).1
    · rcases (mem_setAt _ _ _ e).1 he with rfl | ⟨he, -⟩
      · exact metaValue_lt _ _
      · exact h.2.2 e he

/-- A new chunk is in the canonical form (45_world_store.md R252). -/
theorem chunkWf_newChunk (k : Key) (w : MetaWidth) : chunkWf (newChunk k w) = true := rfl

/-- The memories after reset are in their canonical form. -/
theorem memory_wf_reset : Memory.wf State.reset = true := rfl

/-- What a metadata write leaves in each slot (R237). -/
theorem readCell_metaSet (c : Chunk) (vi : VIdx) (val : Word) (g : Nat) : readCell (metaSet c vi val).slots g =
    if g = vi.toNat / 64 ∧ c.width ≠ .bits0 then metaValue c.width val else readCell c.slots g := by
  unfold metaSet
  by_cases hw : c.width = .bits0
  · simp [hw]
  · simp [hw, readCell_writeCell, groupOf_eq]

end Sys2Proof.Machine
end

