-- ==== Sys2Proof/Laws/Decode.lean ====
section
/-!
SUPPORT. What the decoder does with a header word, said once: the fields of a header, and the one lemma from which the
decoding of each row follows.
-/

namespace Sys2Proof

/-! ### The fields of a header word -/

@[simp] theorem headerOp_headerWord (op : BitVec 8) (imm : BitVec 16) : headerOp (headerWord op imm) = op := by
  apply BitVec.eq_of_getLsbD_eq; intro i hi
  have h1 : ¬ 24 + i < 16 := by omega
  have h2 : ¬ 24 + i - 16 < 8 := by omega
  have h3 : 24 + i - 16 - 8 = i := by omega
  simp only [headerOp, headerWord, BitVec.getLsbD_extractLsb', BitVec.getLsbD_append, hi, h1, h2, h3]
  simp

@[simp] theorem headerReserved_headerWord (op : BitVec 8) (imm : BitVec 16) : headerReserved (headerWord op imm) = 0 := by
  apply BitVec.eq_of_getLsbD_eq; intro i hi
  have h1 : ¬ 16 + i < 16 := by omega
  have h2 : 16 + i - 16 < 8 := by omega
  simp only [headerReserved, headerWord, BitVec.getLsbD_extractLsb', BitVec.getLsbD_append, hi, h1, h2]
  simp

@[simp] theorem headerImm_headerWord (op : BitVec 8) (imm : BitVec 16) : headerImm (headerWord op imm) = imm := by
  apply BitVec.eq_of_getLsbD_eq; intro i hi
  simp only [headerImm, headerWord, BitVec.getLsbD_extractLsb', BitVec.getLsbD_append, hi, Nat.zero_add]
  simp

/-- A header word is its three fields. -/
theorem headerWord_of_fields (h : Word) (h0 : headerReserved h = 0) : headerWord (headerOp h) (headerImm h) = h := by
  apply BitVec.eq_of_getLsbD_eq; intro i hi
  have hr : ∀ j, j < 8 → h.getLsbD (16 + j) = false := by
    intro j hj
    have := congrArg (fun v : BitVec 8 => v.getLsbD j) h0
    simpa [headerReserved, hj] using this
  simp only [headerWord, headerOp, headerImm, BitVec.getLsbD_append, BitVec.getLsbD_extractLsb']
  by_cases h1 : i < 16
  · simp [h1]
  · by_cases h2 : i - 16 < 8
    · have := hr (i - 16) h2
      have e : 16 + (i - 16) = i := by omega
      rw [e] at this
      simp [h1, h2, this]
    · have e : 24 + (i - 16 - 8) = i := by omega
      have h3 : i - 16 - 8 < 8 := by omega
      simp [h1, h2, h3, e]

/-- The header of an opcode and an `imm16` by place value (30_encoding.md R81). -/
theorem headerWord_eq_ofNat (op : BitVec 8) (imm : BitVec 16) :
    headerWord op imm = BitVec.ofNat 32 (op.toNat * 2 ^ 24 + imm.toNat) := by
  apply BitVec.eq_of_toNat_eq
  have h1 := op.isLt
  have h2 := imm.isLt
  simp only [headerWord, BitVec.toNat_append, BitVec.toNat_ofNat]
  rw [← Nat.shiftLeft_add_eq_or_of_lt h2, Nat.zero_mod, Nat.or_zero]
  simp only [Nat.shiftLeft_eq]
  omega

/-! ### Masks -/

/-- The bits of `imm16` that a format leaves unassigned (30_encoding.md R83). -/
def immMask (f : Format) : BitVec 16 := (formatMask f).setWidth 16

theorem headerWord_and_formatMask (f : Format) (op : BitVec 8) (imm : BitVec 16) :
    headerWord op imm &&& formatMask f = headerWord op (imm &&& immMask f) := by
  have hf : formatMask f = 0xFF#8 ++ 0xFF#8 ++ immMask f := by cases f <;> rfl
  rw [hf]
  apply BitVec.eq_of_getLsbD_eq; intro i hi
  simp only [headerWord, BitVec.getLsbD_and, BitVec.getLsbD_append]
  by_cases h1 : i < 16
  · simp [h1]
  · by_cases h2 : i - 16 < 8
    · simp [h1, h2]
    · have h3 : i - 16 - 8 < 8 := by omega
      have : (0xFF#8).getLsbD (i - 16 - 8) = true := by
        generalize i - 16 - 8 = n at h3; interval_cases n <;> rfl
      simp [h1, h2, this]

theorem headerWord_inj (op op' : BitVec 8) (imm imm' : BitVec 16) :
    headerWord op imm = headerWord op' imm' ↔ op = op' ∧ imm = imm' := by
  constructor
  · intro h
    exact ⟨by simpa using congrArg headerOp h, by simpa using congrArg headerImm h⟩
  · rintro ⟨rfl, rfl⟩; rfl

/-! ### One field at the low end of `imm16` -/

/-- A field of `w` bits leaves the bits above it 0. -/
theorem setWidth_and_high {w : Nat} (p : BitVec w) : p.setWidth 16 &&& (BitVec.allOnes 16 <<< w) = 0#16 := by
  apply BitVec.eq_of_getLsbD_eq; intro i hi
  simp only [BitVec.getLsbD_and, BitVec.getLsbD_setWidth, BitVec.getLsbD_shiftLeft, BitVec.getLsbD_zero,
    Bool.and_eq_false_iff]
  by_cases h : i < w
  · simp [h]
  · simp [BitVec.getLsbD_of_ge p i (by omega)]

/-- The decoder reads the field back. -/
theorem extract_setWidth {w : Nat} (hw : w ≤ 16) (p : BitVec w) : (p.setWidth 16).extractLsb' 0 w = p := by
  apply BitVec.eq_of_getLsbD_eq; intro i hi
  simp only [BitVec.getLsbD_extractLsb', BitVec.getLsbD_setWidth, hi, Nat.zero_add]
  simp only [decide_true, Bool.true_and, Bool.and_eq_right_iff_imp, decide_eq_true_eq]
  omega

/-! ### Rows -/

/-- The row of an opcode has that opcode and stands in the map. -/
theorem rowOf_some {op : BitVec 8} {r : OpRow} (h : rowOf op = some r) : r.op = op ∧ r ∈ opcodeMap := by
  unfold rowOf at h
  exact ⟨by simpa using List.find?_some h, List.mem_of_find?_eq_some h⟩

/-- What the decoder makes of the words of a row: the command when the unassigned bits of `imm16` are 0 and all operand
words are there. -/
theorem decode_row {op : BitVec 8} {r : OpRow} (hr : rowOf op = some r) (imm : BitVec 16) (ws : List Word) :
    decode (headerWord op imm :: ws) =
      if imm &&& immMask r.format ≠ 0#16 then .illegal .reservedField ws
      else if ws.length < formatOperands r.format then .incomplete
      else .command (r.build imm fun j => ws.getD j 0) (ws.drop (formatOperands r.format)) := by
  simp only [decode, headerOp_headerWord, hr, headerReserved_headerWord, headerImm_headerWord, rowMatch,
    headerWord_and_formatMask, (rowOf_some hr).1, ne_eq, headerWord_inj, true_and]
  simp

/-- The decoding of a whole command from its row. -/
theorem decode_command {op : BitVec 8} {r : OpRow} (hr : rowOf op = some r) {imm : BitVec 16}
    (h0 : imm &&& immMask r.format = 0#16) (xs rest : List Word) (hx : xs.length = formatOperands r.format) :
    decode (headerWord op imm :: (xs ++ rest)) = .command (r.build imm fun j => (xs ++ rest).getD j 0) rest := by
  rw [decode_row hr]
  simp [h0, ← hx]

/-- An opcode without a row is illegal. -/
theorem decode_no_row {h : Word} (hr : rowOf (headerOp h) = none) (ws : List Word) :
    decode (h :: ws) = .illegal .unassignedOpcode ws := by
  simp [decode, hr]

end Sys2Proof
end

