-- ==== Sys2Proof/Laws/Operands.lean ====
section
/-!
SUPPORT. What the operand forms of Machine/Operands.lean do, said once: when a word is a key or a VoxelIndex, and what the
preambles of the commands lead to.
-/

namespace Sys2Proof.Machine

/-! ### Operand words -/

/-- A `key` operand is a word below `2^30`, and is that number (30_encoding.md R85). -/
theorem keyOperand_eq (x : Word) : keyOperand x = if x.toNat < 2 ^ 30 then some (x.setWidth 30) else none := by
  unfold keyOperand
  have h : (x.extractLsb' 30 2 = 0#2) ↔ x.toNat < 2 ^ 30 := by
    rw [← BitVec.toNat_inj]
    simp only [BitVec.extractLsb'_toNat, Nat.shiftRight_eq_div_pow, BitVec.toNat_ofNat]
    omega
  have h2 : x.extractLsb' 0 30 = x.setWidth 30 := by
    apply BitVec.eq_of_toNat_eq
    simp [BitVec.extractLsb'_toNat]
  simp [h, h2]

/-- A `vidx` operand is a word of at most 4095, and is that number (30_encoding.md R85). -/
theorem vidxOperand_eq (x : Word) : vidxOperand x = if x.toNat ≤ 4095 then some (x.setWidth 12) else none := by
  unfold vidxOperand
  have h : (x.extractLsb' 12 20 = 0#20) ↔ x.toNat ≤ 4095 := by
    rw [← BitVec.toNat_inj]
    simp only [BitVec.extractLsb'_toNat, Nat.shiftRight_eq_div_pow, BitVec.toNat_ofNat]
    omega
  have h2 : x.extractLsb' 0 12 = x.setWidth 12 := by
    apply BitVec.eq_of_toNat_eq
    simp [BitVec.extractLsb'_toNat]
  simp [h, h2]

/-- A key in a word is below `2^30`. -/
theorem resultWord_key_lt (k : Key) : (k.setWidth 32).toNat < 2 ^ 30 := by
  have := k.isLt
  simp only [BitVec.toNat_setWidth]
  omega

@[simp] theorem setWidth_key (k : Key) : (k.setWidth 32).setWidth 30 = k := by
  apply BitVec.eq_of_toNat_eq
  have := k.isLt
  simp only [BitVec.toNat_setWidth]
  omega

/-- A word below `2^30` is a key in a word. -/
theorem word_of_key {x : Word} (h : x.toNat < 2 ^ 30) : x = (x.setWidth 30).setWidth 32 := by
  apply BitVec.eq_of_toNat_eq
  simp only [BitVec.toNat_setWidth]
  omega

@[simp] theorem keyOperand_key (k : Key) : keyOperand (k.setWidth 32) = some k := by
  rw [keyOperand_eq, if_pos (resultWord_key_lt k), setWidth_key]

/-! ### Preambles -/

theorem withKey_of_lt {x : Word} (h : x.toNat < 2 ^ 30) (s : State) (go : Key → Result) :
    withKey x s go = go (x.setWidth 30) := by
  rw [withKey, keyOperand_eq, if_pos h]

theorem withKey_of_ge {x : Word} (h : 2 ^ 30 ≤ x.toNat) (s : State) (go : Key → Result) :
    withKey x s go = raise .illegalOperand s := by
  rw [withKey, keyOperand_eq, if_neg (by omega)]

@[simp] theorem withKey_key (k : Key) (s : State) (go : Key → Result) : withKey (k.setWidth 32) s go = go k := by
  simp [withKey]

theorem withVIdx_of_le {x : Word} (h : x.toNat ≤ 4095) (s : State) (go : VIdx → Result) :
    withVIdx x s go = go (x.setWidth 12) := by
  rw [withVIdx, vidxOperand_eq, if_pos h]

theorem withVIdx_of_gt {x : Word} (h : 4095 < x.toNat) (s : State) (go : VIdx → Result) :
    withVIdx x s go = raise .illegalOperand s := by
  rw [withVIdx, vidxOperand_eq, if_neg (by omega)]

/-- The lookup preamble goes on with the stored chunk. -/
theorem withChunk_of_holds {s : State} {x : Word} {k : Key} {c : Chunk} (h : Holds s x k c) (go : Key → Chunk → Result) :
    withChunk x s go = go k c := by
  obtain ⟨rfl, hc⟩ := h
  simp [withChunk, hc]

theorem withChunk_of_ge {x : Word} (h : 2 ^ 30 ≤ x.toNat) (s : State) (go : Key → Chunk → Result) :
    withChunk x s go = raise .illegalOperand s := withKey_of_ge h s _

theorem withChunk_of_absent {s : State} {x : Word} (hx : x.toNat < 2 ^ 30) (h : worldGet s.world (x.setWidth 30) = none)
    (go : Key → Chunk → Result) : withChunk x s go = raise .absent s := by
  simp [withChunk, withKey_of_lt hx, h]

/-- All that the lookup preamble can lead to. -/
theorem withChunk_cases (x : Word) (s : State) (go : Key → Chunk → Result) :
    (2 ^ 30 ≤ x.toNat ∧ withChunk x s go = raise .illegalOperand s) ∨
      (x.toNat < 2 ^ 30 ∧ worldGet s.world (x.setWidth 30) = none ∧ withChunk x s go = raise .absent s) ∨
      ∃ k c, Holds s x k c ∧ withChunk x s go = go k c := by
  by_cases hx : x.toNat < 2 ^ 30
  · cases hc : worldGet s.world (x.setWidth 30) with
    | none => exact .inr (.inl ⟨hx, rfl, withChunk_of_absent hx hc go⟩)
    | some c =>
      have h : Holds s x (x.setWidth 30) c := ⟨word_of_key hx, hc⟩
      exact .inr (.inr ⟨_, c, h, withChunk_of_holds h go⟩)
  · exact .inl ⟨by omega, withChunk_of_ge (by omega) s go⟩

/-! ### The two ways to end -/

/-- A response says which status it carries. -/
theorem responseHeader_status {st st' : Status} {m m' : Nat} (h : responseHeader st m = responseHeader st' m') :
    st = st' := by
  have h8 : ∀ (st : Status) (m : Nat), (responseHeader st m).setWidth 8 = statusCode st := by
    intro st m
    apply BitVec.eq_of_getLsbD_eq
    intro i hi
    simp only [responseHeader, BitVec.getLsbD_setWidth, BitVec.getLsbD_append, hi, decide_true, Bool.true_and, if_true]
  have := (h8 st m).symm.trans ((congrArg (·.setWidth 8) h).trans (h8 st' m'))
  revert this
  cases st <;> cases st' <;> simp [statusCode]

/-- Two responses that leave the same state carry the same status. -/
theorem respond_status {st st' : Status} {rs rs' : List Word} {s s' : State} (h : respond st rs s = respond st' rs' s') :
    st = st' :=
  responseHeader_status (List.cons.inj (congrArg State.respPort h)).1

/-- A command whose meaning begins with the chunk lookup fails as R227 says. -/
theorem failsWithoutChunk_of_withChunk {i : Instr} {key : Word} {s : State} {go : Key → Chunk → Result}
    (h : exec i s = withChunk key s go) : FailsWithoutChunk i key s :=
  ⟨fun hk => h.trans (withChunk_of_ge hk s go), fun hk ha => h.trans (withChunk_of_absent hk ha go)⟩

end Sys2Proof.Machine
end

