-- ==== Sys2Proof/Laws/Exec.lean ====
section
/-!
SUPPORT. Everything a command can do, said once: it answers `OK`, with as many result words as its row has, or it raises a
status other than `OK`.
-/

namespace Sys2Proof.Machine

/-- The result is `OK` with `m` result words (with any number for `none`), the command port left alone, or a status other
than `OK` with the state left alone. -/
def RepliesOrRaises (m : Option Nat) (s : State) (r : Result) : Prop :=
  (∃ s' results, r = reply s' results ∧ s'.cmdPort = s.cmdPort ∧ ∀ n, m = some n → results.length = n) ∨
    ∃ st, st ≠ Status.ok ∧ r = raise st s

theorem repliesOrRaises_reply {m : Option Nat} {s s' : State} {results : List Word} (hc : s'.cmdPort = s.cmdPort)
    (hm : ∀ n, m = some n → results.length = n) : RepliesOrRaises m s (reply s' results) := .inl ⟨s', results, rfl, hc, hm⟩

theorem repliesOrRaises_one (s : State) (w : Word) : RepliesOrRaises (some 1) s (reply s [w]) :=
  repliesOrRaises_reply rfl fun _ h => Option.some.inj h

theorem repliesOrRaises_raise {m : Option Nat} {s : State} {st : Status} (h : st ≠ .ok) :
    RepliesOrRaises m s (raise st s) := .inr ⟨st, h, rfl⟩

theorem repliesOrRaises_ite {m : Option Nat} {s : State} {P : Prop} [Decidable P] {a b : Result}
    (ha : RepliesOrRaises m s a) (hb : RepliesOrRaises m s b) : RepliesOrRaises m s (if P then a else b) := by
  split
  · exact ha
  · exact hb

theorem repliesOrRaises_withKey {m : Option Nat} (x : Word) {s : State} {go : Key → Result}
    (h : ∀ k, RepliesOrRaises m s (go k)) : RepliesOrRaises m s (withKey x s go) := by
  unfold withKey; split
  · exact repliesOrRaises_raise (by decide)
  · exact h _

theorem repliesOrRaises_withVIdx {m : Option Nat} (x : Word) {s : State} {go : VIdx → Result}
    (h : ∀ k, RepliesOrRaises m s (go k)) : RepliesOrRaises m s (withVIdx x s go) := by
  unfold withVIdx; split
  · exact repliesOrRaises_raise (by decide)
  · exact h _

theorem repliesOrRaises_withChunk {m : Option Nat} (x : Word) {s : State} {go : Key → Chunk → Result}
    (h : ∀ k c, RepliesOrRaises m s (go k c)) : RepliesOrRaises m s (withChunk x s go) := by
  refine repliesOrRaises_withKey x fun k => ?_
  split
  · exact repliesOrRaises_raise (by decide)
  · exact h _ _

theorem repliesOrRaises_keyUnary (f : Key → Word) (x : Word) (s : State) :
    RepliesOrRaises (some 1) s (keyUnary f x s) := repliesOrRaises_withKey x fun _ => repliesOrRaises_one s _

theorem repliesOrRaises_keyBinary (f : Key → Key → Word) (x y : Word) (s : State) :
    RepliesOrRaises (some 1) s (keyBinary f x y s) :=
  repliesOrRaises_withKey x fun _ => repliesOrRaises_withKey y fun _ => repliesOrRaises_one s _

theorem repliesOrRaises_sbaRead (r : Option Word) (s : State) : RepliesOrRaises (some 1) s (sbaRead r s) := by
  cases r
  · exact repliesOrRaises_raise (by decide)
  · exact repliesOrRaises_one s _

theorem repliesOrRaises_sbaUpdate (r : Option BitArray) (s : State) : RepliesOrRaises (some 0) s (sbaUpdate r s) := by
  cases r
  · exact repliesOrRaises_raise (by decide)
  · exact repliesOrRaises_reply rfl fun _ h => Option.some.inj h

/-- What a command can do (30_encoding.md R82, 60_exceptions.md R337). -/
theorem exec_cases (i : Instr) (s : State) : RepliesOrRaises (resultCount i) s (exec i s) := by
  cases i with
  | bitat p d => exact repliesOrRaises_one s _
  | bitinv p d => exact repliesOrRaises_one s _
  | setb p d => exact repliesOrRaises_one s _
  | clrb p d => exact repliesOrRaises_one s _
  | tglb p d => exact repliesOrRaises_one s _
  | putb p b d => exact repliesOrRaises_one s _
  | maskn n => exact repliesOrRaises_ite (repliesOrRaises_raise (by decide)) (repliesOrRaises_one s _)
  | popc d => exact repliesOrRaises_one s _
  | ispow2 v => exact repliesOrRaises_one s _
  | flat3 b x y z => exact repliesOrRaises_ite (repliesOrRaises_raise (by decide)) (repliesOrRaises_one s _)
  | flat2 b x y => exact repliesOrRaises_ite (repliesOrRaises_raise (by decide)) (repliesOrRaises_one s _)
  | baNew n => exact repliesOrRaises_ite (repliesOrRaises_raise (by decide)) (repliesOrRaises_reply rfl fun _ h => Option.some.inj h)
  | baGet pos => exact repliesOrRaises_sbaRead _ s
  | baGetInv pos => exact repliesOrRaises_sbaRead _ s
  | baSet pos => exact repliesOrRaises_sbaUpdate _ s
  | baPut b pos => exact repliesOrRaises_sbaUpdate _ s
  | baClr pos => exact repliesOrRaises_sbaUpdate _ s
  | baTgl pos => exact repliesOrRaises_sbaUpdate _ s
  | baPopc => exact repliesOrRaises_one s _
  | baRdw idx => exact repliesOrRaises_ite (repliesOrRaises_raise (by decide)) (repliesOrRaises_one s _)
  | baWrw idx val => exact repliesOrRaises_ite (repliesOrRaises_raise (by decide)) (repliesOrRaises_reply rfl fun _ h => Option.some.inj h)
  | lkFrom x y z => exact repliesOrRaises_one s _
  | lkX k => exact repliesOrRaises_keyUnary _ _ s
  | lkY k => exact repliesOrRaises_keyUnary _ _ s
  | lkZ k => exact repliesOrRaises_keyUnary _ _ s
  | lkIncX k => exact repliesOrRaises_keyUnary _ _ s
  | lkDecX k => exact repliesOrRaises_keyUnary _ _ s
  | lkIncY k => exact repliesOrRaises_keyUnary _ _ s
  | lkDecY k => exact repliesOrRaises_keyUnary _ _ s
  | lkIncZ k => exact repliesOrRaises_keyUnary _ _ s
  | lkDecZ k => exact repliesOrRaises_keyUnary _ _ s
  | lkAdd a b => exact repliesOrRaises_keyBinary _ _ _ s
  | lkSub a b => exact repliesOrRaises_keyBinary _ _ _ s
  | lkCmp a b => exact repliesOrRaises_keyBinary _ _ _ s
  | mkFrom x y z => exact repliesOrRaises_one s _
  | mkX k => exact repliesOrRaises_keyUnary _ _ s
  | mkY k => exact repliesOrRaises_keyUnary _ _ s
  | mkZ k => exact repliesOrRaises_keyUnary _ _ s
  | mkIncX k => exact repliesOrRaises_keyUnary _ _ s
  | mkDecX k => exact repliesOrRaises_keyUnary _ _ s
  | mkIncY k => exact repliesOrRaises_keyUnary _ _ s
  | mkDecY k => exact repliesOrRaises_keyUnary _ _ s
  | mkIncZ k => exact repliesOrRaises_keyUnary _ _ s
  | mkDecZ k => exact repliesOrRaises_keyUnary _ _ s
  | mkAdd a b => exact repliesOrRaises_keyBinary _ _ _ s
  | mkSub a b => exact repliesOrRaises_keyBinary _ _ _ s
  | mkCmp a b => exact repliesOrRaises_keyBinary _ _ _ s
  | viFrom vx vy vz bX bY bZ => exact repliesOrRaises_one s _
  | viVKey k => exact repliesOrRaises_withVIdx _ fun _ => repliesOrRaises_one s _
  | viBKey k => exact repliesOrRaises_withVIdx _ fun _ => repliesOrRaises_one s _
  | viGetC sel k => exact repliesOrRaises_ite (repliesOrRaises_raise (by decide)) (repliesOrRaises_withVIdx _ fun _ => repliesOrRaises_one s _)
  | viCmp a b => exact repliesOrRaises_withVIdx _ fun _ => repliesOrRaises_withVIdx _ fun _ => repliesOrRaises_one s _
  | wiFrom wx wy wz => exact repliesOrRaises_reply rfl fun _ h => Option.some.inj h
  | chSet vi key => exact repliesOrRaises_withChunk _ fun _ _ => repliesOrRaises_reply rfl fun _ h => Option.some.inj h
  | chUnset vi key => exact repliesOrRaises_withChunk _ fun _ _ => repliesOrRaises_reply rfl fun _ h => Option.some.inj h
  | chTgl vi key => exact repliesOrRaises_withChunk _ fun _ _ => repliesOrRaises_reply rfl fun _ h => Option.some.inj h
  | chGet vi key => exact repliesOrRaises_withChunk _ fun _ _ => repliesOrRaises_reply rfl fun _ h => Option.some.inj h
  | chFill vi key => exact repliesOrRaises_withChunk _ fun _ _ => repliesOrRaises_reply rfl fun _ h => Option.some.inj h
  | chEmpty vi key => exact repliesOrRaises_withChunk _ fun _ _ => repliesOrRaises_reply rfl fun _ h => Option.some.inj h
  | chCount vi key => exact repliesOrRaises_withChunk _ fun _ _ => repliesOrRaises_reply rfl fun _ h => Option.some.inj h
  | chLen key => exact repliesOrRaises_withChunk _ fun _ _ => repliesOrRaises_reply rfl fun _ h => Option.some.inj h
  | chMGet vi key => exact repliesOrRaises_withChunk _ fun _ _ => repliesOrRaises_reply rfl fun _ h => Option.some.inj h
  | chMSet vi key val => exact repliesOrRaises_withChunk _ fun _ _ => repliesOrRaises_reply rfl fun _ h => Option.some.inj h
  | wIns var key => exact repliesOrRaises_withKey _ fun _ => repliesOrRaises_reply rfl fun _ h => Option.some.inj h
  | wGet key => exact repliesOrRaises_withChunk _ fun _ _ => repliesOrRaises_reply rfl fun _ h => Option.some.inj h
  | face key => exact repliesOrRaises_withChunk _ fun _ _ => repliesOrRaises_reply rfl fun _ h => Option.some.inj h
  | fmRd i => exact repliesOrRaises_one s _
  | gidx flip => exact repliesOrRaises_reply rfl nofun
  | gidxo flip outLen => exact repliesOrRaises_ite (repliesOrRaises_raise (by decide)) (repliesOrRaises_reply rfl nofun)
  | wRem key =>
    refine repliesOrRaises_withKey key fun k => ?_
    split <;> exact repliesOrRaises_reply rfl fun _ h => Option.some.inj h
  | ray sx sy sz ex ey ez =>
    unfold exec execRay; dsimp only
    split
    · exact repliesOrRaises_raise (by decide)
    · exact repliesOrRaises_reply rfl fun _ h => Option.some.inj h

end Sys2Proof.Machine
end

