-- ==== Sys2Proof/Laws/FaceSolver.lean ====
section
/-!
SUPPORT. What `FACE` leaves in each entry of `FM`, that the buffer it writes is in the canonical form with entries in
0..63, and the length of an expansion.
-/

namespace Sys2Proof.Machine

/-! ### A memory built address by address -/

/-- The memory whose cell at each address below `n` is given by `f`, `none` for an unlisted one. -/
theorem lookupAt_filterMap_range {α : Type} (f : Nat → Option α) (n j : Nat) :
    lookupAt ((List.range n).filterMap fun i => (f i).map fun v => (i, v)) j = if j < n then f j else none := by
  induction n with
  | zero => rfl
  | succ n ih =>
    have happ : ∀ (l l' : List (Nat × α)), lookupAt (l ++ l') j = (lookupAt l j).or (lookupAt l' j) := by
      intro l l'
      induction l with
      | nil => simp [lookupAt]
      | cons e t iht =>
        obtain ⟨a, v⟩ := e
        simp only [List.cons_append, lookupAt, iht]
        split <;> simp
    rw [List.range_succ, List.filterMap_append, happ, ih]
    by_cases h : j < n
    · rw [if_pos h, if_pos (by omega)]
      cases hn : f n with
      | none => simp [lookupAt, hn]
      | some v => simp [lookupAt, hn, show n ≠ j by omega]
    · rw [if_neg h]
      cases hn : f n with
      | none =>
        simp only [Option.none_or, List.filterMap_cons, hn, Option.map_none, List.filterMap_nil, lookupAt]
        split
        · rw [show j = n by omega, hn]
        · rfl
      | some v =>
        simp only [Option.none_or, List.filterMap_cons, hn, Option.map_some, List.filterMap_nil, lookupAt]
        by_cases hj : n = j
        · rw [if_pos hj, if_pos (by omega), ← hj, hn]
        · rw [if_neg hj, if_neg (by omega)]

theorem keysRising_filterMap_range {α : Type} (f : Nat → Option α) (n : Nat) :
    keysRising ((List.range n).filterMap fun i => (f i).map fun v => (i, v)) = true := by
  have key : ∀ l : List Nat, l.Pairwise (· < ·) →
      keysRising (l.filterMap fun i => (f i).map fun v => (i, v)) = true := by
    intro l hl
    induction l with
    | nil => rfl
    | cons a t ih =>
      have ht := List.pairwise_cons.1 hl
      cases ha : f a with
      | none => simpa [ha] using ih ht.2
      | some v =>
        simp only [List.filterMap_cons, ha, Option.map_some]
        rw [keysRising_cons]
        refine ⟨fun e he => ?_, ih ht.2⟩
        obtain ⟨i, hi, hie⟩ := List.mem_filterMap.1 he
        obtain ⟨u, -, rfl⟩ := Option.map_eq_some_iff.1 hie
        exact ht.1 i hi
  exact key _ List.pairwise_lt_range

/-! ### The buffer -/

/-- The mask that `FACE` gives a position: 0 for an unset bitvoxel (R274). -/
def maskAt (ly : Layer) (nb : Dir → Layer) (i : VIdx) : Mask6 := if layerBit ly i then faceMask ly nb i else 0#6

theorem faceEntry_eq (ly : Layer) (nb : Dir → Layer) (i : Nat) : faceEntry ly nb i =
    (if maskAt ly nb (BitVec.ofNat 12 i) = 0#6 then none
      else some ((maskAt ly nb (BitVec.ofNat 12 i)).setWidth 8)).map fun v => (i, v) := by
  unfold faceEntry maskAt
  have h : layerGet ly (BitVec.ofNat 12 i) = 0#32 ↔ layerBit ly (BitVec.ofNat 12 i) = false := by
    rw [layerGet_eq]
    exact bitWord_inj (b := false)
  by_cases h1 : layerBit ly (BitVec.ofNat 12 i) = true
  · rw [if_neg (by rw [h, h1]; decide), if_pos h1]
    split <;> rfl
  · rw [if_pos (h.2 (by simpa using h1)), if_neg h1, if_pos rfl]
    rfl

/-- A layer with no set bit has no set bitvoxel. -/
theorem layerBit_of_length_zero {ly : Layer} (hw : cellsWf Config.layerWords ly = true) (h : layerLength ly = 0)
    (i : VIdx) : layerBit ly i = false := by
  rw [layerLength, arrayPopCount_eq_sum hw, Finset.sum_eq_zero_iff] at h
  have hi := i.isLt
  have h0 := h (i.toNat / 32) (Finset.mem_range.2 (by simp [Config.layerWords]; omega))
  rw [popcount, popcountBelow_eq_card, Finset.card_eq_zero, Finset.filter_eq_empty_iff] at h0
  simpa [layerBit] using h0 (Finset.mem_range.2 (Nat.mod_lt _ (by decide)))

/-- What `FACE` leaves at every address: in the canonical form of the layer, the mask of the position, and 0 elsewhere. -/
theorem readCell_faceBuffer {ly : Layer} (hw : cellsWf Config.layerWords ly = true) (nb : Dir → Layer) (i : VIdx) :
    readCell (faceBuffer ly nb) i.toNat = (maskAt ly nb i).setWidth 8 := by
  have hi := i.isLt
  have e : BitVec.ofNat 12 i.toNat = i := BitVec.eq_of_toNat_eq (by simp)
  unfold faceBuffer
  split
  · simp [maskAt, layerBit_of_length_zero hw ‹_› i]
  · rw [readCell, show faceEntry ly nb = fun i => (if maskAt ly nb (BitVec.ofNat 12 i) = 0#6 then none
        else some ((maskAt ly nb (BitVec.ofNat 12 i)).setWidth 8)).map fun v => (i, v) from
      funext (faceEntry_eq ly nb), lookupAt_filterMap_range]
    rw [if_pos (by simp [Config.bitvoxels]; omega), e]
    by_cases h0 : maskAt ly nb i = 0#6
    · rw [if_pos h0, h0]; rfl
    · rw [if_neg h0]; rfl

/-- The buffer that `FACE` writes is in the canonical form. -/
theorem cellsWf_faceBuffer (ly : Layer) (nb : Dir → Layer) : cellsWf Config.bitvoxels (faceBuffer ly nb) = true := by
  unfold faceBuffer
  split
  · rfl
  · rw [cellsWf_iff, show faceEntry ly nb = fun i => (if maskAt ly nb (BitVec.ofNat 12 i) = 0#6 then none
        else some ((maskAt ly nb (BitVec.ofNat 12 i)).setWidth 8)).map fun v => (i, v) from
      funext (faceEntry_eq ly nb)]
    refine ⟨keysRising_filterMap_range _ _, fun e he => ?_⟩
    obtain ⟨i, hi, hie⟩ := List.mem_filterMap.1 he
    obtain ⟨v, hv, rfl⟩ := Option.map_eq_some_iff.1 hie
    refine ⟨List.mem_range.1 hi, ?_⟩
    split at hv
    · cases hv
    · rename_i h0
      obtain rfl := Option.some.inj hv
      intro hu
      refine h0 (BitVec.eq_of_toNat_eq ?_)
      have := congrArg BitVec.toNat hu
      have hlt := (maskAt ly nb (BitVec.ofNat 12 i)).isLt
      simp only [unlisted, BitVec.toNat_setWidth, BitVec.toNat_ofNat] at this ⊢
      omega

/-- Every entry that `FACE` writes is a 6-bit mask (10_state.md R32). -/
theorem faceBuffer_le (ly : Layer) (nb : Dir → Layer) : ∀ e ∈ faceBuffer ly nb, e.2.toNat ≤ 63 := by
  intro e he
  unfold faceBuffer at he
  split at he
  · cases he
  · obtain ⟨i, -, hie⟩ := List.mem_filterMap.1 he
    rw [faceEntry_eq] at hie
    obtain ⟨v, hv, rfl⟩ := Option.map_eq_some_iff.1 hie
    split at hv
    · cases hv
    · obtain rfl := Option.some.inj hv
      have := (maskAt ly nb (BitVec.ofNat 12 i)).isLt
      simp only [BitVec.toNat_setWidth]
      omega

/-! ### Masks -/

/-- The state of the neighbour in direction `d`, in `NB[d]` or in the chunk itself (R273). -/
theorem neighbourState_eq (ly : Layer) (nb : Dir → Layer) (i : VIdx) (d : Dir) : neighbourState ly nb i d =
    bitWord (layerBit (if (neighbourIndex i d).1 then nb d else ly) (neighbourIndex i d).2) := by
  unfold neighbourState
  rcases neighbourIndex i d with ⟨_ | _, j⟩ <;> simp [layerGet_eq]

/-- Bit `d` of a mask is set exactly when the neighbour in direction `d` is unset (R274, step 4c). -/
theorem getLsbD_faceMask (ly : Layer) (nb : Dir → Layer) (i : VIdx) (d : Dir) :
    (faceMask ly nb i).getLsbD (dirIndex d) =
      !layerBit (if (neighbourIndex i d).1 then nb d else ly) (neighbourIndex i d).2 := by
  simp only [faceMask, allDirs, List.foldl_cons, List.foldl_nil, neighbourState_eq]
  generalize hb : (fun e : Dir => layerBit (if (neighbourIndex i e).1 then nb e else ly) (neighbourIndex i e).2) = b
  have hb' : ∀ e : Dir, layerBit (if (neighbourIndex i e).1 then nb e else ly) (neighbourIndex i e).2 = b e :=
    fun e => congrFun hb e
  simp only [hb']
  cases h0 : b .xPos <;> cases h1 : b .xNeg <;> cases h2 : b .yPos <;> cases h3 : b .yNeg <;> cases h4 : b .zPos <;>
    cases h5 : b .zNeg <;> cases d <;> simp only [h0, h1, h2, h3, h4, h5] <;> decide

end Sys2Proof.Machine
end

