-- ==== Sys2Proof/Laws/HashGrid.lean ====
section
/-!
SUPPORT. One bucket of the HashGrid, said once: what a lookup finds after the bucket's set and remove (10_state.md R30).
-/

namespace Sys2Proof.Machine

theorem bucketDistinct_cons (a : Nat) (u : Chunk) (t : List (Nat × Chunk)) :
    bucketDistinct ((a, u) :: t) = true ↔ (∀ e ∈ t, e.1 ≠ a) ∧ bucketDistinct t = true := by
  simp [bucketDistinct]

theorem lookupAt_bucketSet (t : List (Nat × Chunk)) (k j : Nat) (c : Chunk) :
    lookupAt (bucketSet t k c) j = if j = k then some c else lookupAt t j := by
  induction t with
  | nil => simp only [bucketSet, lookupAt, eq_comm]
  | cons e t ih =>
    obtain ⟨a, u⟩ := e
    simp only [bucketSet]
    by_cases h : a = k
    · subst h
      simp only [if_true, lookupAt, eq_comm (a := j)]
      split <;> simp_all
    · rw [if_neg h]; simp only [lookupAt, ih]
      split <;> simp_all

theorem lookupAt_eq_none {t : List (Nat × Chunk)} {k : Nat} (h : ∀ e ∈ t, e.1 ≠ k) : lookupAt t k = none := by
  induction t with
  | nil => rfl
  | cons e t ih =>
    obtain ⟨a, u⟩ := e
    simp only [lookupAt, h (a, u) (by simp), if_false]
    exact ih fun e he => h e (List.mem_cons_of_mem _ he)

theorem lookupAt_bucketRemove {t : List (Nat × Chunk)} (h : bucketDistinct t = true) (k j : Nat) :
    lookupAt (bucketRemove t k) j = if j = k then none else lookupAt t j := by
  induction t with
  | nil => simp [bucketRemove, lookupAt]
  | cons e t ih =>
    obtain ⟨a, u⟩ := e
    rw [bucketDistinct_cons] at h
    simp only [bucketRemove]
    by_cases hk : a = k
    · subst hk
      simp only [if_true, lookupAt, eq_comm (a := j)]
      split
      · rename_i hj; subst hj; exact lookupAt_eq_none h.1
      · rfl
    · rw [if_neg hk]; simp only [lookupAt, ih h.2]
      split <;> simp_all

end Sys2Proof.Machine
end

