-- ==== Sys2Proof/Laws/PerInstr.lean ====
section
/-!
SUPPORT. The family `RowOfEncoding`, per instruction: the encoding of a command is a header of its row's opcode, with every
bit that the row's format leaves unassigned 0, and as many operand words as the format has (30_encoding.md R83, R86). With
`decode_command` this is what the decoder needs to know of a command's words.
-/

namespace Sys2Proof.Laws.RowOfEncoding

/-- The words of the command are those of one row. -/
def Statement (i : Instr) : Prop :=
  ∃ op r imm xs, rowOf op = some r ∧ encode i = headerWord op imm :: xs ∧ imm &&& immMask r.format = 0#16 ∧
    xs.length = formatOperands r.format

/-- A format whose one field is the low `w` bits of `imm16`. -/
theorem low_field {w : Nat} (p : BitVec w) (m : BitVec 16) (hm : m = BitVec.allOnes 16 <<< w) :
    p.setWidth 16 &&& m = 0#16 := by
  subst hm; exact setWidth_and_high p

/-- The statement from a row, its mask and its operand count. -/
theorem of_row {i : Instr} {op : BitVec 8} {r : OpRow} {imm : BitVec 16} {xs : List Word} (hr : rowOf op = some r)
    (he : encode i = headerWord op imm :: xs) (hm : imm &&& immMask r.format = 0#16)
    (hx : xs.length = formatOperands r.format) : Statement i := ⟨op, r, imm, xs, hr, he, hm, hx⟩

theorem bitat (p : BitVec 5) (d : Word) : Statement (.bitat p d) :=
  of_row (op := 0x01#8) rfl rfl (low_field _ _ rfl) rfl
theorem bitinv (p : BitVec 5) (d : Word) : Statement (.bitinv p d) :=
  of_row (op := 0x02#8) rfl rfl (low_field _ _ rfl) rfl
theorem setb (p : BitVec 5) (d : Word) : Statement (.setb p d) :=
  of_row (op := 0x03#8) rfl rfl (low_field _ _ rfl) rfl
theorem clrb (p : BitVec 5) (d : Word) : Statement (.clrb p d) :=
  of_row (op := 0x04#8) rfl rfl (low_field _ _ rfl) rfl
theorem tglb (p : BitVec 5) (d : Word) : Statement (.tglb p d) :=
  of_row (op := 0x05#8) rfl rfl (low_field _ _ rfl) rfl
theorem putb (p : BitVec 5) (b : BitVec 1) (d : Word) : Statement (.putb p b d) :=
  of_row (op := 0x06#8) rfl rfl (by revert p b; decide) rfl
theorem maskn (n : BitVec 6) : Statement (.maskn n) :=
  of_row (op := 0x07#8) rfl rfl (low_field _ _ rfl) rfl
theorem popc (d : Word) : Statement (.popc d) :=
  of_row (op := 0x08#8) rfl rfl rfl rfl
theorem ispow2 (v : Word) : Statement (.ispow2 v) :=
  of_row (op := 0x09#8) rfl rfl rfl rfl
theorem flat3 (b : BitVec 4) (x y z : Word) : Statement (.flat3 b x y z) :=
  of_row (op := 0x0A#8) rfl rfl (low_field _ _ rfl) rfl
theorem flat2 (b : BitVec 4) (x y : Word) : Statement (.flat2 b x y) :=
  of_row (op := 0x0B#8) rfl rfl (low_field _ _ rfl) rfl
theorem baNew (n : Word) : Statement (.baNew n) :=
  of_row (op := 0x10#8) rfl rfl rfl rfl
theorem baGet (pos : Word) : Statement (.baGet pos) :=
  of_row (op := 0x11#8) rfl rfl rfl rfl
theorem baGetInv (pos : Word) : Statement (.baGetInv pos) :=
  of_row (op := 0x12#8) rfl rfl rfl rfl
theorem baSet (pos : Word) : Statement (.baSet pos) :=
  of_row (op := 0x13#8) rfl rfl rfl rfl
theorem baPut (b : BitVec 1) (pos : Word) : Statement (.baPut b pos) :=
  of_row (op := 0x14#8) rfl rfl (low_field _ _ rfl) rfl
theorem baClr (pos : Word) : Statement (.baClr pos) :=
  of_row (op := 0x15#8) rfl rfl rfl rfl
theorem baTgl (pos : Word) : Statement (.baTgl pos) :=
  of_row (op := 0x16#8) rfl rfl rfl rfl
theorem baPopc : Statement .baPopc :=
  of_row (op := 0x17#8) rfl rfl rfl rfl
theorem baRdw (idx : Word) : Statement (.baRdw idx) :=
  of_row (op := 0x18#8) rfl rfl rfl rfl
theorem baWrw (idx val : Word) : Statement (.baWrw idx val) :=
  of_row (op := 0x19#8) rfl rfl rfl rfl
theorem lkFrom (x y z : Word) : Statement (.lkFrom x y z) :=
  of_row (op := 0x20#8) rfl rfl rfl rfl
theorem lkX (k : Word) : Statement (.lkX k) :=
  of_row (op := 0x21#8) rfl rfl rfl rfl
theorem lkY (k : Word) : Statement (.lkY k) :=
  of_row (op := 0x22#8) rfl rfl rfl rfl
theorem lkZ (k : Word) : Statement (.lkZ k) :=
  of_row (op := 0x23#8) rfl rfl rfl rfl
theorem lkIncX (k : Word) : Statement (.lkIncX k) :=
  of_row (op := 0x24#8) rfl rfl rfl rfl
theorem lkDecX (k : Word) : Statement (.lkDecX k) :=
  of_row (op := 0x25#8) rfl rfl rfl rfl
theorem lkIncY (k : Word) : Statement (.lkIncY k) :=
  of_row (op := 0x26#8) rfl rfl rfl rfl
theorem lkDecY (k : Word) : Statement (.lkDecY k) :=
  of_row (op := 0x27#8) rfl rfl rfl rfl
theorem lkIncZ (k : Word) : Statement (.lkIncZ k) :=
  of_row (op := 0x28#8) rfl rfl rfl rfl
theorem lkDecZ (k : Word) : Statement (.lkDecZ k) :=
  of_row (op := 0x29#8) rfl rfl rfl rfl
theorem lkAdd (a b : Word) : Statement (.lkAdd a b) :=
  of_row (op := 0x2A#8) rfl rfl rfl rfl
theorem lkSub (a b : Word) : Statement (.lkSub a b) :=
  of_row (op := 0x2B#8) rfl rfl rfl rfl
theorem lkCmp (a b : Word) : Statement (.lkCmp a b) :=
  of_row (op := 0x2C#8) rfl rfl rfl rfl
theorem mkFrom (x y z : Word) : Statement (.mkFrom x y z) :=
  of_row (op := 0x30#8) rfl rfl rfl rfl
theorem mkX (k : Word) : Statement (.mkX k) :=
  of_row (op := 0x31#8) rfl rfl rfl rfl
theorem mkY (k : Word) : Statement (.mkY k) :=
  of_row (op := 0x32#8) rfl rfl rfl rfl
theorem mkZ (k : Word) : Statement (.mkZ k) :=
  of_row (op := 0x33#8) rfl rfl rfl rfl
theorem mkIncX (k : Word) : Statement (.mkIncX k) :=
  of_row (op := 0x34#8) rfl rfl rfl rfl
theorem mkDecX (k : Word) : Statement (.mkDecX k) :=
  of_row (op := 0x35#8) rfl rfl rfl rfl
theorem mkIncY (k : Word) : Statement (.mkIncY k) :=
  of_row (op := 0x36#8) rfl rfl rfl rfl
theorem mkDecY (k : Word) : Statement (.mkDecY k) :=
  of_row (op := 0x37#8) rfl rfl rfl rfl
theorem mkIncZ (k : Word) : Statement (.mkIncZ k) :=
  of_row (op := 0x38#8) rfl rfl rfl rfl
theorem mkDecZ (k : Word) : Statement (.mkDecZ k) :=
  of_row (op := 0x39#8) rfl rfl rfl rfl
theorem mkAdd (a b : Word) : Statement (.mkAdd a b) :=
  of_row (op := 0x3A#8) rfl rfl rfl rfl
theorem mkSub (a b : Word) : Statement (.mkSub a b) :=
  of_row (op := 0x3B#8) rfl rfl rfl rfl
theorem mkCmp (a b : Word) : Statement (.mkCmp a b) :=
  of_row (op := 0x3C#8) rfl rfl rfl rfl
theorem viFrom (vx vy vz bX bY bZ : Word) : Statement (.viFrom vx vy vz bX bY bZ) :=
  of_row (op := 0x40#8) rfl rfl rfl rfl
theorem viVKey (k : Word) : Statement (.viVKey k) :=
  of_row (op := 0x41#8) rfl rfl rfl rfl
theorem viBKey (k : Word) : Statement (.viBKey k) :=
  of_row (op := 0x42#8) rfl rfl rfl rfl
theorem viGetC (sel : BitVec 3) (k : Word) : Statement (.viGetC sel k) :=
  of_row (op := 0x43#8) rfl rfl (low_field _ _ rfl) rfl
theorem viCmp (a b : Word) : Statement (.viCmp a b) :=
  of_row (op := 0x44#8) rfl rfl rfl rfl
theorem wiFrom (wx wy wz : Word) : Statement (.wiFrom wx wy wz) :=
  of_row (op := 0x48#8) rfl rfl rfl rfl
theorem chSet (vi : BitVec 12) (key : Word) : Statement (.chSet vi key) :=
  of_row (op := 0x50#8) rfl rfl (low_field _ _ rfl) rfl
theorem chUnset (vi : BitVec 12) (key : Word) : Statement (.chUnset vi key) :=
  of_row (op := 0x51#8) rfl rfl (low_field _ _ rfl) rfl
theorem chTgl (vi : BitVec 12) (key : Word) : Statement (.chTgl vi key) :=
  of_row (op := 0x52#8) rfl rfl (low_field _ _ rfl) rfl
theorem chGet (vi : BitVec 12) (key : Word) : Statement (.chGet vi key) :=
  of_row (op := 0x53#8) rfl rfl (low_field _ _ rfl) rfl
theorem chFill (vi : BitVec 12) (key : Word) : Statement (.chFill vi key) :=
  of_row (op := 0x54#8) rfl rfl (low_field _ _ rfl) rfl
theorem chEmpty (vi : BitVec 12) (key : Word) : Statement (.chEmpty vi key) :=
  of_row (op := 0x55#8) rfl rfl (low_field _ _ rfl) rfl
theorem chCount (vi : BitVec 12) (key : Word) : Statement (.chCount vi key) :=
  of_row (op := 0x56#8) rfl rfl (low_field _ _ rfl) rfl
theorem chLen (key : Word) : Statement (.chLen key) :=
  of_row (op := 0x57#8) rfl rfl rfl rfl
theorem chMGet (vi : BitVec 12) (key : Word) : Statement (.chMGet vi key) :=
  of_row (op := 0x58#8) rfl rfl (low_field _ _ rfl) rfl
theorem chMSet (vi : BitVec 12) (key val : Word) : Statement (.chMSet vi key val) :=
  of_row (op := 0x59#8) rfl rfl (low_field _ _ rfl) rfl
theorem wIns (var : BitVec 2) (key : Word) : Statement (.wIns var key) :=
  of_row (op := 0x60#8) rfl rfl (low_field _ _ rfl) rfl
theorem wGet (key : Word) : Statement (.wGet key) :=
  of_row (op := 0x61#8) rfl rfl rfl rfl
theorem wRem (key : Word) : Statement (.wRem key) :=
  of_row (op := 0x62#8) rfl rfl rfl rfl
theorem face (key : Word) : Statement (.face key) :=
  of_row (op := 0x70#8) rfl rfl rfl rfl
theorem fmRd (i : BitVec 12) : Statement (.fmRd i) :=
  of_row (op := 0x71#8) rfl rfl (low_field _ _ rfl) rfl
theorem gidx (flip : BitVec 1) : Statement (.gidx flip) :=
  of_row (op := 0x72#8) rfl rfl (low_field _ _ rfl) rfl
theorem gidxo (flip : BitVec 1) (outLen : Word) : Statement (.gidxo flip outLen) :=
  of_row (op := 0x73#8) rfl rfl (low_field _ _ rfl) rfl
theorem ray (sx sy sz ex ey ez : Word) : Statement (.ray sx sy sz ex ey ez) :=
  of_row (op := 0x80#8) rfl rfl rfl rfl

end Sys2Proof.Laws.RowOfEncoding
end

