-- ==== Sys2Proof/Laws/Raycaster.lean ====
section
/-!
SUPPORT. The raycaster's parts, said once: what a step on an axis changes, when a cell is set, and one turn of the loop of
47_raycaster.md R305, in both forms.
-/

namespace Sys2Proof.Machine

variable (a : RayAxis) (q : QAxis)

@[simp] theorem rayStep_cell : (rayStep a).cell = a.cell + a.dir := rfl
@[simp] theorem rayStep_last : (rayStep a).last = a.last := rfl
@[simp] theorem rayStep_dir : (rayStep a).dir = a.dir := rfl
@[simp] theorem rayStep_num : (rayStep a).num = a.num + 65536 := rfl
@[simp] theorem rayStep_len : (rayStep a).len = a.len := rfl
@[simp] theorem qStep_cell : (qStep q).cell = q.cell + q.dir := rfl
@[simp] theorem qStep_last : (qStep q).last = q.last := rfl
@[simp] theorem qStep_dir : (qStep q).dir = q.dir := rfl
@[simp] theorem qStep_dt : (qStep q).dt = q.dt := rfl
@[simp] theorem qStep_t : (qStep q).t = infAdd q.t q.dt := rfl

/-- A cell is set exactly when a chunk is stored under its key and its bitvoxel is set (R305). -/
theorem cellSet_iff (w : World) (wi : Key × VIdx) :
    cellSet w wi = true ↔ ∃ c, worldGet w wi.1 = some c ∧ layerBit c.layer wi.2 = true := by
  unfold cellSet
  cases worldGet w wi.1 with
  | none => simp
  | some c =>
    simp only [layerGet_eq, decide_eq_true_eq, Option.some.injEq, exists_eq_left', bitWord]
    cases layerBit c.layer wi.2 <;> simp

/-- The loop on a set cell. -/
theorem rayWalk_hit {w : World} {x y z : RayAxis} (h : cellSet w (worldIndexOfCell x.cell y.cell z.cell) = true)
    (fuel : Nat) : rayWalk w (fuel + 1) x y z = some (worldIndexOfCell x.cell y.cell z.cell) := by
  simp [rayWalk, h]

/-- Whatever the loop answers is set. -/
theorem cellSet_of_rayWalk {w : World} {fuel : Nat} {x y z : RayAxis} {wi : Key × VIdx}
    (h : rayWalk w fuel x y z = some wi) : cellSet w wi = true := by
  induction fuel generalizing x y z with
  | zero => cases h
  | succ n ih =>
    simp only [rayWalk] at h
    split at h
    · rename_i hs; rw [← Option.some.inj h]; exact hs
    · split at h
      · split at h
        · cases h
        · exact ih h
      · split at h
        · split at h
          · cases h
          · exact ih h
        · split at h
          · cases h
          · exact ih h

end Sys2Proof.Machine
end

