-- ==== Sys2Proof/Laws/SpatialKeys.lean ====
section
/-!
SUPPORT. The fields of a key and of a VoxelIndex, said once: wrapping an integer to an axis or a component, packing, and
reading back.
-/

namespace Sys2Proof.Machine

/-! ### Wrapping (42_spatial_keys.md R156, R170; 43_voxel_index.md R202) -/

theorem toNat_axisOf (v : Int) : ((axisOf v).toNat : Int) = v % 1024 := by
  simp only [axisOf, BitVec.toNat_ofInt]
  omega

theorem toNat_compOf (v : Int) : ((compOf v).toNat : Int) = v % 4 := by
  simp only [compOf, BitVec.toNat_ofInt]
  omega

theorem axisOf_eq_iff (v w : Int) : axisOf v = axisOf w ↔ v % 1024 = w % 1024 := by
  rw [← BitVec.toNat_inj, ← toNat_axisOf, ← toNat_axisOf]; omega

theorem compOf_eq_iff (v w : Int) : compOf v = compOf w ↔ v % 4 = w % 4 := by
  rw [← BitVec.toNat_inj, ← toNat_compOf, ← toNat_compOf]; omega

/-! ### Linear keys (42_spatial_keys.md R151) -/

theorem toNat_linearKey (t : Triple) :
    (linearKey t).toNat = t.x.toNat * 2 ^ 20 + t.y.toNat * 2 ^ 10 + t.z.toNat := by
  have hy := t.y.isLt
  have hz := t.z.isLt
  simp only [linearKey, BitVec.toNat_append]
  rw [← Nat.shiftLeft_add_eq_or_of_lt hz, ← Nat.shiftLeft_add_eq_or_of_lt hy]
  simp only [Nat.shiftLeft_eq]
  omega

theorem linearTriple_x (k : Key) : (linearTriple k).x.toNat = k.toNat / 2 ^ 20 := by
  have := k.isLt
  simp only [linearTriple, BitVec.extractLsb'_toNat, Nat.shiftRight_eq_div_pow]
  omega

theorem linearTriple_y (k : Key) : (linearTriple k).y.toNat = k.toNat / 2 ^ 10 % 2 ^ 10 := by
  simp only [linearTriple, BitVec.extractLsb'_toNat, Nat.shiftRight_eq_div_pow]

theorem linearTriple_z (k : Key) : (linearTriple k).z.toNat = k.toNat % 2 ^ 10 := by
  simp only [linearTriple, BitVec.extractLsb'_toNat, Nat.shiftRight_zero]

/-! ### Morton keys (42_spatial_keys.md R152) -/

/-- Axis `a` of a triple. -/
def tripleAxis (t : Triple) (a : Nat) : Axis :=
  match a with
  | 0 => t.x
  | 1 => t.y
  | _ => t.z

theorem getLsbD_mortonKey (t : Triple) (i : Nat) :
    (mortonKey t).getLsbD i = (decide (i < 30) && (tripleAxis t (i % 3)).getLsbD (i / 3)) := by
  by_cases h : i < 30
  · have h3 : i % 3 < 3 := Nat.mod_lt _ (by decide)
    rw [mortonKey, BitVec.getLsbD_ofFnLE]
    simp only [h, dite_true, decide_true, Bool.true_and]
    generalize i % 3 = r at h3
    interval_cases r <;> rfl
  · simp [h, BitVec.getLsbD_of_ge _ _ (Nat.le_of_not_lt h)]

theorem mortonAxis_mortonKey (t : Triple) {a : Nat} (ha : a < 3) : mortonAxis a (mortonKey t) = (tripleAxis t a).toNat := by
  rw [mortonAxis]
  congr 1
  apply BitVec.eq_of_getLsbD_eq; intro j hj
  have h1 : 3 * j + a < 30 := by omega
  have h2 : (3 * j + a) % 3 = a := by omega
  have h3 : (3 * j + a) / 3 = j := by omega
  rw [BitVec.getLsbD_ofFnLE, dif_pos hj, getLsbD_mortonKey, h2, h3]
  simp [h1]

/-! ### VoxelIndex (43_voxel_index.md R200, R201, R205) -/

theorem toNat_componentOf (sel : Nat) (k : VIdx) : (componentOf sel k).toNat = k.toNat / 2 ^ (10 - 2 * sel) % 4 := by
  simp only [componentOf, BitVec.extractLsb'_toNat, Nat.shiftRight_eq_div_pow]

theorem toNat_voxelIndex (vx vy vz bX bY bZ : Comp) : (voxelIndex vx vy vz bX bY bZ).toNat =
    vx.toNat * 2 ^ 10 + vy.toNat * 2 ^ 8 + vz.toNat * 2 ^ 6 + bX.toNat * 2 ^ 4 + bY.toNat * 2 ^ 2 + bZ.toNat := by
  have h1 := vy.isLt
  have h2 := vz.isLt
  have h3 := bX.isLt
  have h4 := bY.isLt
  have h5 := bZ.isLt
  simp only [voxelIndex, BitVec.toNat_append]
  rw [← Nat.shiftLeft_add_eq_or_of_lt h5, ← Nat.shiftLeft_add_eq_or_of_lt h4, ← Nat.shiftLeft_add_eq_or_of_lt h3,
    ← Nat.shiftLeft_add_eq_or_of_lt h2, ← Nat.shiftLeft_add_eq_or_of_lt h1]
  simp only [Nat.shiftLeft_eq]
  omega

theorem componentOf_voxelIndex (vx vy vz bX bY bZ : Comp) :
    componentOf 0 (voxelIndex vx vy vz bX bY bZ) = vx ∧ componentOf 1 (voxelIndex vx vy vz bX bY bZ) = vy ∧
    componentOf 2 (voxelIndex vx vy vz bX bY bZ) = vz ∧ componentOf 3 (voxelIndex vx vy vz bX bY bZ) = bX ∧
    componentOf 4 (voxelIndex vx vy vz bX bY bZ) = bY ∧ componentOf 5 (voxelIndex vx vy vz bX bY bZ) = bZ := by
  have h0 := vx.isLt
  have h1 := vy.isLt
  have h2 := vz.isLt
  have h3 := bX.isLt
  have h4 := bY.isLt
  have h5 := bZ.isLt
  refine ⟨?_, ?_, ?_, ?_, ?_, ?_⟩ <;> apply BitVec.eq_of_toNat_eq <;>
    rw [toNat_componentOf, toNat_voxelIndex] <;> omega

end Sys2Proof.Machine
end

