-- ==== Sys2Proof/Tests/Slice0.lean ====
section
/-!
SUPPORT. The model's own tests. Decoding: every constructor from a word written out from 30_encoding.md R81, R83 and R86.
Meanings: the examples that the command's own rule gives. Witnesses: for every obligation with hypotheses or with clauses,
operands and a state that meet them, at the boundary values.
-/

namespace Sys2Proof.Tests

open Sys2Proof Sys2Proof.Machine

/-! ### Helpers -/

/-- The words of the response a command ends with. -/
def answerOf (i : Instr) (s : State) : List Word :=
  match exec i s with
  | .next t => t.respPort
  | _ => []

/-- The result is a next state. -/
def isNext : Result → Bool
  | .next _ => true
  | _ => false

/-- The state a command leaves. -/
def stateAfter (i : Instr) (s : State) : State :=
  match exec i s with
  | .next t => t
  | _ => s

/-- A block whose store holds one chunk, of key `k`, with the given layer words and slots. -/
def oneChunk (k : Key) (w : MetaWidth) (ly : Layer) (slots : List (Nat × Word)) : State :=
  { State.reset with world := [(k.toNat, { key := k, width := w, layer := ly, slots := slots })] }

/-- One 0-bit chunk at key 0 that holds bitvoxel 0x555 alone (word 42, bit 21). -/
def star : State := oneChunk 0#30 .bits0 [(42, 0x00200000#32)] []

/-- The chunk of `star`. -/
def starChunk : Chunk := { key := 0#30, width := .bits0, layer := [(42, 0x00200000#32)], slots := [] }

/-- A block whose scratch array has four words, of which the given ones are listed. -/
def fourWords (words : List (Nat × Word)) : State := { State.reset with sba := { n := 4, words := words } }

/-! ### Well-formedness: an ill-formed term for each check -/

theorem test_wellFormed_maskn : ¬ (Instr.maskn 33#6).WellFormed := by decide
theorem test_wellFormed_flat3 : ¬ (Instr.flat3 11#4 0 0 0).WellFormed := by decide
theorem test_wellFormed_flat2 : ¬ (Instr.flat2 11#4 0 0).WellFormed := by decide
theorem test_wellFormed_key_unary : ∀ f ∈ [Instr.lkX, .lkY, .lkZ, .lkIncX, .lkDecX, .lkIncY, .lkDecY, .lkIncZ, .lkDecZ,
    .mkX, .mkY, .mkZ, .mkIncX, .mkDecX, .mkIncY, .mkDecY, .mkIncZ, .mkDecZ, .chLen, .wGet, .wRem, .face],
    ¬ (f 0x40000000#32).WellFormed := by decide
theorem test_wellFormed_key_binary : ∀ f ∈ [Instr.lkAdd, .lkSub, .lkCmp, .mkAdd, .mkSub, .mkCmp],
    ¬ (f 0x80000000#32 0).WellFormed ∧ ¬ (f 0 0x80000000#32).WellFormed := by decide
theorem test_wellFormed_key_chunk : ∀ f ∈ [Instr.chSet, .chUnset, .chTgl, .chGet, .chFill, .chEmpty, .chCount, .chMGet],
    ¬ (f 0 0x40000000#32).WellFormed := by decide
theorem test_wellFormed_key_chMSet : ¬ (Instr.chMSet 0 0x40000000#32 0).WellFormed := by decide
theorem test_wellFormed_key_wIns : ¬ (Instr.wIns 3#2 0x40000000#32).WellFormed := by decide
theorem test_wellFormed_vidx : ¬ (Instr.viVKey 4096#32).WellFormed ∧ ¬ (Instr.viBKey 4096#32).WellFormed ∧
    ¬ (Instr.viGetC 0 4096#32).WellFormed := by decide
theorem test_wellFormed_viCmp : ¬ (Instr.viCmp 4096#32 0).WellFormed ∧ ¬ (Instr.viCmp 0 4096#32).WellFormed := by decide
theorem test_wellFormed_sel : ¬ (Instr.viGetC 6#3 0).WellFormed := by decide
/-- The check of `BA.NEW` refuses no word at the spec's default capacity, the largest signed word (R131). -/
theorem test_wellFormed_baNew : (Instr.baNew 0x7FFFFFFF#32).WellFormed ∧ (Config.sbaMaxWords : Int) = 0x7FFFFFFF := by decide

/-! ### Decoding: a word of every constructor, written out from the encoding tables -/

theorem test_decode_bitat : decode [0x01000015#32, 0x01234567#32] =
    .command (.bitat 0x15#5 0x01234567#32) [] := by decide
theorem test_decode_bitinv : decode [0x02000015#32, 0x01234567#32] =
    .command (.bitinv 0x15#5 0x01234567#32) [] := by decide
theorem test_decode_setb : decode [0x03000015#32, 0x01234567#32] =
    .command (.setb 0x15#5 0x01234567#32) [] := by decide
theorem test_decode_clrb : decode [0x04000015#32, 0x01234567#32] =
    .command (.clrb 0x15#5 0x01234567#32) [] := by decide
theorem test_decode_tglb : decode [0x05000015#32, 0x01234567#32] =
    .command (.tglb 0x15#5 0x01234567#32) [] := by decide
theorem test_decode_putb : decode [0x06000115#32, 0x01234567#32] =
    .command (.putb 0x15#5 1#1 0x01234567#32) [] := by decide
theorem test_decode_maskn : decode [0x0700002A#32] = .command (.maskn 0x2a#6) [] := by decide
theorem test_decode_popc : decode [0x08000000#32, 0x01234567#32] = .command (.popc 0x01234567#32) [] := by decide
theorem test_decode_ispow2 : decode [0x09000000#32, 0x01234567#32] = .command (.ispow2 0x01234567#32) [] := by decide
theorem test_decode_flat3 : decode [0x0A000009#32, 0x01234567#32, 0x89ABCDEF#32, 0x00000003#32] =
    .command (.flat3 9#4 0x01234567#32 0x89ABCDEF#32 0x00000003#32) [] := by decide
theorem test_decode_flat2 : decode [0x0B000009#32, 0x01234567#32, 0x89ABCDEF#32] =
    .command (.flat2 9#4 0x01234567#32 0x89ABCDEF#32) [] := by decide
theorem test_decode_baNew : decode [0x10000000#32, 0x01234567#32] = .command (.baNew 0x01234567#32) [] := by decide
theorem test_decode_baGet : decode [0x11000000#32, 0x01234567#32] = .command (.baGet 0x01234567#32) [] := by decide
theorem test_decode_baGetInv : decode [0x12000000#32, 0x01234567#32] =
    .command (.baGetInv 0x01234567#32) [] := by decide
theorem test_decode_baSet : decode [0x13000000#32, 0x01234567#32] = .command (.baSet 0x01234567#32) [] := by decide
theorem test_decode_baPut : decode [0x14000001#32, 0x01234567#32] =
    .command (.baPut 1#1 0x01234567#32) [] := by decide
theorem test_decode_baClr : decode [0x15000000#32, 0x01234567#32] = .command (.baClr 0x01234567#32) [] := by decide
theorem test_decode_baTgl : decode [0x16000000#32, 0x01234567#32] = .command (.baTgl 0x01234567#32) [] := by decide
theorem test_decode_baPopc : decode [0x17000000#32] = .command (.baPopc) [] := by decide
theorem test_decode_baRdw : decode [0x18000000#32, 0x01234567#32] = .command (.baRdw 0x01234567#32) [] := by decide
theorem test_decode_baWrw : decode [0x19000000#32, 0x01234567#32, 0x89ABCDEF#32] =
    .command (.baWrw 0x01234567#32 0x89ABCDEF#32) [] := by decide
theorem test_decode_lkFrom : decode [0x20000000#32, 0x01234567#32, 0x89ABCDEF#32, 0x00000003#32] =
    .command (.lkFrom 0x01234567#32 0x89ABCDEF#32 0x00000003#32) [] := by decide
theorem test_decode_lkX : decode [0x21000000#32, 0x01234567#32] = .command (.lkX 0x01234567#32) [] := by decide
theorem test_decode_lkY : decode [0x22000000#32, 0x01234567#32] = .command (.lkY 0x01234567#32) [] := by decide
theorem test_decode_lkZ : decode [0x23000000#32, 0x01234567#32] = .command (.lkZ 0x01234567#32) [] := by decide
theorem test_decode_lkIncX : decode [0x24000000#32, 0x01234567#32] = .command (.lkIncX 0x01234567#32) [] := by decide
theorem test_decode_lkDecX : decode [0x25000000#32, 0x01234567#32] = .command (.lkDecX 0x01234567#32) [] := by decide
theorem test_decode_lkIncY : decode [0x26000000#32, 0x01234567#32] = .command (.lkIncY 0x01234567#32) [] := by decide
theorem test_decode_lkDecY : decode [0x27000000#32, 0x01234567#32] = .command (.lkDecY 0x01234567#32) [] := by decide
theorem test_decode_lkIncZ : decode [0x28000000#32, 0x01234567#32] = .command (.lkIncZ 0x01234567#32) [] := by decide
theorem test_decode_lkDecZ : decode [0x29000000#32, 0x01234567#32] = .command (.lkDecZ 0x01234567#32) [] := by decide
theorem test_decode_lkAdd : decode [0x2A000000#32, 0x01234567#32, 0x89ABCDEF#32] =
    .command (.lkAdd 0x01234567#32 0x89ABCDEF#32) [] := by decide
theorem test_decode_lkSub : decode [0x2B000000#32, 0x01234567#32, 0x89ABCDEF#32] =
    .command (.lkSub 0x01234567#32 0x89ABCDEF#32) [] := by decide
theorem test_decode_lkCmp : decode [0x2C000000#32, 0x01234567#32, 0x89ABCDEF#32] =
    .command (.lkCmp 0x01234567#32 0x89ABCDEF#32) [] := by decide
theorem test_decode_mkFrom : decode [0x30000000#32, 0x01234567#32, 0x89ABCDEF#32, 0x00000003#32] =
    .command (.mkFrom 0x01234567#32 0x89ABCDEF#32 0x00000003#32) [] := by decide
theorem test_decode_mkX : decode [0x31000000#32, 0x01234567#32] = .command (.mkX 0x01234567#32) [] := by decide
theorem test_decode_mkY : decode [0x32000000#32, 0x01234567#32] = .command (.mkY 0x01234567#32) [] := by decide
theorem test_decode_mkZ : decode [0x33000000#32, 0x01234567#32] = .command (.mkZ 0x01234567#32) [] := by decide
theorem test_decode_mkIncX : decode [0x34000000#32, 0x01234567#32] = .command (.mkIncX 0x01234567#32) [] := by decide
theorem test_decode_mkDecX : decode [0x35000000#32, 0x01234567#32] = .command (.mkDecX 0x01234567#32) [] := by decide
theorem test_decode_mkIncY : decode [0x36000000#32, 0x01234567#32] = .command (.mkIncY 0x01234567#32) [] := by decide
theorem test_decode_mkDecY : decode [0x37000000#32, 0x01234567#32] = .command (.mkDecY 0x01234567#32) [] := by decide
theorem test_decode_mkIncZ : decode [0x38000000#32, 0x01234567#32] = .command (.mkIncZ 0x01234567#32) [] := by decide
theorem test_decode_mkDecZ : decode [0x39000000#32, 0x01234567#32] = .command (.mkDecZ 0x01234567#32) [] := by decide
theorem test_decode_mkAdd : decode [0x3A000000#32, 0x01234567#32, 0x89ABCDEF#32] =
    .command (.mkAdd 0x01234567#32 0x89ABCDEF#32) [] := by decide
theorem test_decode_mkSub : decode [0x3B000000#32, 0x01234567#32, 0x89ABCDEF#32] =
    .command (.mkSub 0x01234567#32 0x89ABCDEF#32) [] := by decide
theorem test_decode_mkCmp : decode [0x3C000000#32, 0x01234567#32, 0x89ABCDEF#32] =
    .command (.mkCmp 0x01234567#32 0x89ABCDEF#32) [] := by decide
theorem test_decode_viFrom : decode [0x40000000#32, 0x01234567#32, 0x89ABCDEF#32, 0x00000003#32, 0xFFFFFFFF#32, 0x7FFFFFFF#32, 0x80000000#32] =
    .command (.viFrom 0x01234567#32 0x89ABCDEF#32 0x00000003#32 0xFFFFFFFF#32 0x7FFFFFFF#32 0x80000000#32) [] := by decide
theorem test_decode_viVKey : decode [0x41000000#32, 0x01234567#32] = .command (.viVKey 0x01234567#32) [] := by decide
theorem test_decode_viBKey : decode [0x42000000#32, 0x01234567#32] = .command (.viBKey 0x01234567#32) [] := by decide
theorem test_decode_viGetC : decode [0x43000005#32, 0x01234567#32] =
    .command (.viGetC 5#3 0x01234567#32) [] := by decide
theorem test_decode_viCmp : decode [0x44000000#32, 0x01234567#32, 0x89ABCDEF#32] =
    .command (.viCmp 0x01234567#32 0x89ABCDEF#32) [] := by decide
theorem test_decode_wiFrom : decode [0x48000000#32, 0x01234567#32, 0x89ABCDEF#32, 0x00000003#32] =
    .command (.wiFrom 0x01234567#32 0x89ABCDEF#32 0x00000003#32) [] := by decide
theorem test_decode_chSet : decode [0x50000A5C#32, 0x01234567#32] =
    .command (.chSet 0xa5c#12 0x01234567#32) [] := by decide
theorem test_decode_chUnset : decode [0x51000A5C#32, 0x01234567#32] =
    .command (.chUnset 0xa5c#12 0x01234567#32) [] := by decide
theorem test_decode_chTgl : decode [0x52000A5C#32, 0x01234567#32] =
    .command (.chTgl 0xa5c#12 0x01234567#32) [] := by decide
theorem test_decode_chGet : decode [0x53000A5C#32, 0x01234567#32] =
    .command (.chGet 0xa5c#12 0x01234567#32) [] := by decide
theorem test_decode_chFill : decode [0x54000A5C#32, 0x01234567#32] =
    .command (.chFill 0xa5c#12 0x01234567#32) [] := by decide
theorem test_decode_chEmpty : decode [0x55000A5C#32, 0x01234567#32] =
    .command (.chEmpty 0xa5c#12 0x01234567#32) [] := by decide
theorem test_decode_chCount : decode [0x56000A5C#32, 0x01234567#32] =
    .command (.chCount 0xa5c#12 0x01234567#32) [] := by decide
theorem test_decode_chLen : decode [0x57000000#32, 0x01234567#32] = .command (.chLen 0x01234567#32) [] := by decide
theorem test_decode_chMGet : decode [0x58000A5C#32, 0x01234567#32] =
    .command (.chMGet 0xa5c#12 0x01234567#32) [] := by decide
theorem test_decode_chMSet : decode [0x59000A5C#32, 0x01234567#32, 0x89ABCDEF#32] =
    .command (.chMSet 0xa5c#12 0x01234567#32 0x89ABCDEF#32) [] := by decide
theorem test_decode_wIns : decode [0x60000002#32, 0x01234567#32] = .command (.wIns 2#2 0x01234567#32) [] := by decide
theorem test_decode_wGet : decode [0x61000000#32, 0x01234567#32] = .command (.wGet 0x01234567#32) [] := by decide
theorem test_decode_wRem : decode [0x62000000#32, 0x01234567#32] = .command (.wRem 0x01234567#32) [] := by decide
theorem test_decode_face : decode [0x70000000#32, 0x01234567#32] = .command (.face 0x01234567#32) [] := by decide
theorem test_decode_fmRd : decode [0x71000A5C#32] = .command (.fmRd 0xa5c#12) [] := by decide
theorem test_decode_gidx : decode [0x72000001#32] = .command (.gidx 1#1) [] := by decide
theorem test_decode_gidxo : decode [0x73000001#32, 0x01234567#32] =
    .command (.gidxo 1#1 0x01234567#32) [] := by decide
theorem test_decode_ray : decode [0x80000000#32, 0x01234567#32, 0x89ABCDEF#32, 0x00000003#32, 0xFFFFFFFF#32, 0x7FFFFFFF#32, 0x80000000#32] =
    .command (.ray 0x01234567#32 0x89ABCDEF#32 0x00000003#32 0xFFFFFFFF#32 0x7FFFFFFF#32 0x80000000#32) [] := by decide

/-- The opcodes of the 71 rows are distinct, so no header matches two rows. -/
theorem test_opcodes_distinct : opcodeMap.length = 71 ∧ (opcodeMap.map OpRow.op).Nodup := by decide

/-- The mnemonics of the 71 rows are distinct. -/
theorem test_mnemonics_distinct : (opcodeMap.map OpRow.mnemonic).Nodup := by decide

/-- The table's numbering: the first word is the low 32 bits. -/
theorem test_decodeTableWord : decodeTableWord 96 0x00000007_00000005_2A000000 = some (.lkAdd 5#32 7#32) := by decide

/-- A header with a bit of the reserved byte, or of an unassigned field, is no command; nor is opcode 0. -/
theorem test_decode_illegal : decode [0x08010000#32, 1#32] = .illegal .reservedByte [1#32] ∧
    decode [0x08000001#32, 1#32] = .illegal .reservedField [1#32] ∧ decode [0#32] = .illegal .unassignedOpcode [] := by
  decide

/-- The word that `withFetchWord` places is what the next step runs. -/
theorem test_step_withFetchWord : step (State.reset.withFetchWord 64 0x12345678_08000000) =
    .next { State.reset with respPort := [0x00000100#32, 13#32] } := rfl

/-! ### Meanings: the examples of the command's rule -/

theorem test_bitat : answerOf (.bitat 31#5 0x80000001#32) State.reset = [0x00000100#32, 0x00000001#32] := by decide
theorem test_bitat_zero : answerOf (.bitat 15#5 0x80000001#32) State.reset =
    [0x00000100#32, 0x00000000#32] := by decide
theorem test_bitinv : answerOf (.bitinv 0#5 0x80000001#32) State.reset = [0x00000100#32, 0x00000000#32] := by decide
theorem test_bitinv_one : answerOf (.bitinv 1#5 0x80000001#32) State.reset =
    [0x00000100#32, 0x00000001#32] := by decide
theorem test_setb : answerOf (.setb 31#5 0#32) State.reset = [0x00000100#32, 0x80000000#32] := by decide
theorem test_clrb : answerOf (.clrb 0#5 0xFFFFFFFF#32) State.reset = [0x00000100#32, 0xFFFFFFFE#32] := by decide
theorem test_tglb : answerOf (.tglb 4#5 0xF0#32) State.reset = [0x00000100#32, 0x000000E0#32] := by decide
theorem test_tglb_one : answerOf (.tglb 0#5 0xF0#32) State.reset = [0x00000100#32, 0x000000F1#32] := by decide
theorem test_putb : answerOf (.putb 4#5 0#1 0xF0#32) State.reset = [0x00000100#32, 0x000000E0#32] := by decide
theorem test_putb_one : answerOf (.putb 0#5 1#1 0xF0#32) State.reset = [0x00000100#32, 0x000000F1#32] := by decide
theorem test_maskn : answerOf (.maskn 31#6) State.reset = [0x00000100#32, 0x7FFFFFFF#32] := by decide
theorem test_maskn_all : answerOf (.maskn 32#6) State.reset = [0x00000100#32, 0xFFFFFFFF#32] := by decide
theorem test_popc : answerOf (.popc 0x12345678#32) State.reset = [0x00000100#32, 0x0000000D#32] := by decide
theorem test_popc_half : answerOf (.popc 0xF0F0F0F0#32) State.reset = [0x00000100#32, 0x00000010#32] := by decide
theorem test_ispow2 : answerOf (.ispow2 0x40#32) State.reset = [0x00000100#32, 0x00000001#32] := by decide
theorem test_ispow2_zero : answerOf (.ispow2 0#32) State.reset = [0x00000100#32, 0x00000000#32] := by decide
theorem test_flat3 : answerOf (.flat3 2#4 1#32 2#32 3#32) State.reset = [0x00000100#32, 0x0000001B#32] := by decide
theorem test_flat3_cut : answerOf (.flat3 2#4 4#32 0#32 0#32) State.reset =
    [0x00000100#32, 0x00000000#32] := by decide
theorem test_flat2 : answerOf (.flat2 2#4 1#32 2#32) State.reset = [0x00000100#32, 0x00000006#32] := by decide
theorem test_flat2_cut : answerOf (.flat2 2#4 5#32 0#32) State.reset = [0x00000100#32, 0x00000004#32] := by decide

theorem test_baNew : (stateAfter (.baNew 4#32) State.reset).sba = { n := 4, words := [] } := by decide
theorem test_baNew_negative : (stateAfter (.baNew 0xFFFFFFFB#32) (fourWords [(0, 1#32)])).sba = { n := 1, words := [] } := by
  decide
theorem test_baGet : answerOf (.baGet 127#32) (fourWords [(3, 0x80000000#32)]) =
    [0x00000100#32, 0x00000001#32] := by decide
theorem test_baGet_last : answerOf (.baGet 128#32) (fourWords [(3, 0x80000000#32)]) = [0x00000002#32] := by decide
theorem test_baGetInv : answerOf (.baGetInv 5#32) State.reset = [0x00000100#32, 0x00000001#32] := by decide
theorem test_baGetInv_negative : answerOf (.baGetInv 0xFFFFFFFF#32) (fourWords []) = [0x00000002#32] := by decide
theorem test_baSet : (stateAfter (.baSet 127#32) (fourWords [])).sba.words = [(3, 0x80000000#32)] := by decide
theorem test_baSet_next : (stateAfter (.baSet 32#32) (fourWords [])).sba.words = [(1, 1#32)] := by decide
theorem test_baPut : (stateAfter (.baPut 1#1 0#32) (fourWords [])).sba.words = [(0, 1#32)] := by decide
theorem test_baPut_zero : (stateAfter (.baPut 0#1 0#32) (fourWords [(0, 1#32)])).sba.words = [] := by decide
theorem test_baClr : (stateAfter (.baClr 0#32) (fourWords [(0, 0xFFFFFFFF#32)])).sba.words = [(0, 0xFFFFFFFE#32)] := by decide
theorem test_baTgl : (stateAfter (.baTgl 33#32) (fourWords [])).sba.words = [(1, 2#32)] := by decide
theorem test_baTgl_again : (stateAfter (.baTgl 33#32) (fourWords [(1, 2#32)])).sba.words = [] := by decide
theorem test_baPopc : answerOf (.baPopc) (fourWords [(0, 1#32), (1, 2#32), (3, 0x80000000#32)]) =
    [0x00000100#32, 0x00000003#32] := by decide
theorem test_baRdw : answerOf (.baRdw 3#32) (fourWords [(3, 0x80000000#32)]) =
    [0x00000100#32, 0x80000000#32] := by decide
theorem test_baRdw_end : answerOf (.baRdw 4#32) (fourWords []) = [0x00000004#32] := by decide
theorem test_baWrw : (stateAfter (.baWrw 2#32 0xFFFF#32) (fourWords [])).sba.words = [(2, 0xFFFF#32)] := by decide
theorem test_sbaNew_capacity : sbaNew 8 9 State.reset = .next { State.reset with respPort := [4#32] } := rfl

theorem test_lkFrom : answerOf (.lkFrom 3#32 5#32 7#32) State.reset = [0x00000100#32, 0x00301407#32] := by decide
theorem test_lkFrom_negative : answerOf (.lkFrom 0xFFFFFFFF#32 0#32 0#32) State.reset =
    [0x00000100#32, 0x3FF00000#32] := by decide
theorem test_lkX : answerOf (.lkX 0x301407#32) State.reset = [0x00000100#32, 0x00000003#32] := by decide
theorem test_lkY : answerOf (.lkY 0x301407#32) State.reset = [0x00000100#32, 0x00000005#32] := by decide
theorem test_lkZ : answerOf (.lkZ 0x301407#32) State.reset = [0x00000100#32, 0x00000007#32] := by decide
theorem test_lkIncX : answerOf (.lkIncX 0x301407#32) State.reset = [0x00000100#32, 0x00401407#32] := by decide
theorem test_lkIncX_wrap : answerOf (.lkIncX 0x3FF01409#32) State.reset = [0x00000100#32, 0x00001409#32] := by decide
theorem test_lkDecX : answerOf (.lkDecX 0x301407#32) State.reset = [0x00000100#32, 0x00201407#32] := by decide
theorem test_lkDecX_wrap : answerOf (.lkDecX 0x1409#32) State.reset = [0x00000100#32, 0x3FF01409#32] := by decide
theorem test_lkIncY : answerOf (.lkIncY 0x301407#32) State.reset = [0x00000100#32, 0x00301807#32] := by decide
theorem test_lkIncY_wrap : answerOf (.lkIncY 0x5FFC00#32) State.reset = [0x00000100#32, 0x00500000#32] := by decide
theorem test_lkDecY : answerOf (.lkDecY 0x301407#32) State.reset = [0x00000100#32, 0x00301007#32] := by decide
theorem test_lkDecY_wrap : answerOf (.lkDecY 0x500000#32) State.reset = [0x00000100#32, 0x005FFC00#32] := by decide
theorem test_lkIncZ : answerOf (.lkIncZ 0x301407#32) State.reset = [0x00000100#32, 0x00301408#32] := by decide
theorem test_lkIncZ_wrap : answerOf (.lkIncZ 0x3FF#32) State.reset = [0x00000100#32, 0x00000000#32] := by decide
theorem test_lkDecZ : answerOf (.lkDecZ 0x301407#32) State.reset = [0x00000100#32, 0x00301406#32] := by decide
theorem test_lkDecZ_wrap : answerOf (.lkDecZ 0x0#32) State.reset = [0x00000100#32, 0x000003FF#32] := by decide
theorem test_lkAdd : answerOf (.lkAdd 0x3E800803#32 0x64FFC05#32) State.reset =
    [0x00000100#32, 0x04C00408#32] := by decide
theorem test_lkSub : answerOf (.lkSub 0xA0501E#32 0x100803#32) State.reset =
    [0x00000100#32, 0x0090481B#32] := by decide
theorem test_lkSub_wrap : answerOf (.lkSub 0x1409#32 0x100000#32) State.reset =
    [0x00000100#32, 0x3FF01409#32] := by decide
theorem test_lkCmp : answerOf (.lkCmp 0x301407#32 0x301407#32) State.reset =
    [0x00000100#32, 0x00000000#32] := by decide
theorem test_lkCmp_less : answerOf (.lkCmp 0x301407#32 0x401407#32) State.reset =
    [0x00000100#32, 0xFFFFFFFF#32] := by decide

theorem test_mkFrom : answerOf (.mkFrom 3#32 5#32 7#32) State.reset =
    [0x00000100#32, 0x000001AF#32] := by decide +kernel
theorem test_mkFrom_negative : answerOf (.mkFrom 0xFFFFFFFF#32 0#32 0#32) State.reset =
    [0x00000100#32, 0x09249249#32] := by decide +kernel
theorem test_mkX : answerOf (.mkX 0x1AF#32) State.reset = [0x00000100#32, 0x00000003#32] := by decide
theorem test_mkY : answerOf (.mkY 0x1AF#32) State.reset = [0x00000100#32, 0x00000005#32] := by decide
theorem test_mkZ : answerOf (.mkZ 0x1AF#32) State.reset = [0x00000100#32, 0x00000007#32] := by decide
theorem test_mkIncX : answerOf (.mkIncX 0x1FF#32) State.reset = [0x00000100#32, 0x000003B6#32] := by decide
theorem test_mkIncX_wrap : answerOf (.mkIncX 0x9249ACF#32) State.reset = [0x00000100#32, 0x00000886#32] := by decide
theorem test_mkDecX : answerOf (.mkDecX 0x1AF#32) State.reset = [0x00000100#32, 0x000001AE#32] := by decide
theorem test_mkDecX_wrap : answerOf (.mkDecX 0x886#32) State.reset = [0x00000100#32, 0x09249ACF#32] := by decide
theorem test_mkIncY : answerOf (.mkIncY 0x1AF#32) State.reset = [0x00000100#32, 0x000001BD#32] := by decide
theorem test_mkIncY_wrap : answerOf (.mkIncY 0x124924D3#32) State.reset = [0x00000100#32, 0x00000041#32] := by decide
theorem test_mkDecY : answerOf (.mkDecY 0x1AF#32) State.reset = [0x00000100#32, 0x000001AD#32] := by decide
theorem test_mkDecY_wrap : answerOf (.mkDecY 0x41#32) State.reset = [0x00000100#32, 0x124924D3#32] := by decide
theorem test_mkIncZ : answerOf (.mkIncZ 0x1AF#32) State.reset = [0x00000100#32, 0x0000088B#32] := by decide
theorem test_mkIncZ_wrap : answerOf (.mkIncZ 0x24924924#32) State.reset = [0x00000100#32, 0x00000000#32] := by decide
theorem test_mkDecZ : answerOf (.mkDecZ 0x1AF#32) State.reset = [0x00000100#32, 0x000001AB#32] := by decide
theorem test_mkDecZ_wrap : answerOf (.mkDecZ 0x0#32) State.reset = [0x00000100#32, 0x24924924#32] := by decide
theorem test_mkAdd : answerOf (.mkAdd 0x9248234#32 0x124DA5D6#32) State.reset =
    [0x00000100#32, 0x00040A42#32] := by decide +kernel
theorem test_mkSub : answerOf (.mkSub 0x6BA8#32 0x35#32) State.reset =
    [0x00000100#32, 0x00006A35#32] := by decide +kernel
theorem test_mkSub_wrap : answerOf (.mkSub 0x886#32 0x1#32) State.reset =
    [0x00000100#32, 0x09249ACF#32] := by decide +kernel
theorem test_mkCmp : answerOf (.mkCmp 4#32 1#32) State.reset = [0x00000100#32, 0x00000001#32] := by decide
theorem test_mkCmp_equal : answerOf (.mkCmp 7#32 7#32) State.reset = [0x00000100#32, 0x00000000#32] := by decide

theorem test_viFrom : answerOf (.viFrom 3#32 2#32 1#32 0#32 1#32 2#32) State.reset =
    [0x00000100#32, 0x00000E46#32] := by decide
theorem test_viFrom_wrap : answerOf (.viFrom 4#32 0xFFFFFFFF#32 5#32 0#32 0#32 0#32) State.reset =
    [0x00000100#32, 0x00000340#32] := by decide
theorem test_viVKey : answerOf (.viVKey 0xE46#32) State.reset = [0x00000100#32, 0x00000039#32] := by decide
theorem test_viBKey : answerOf (.viBKey 0xE46#32) State.reset = [0x00000100#32, 0x00000006#32] := by decide
theorem test_viGetC : answerOf (.viGetC 1#3 0xE46#32) State.reset = [0x00000100#32, 0x00000002#32] := by decide
theorem test_viGetC_bx : answerOf (.viGetC 3#3 0xE46#32) State.reset = [0x00000100#32, 0x00000000#32] := by decide
theorem test_viCmp : answerOf (.viCmp 0x555#32 0x555#32) State.reset = [0x00000100#32, 0x00000000#32] := by decide
theorem test_viCmp_less : answerOf (.viCmp 0x554#32 0x555#32) State.reset =
    [0x00000100#32, 0xFFFFFFFF#32] := by decide
theorem test_wiFrom : answerOf (.wiFrom 0x150000#32 0xA0000#32 0x30000#32) State.reset =
    [0x00000200#32, 0x00000001#32, 0x0000061B#32] := by decide +kernel
theorem test_wiFrom_negative : answerOf (.wiFrom 0xFFFF0000#32 0xFFFF0000#32 0xFFFF0000#32) State.reset =
    [0x00000200#32, 0x3FFFFFFF#32, 0x00000FFF#32] := by decide +kernel

theorem test_chSet : (stateAfter (.chSet 0x555#12 0#32) (oneChunk 0#30 .bits0 [] [])).world =
    (oneChunk 0#30 .bits0 [(42, 0x00200000#32)] []).world := by decide
theorem test_chSet_order : answerOf (.chSet 0x555#12 0x80000000#32) (oneChunk 0#30 .bits0 [] []) =
    [0x00000004#32] := by decide
theorem test_chUnset : (stateAfter (.chUnset 0x555#12 0#32) star).world =
    (oneChunk 0#30 .bits0 [] []).world := by decide
theorem test_chTgl : (stateAfter (.chTgl 0x001#12 0#32) (oneChunk 0#30 .bits0 [] [])).world =
    (oneChunk 0#30 .bits0 [(0, 2#32)] []).world := by decide
theorem test_chTgl_again : (stateAfter (.chTgl 0x001#12 0#32) (oneChunk 0#30 .bits0 [(0, 2#32)] [])).world =
    (oneChunk 0#30 .bits0 [] []).world := by decide
theorem test_chGet : answerOf (.chGet 0x555#12 0#32) star = [0x00000100#32, 0x00000001#32] := by decide
theorem test_chGet_absent : answerOf (.chGet 0x555#12 1#32) star = [0x00000001#32] := by decide
theorem test_chFill : (stateAfter (.chFill 0x555#12 0#32) (oneChunk 0#30 .bits0 [] [])).world =
    (oneChunk 0#30 .bits0 [(42, 0xFFFFFFFF#32), (43, 0xFFFFFFFF#32)] []).world := by decide
theorem test_chEmpty : (stateAfter (.chEmpty 0x540#12 0#32) (oneChunk 0#30 .bits0 [(42, 0xFFFFFFFF#32), (43, 0xFFFFFFFF#32)] [])).world =
    (oneChunk 0#30 .bits0 [] []).world := by decide
theorem test_chCount : answerOf (.chCount 0x540#12 0#32) (oneChunk 0#30 .bits0 [(42, 0x00200000#32), (43, 0x20#32)] []) =
    [0x00000100#32, 0x00000002#32] := by decide
theorem test_chCount_other : answerOf (.chCount 0x000#12 0#32) star = [0x00000100#32, 0x00000000#32] := by decide
theorem test_chLen : answerOf (.chLen 0#32) star = [0x00000100#32, 0x00000001#32] := by decide
theorem test_chMGet : answerOf (.chMGet 0x540#12 7#32) (oneChunk 7#30 .bits8 [] [(21, 0xAB#32)]) =
    [0x00000100#32, 0x000000AB#32] := by decide
theorem test_chMGet_bits0 : answerOf (.chMGet 0x540#12 0#32) star = [0x00000100#32, 0x00000000#32] := by decide
theorem test_chMSet : (stateAfter (.chMSet 0x555#12 7#32 0x1AB#32) (oneChunk 7#30 .bits8 [] [])).world =
    (oneChunk 7#30 .bits8 [] [(21, 0xAB#32)]).world := by decide
theorem test_chMSet_bits32 : (stateAfter (.chMSet 0x000#12 7#32 0x12345678#32) (oneChunk 7#30 .bits32 [] [])).world =
    (oneChunk 7#30 .bits32 [] [(0, 0x12345678#32)]).world := by decide

theorem test_wIns : (stateAfter (.wIns 3#2 7#32) State.reset).world = (oneChunk 7#30 .bits32 [] []).world := by decide
theorem test_wIns_over : (stateAfter (.wIns 1#2 0#32) star).world = (oneChunk 0#30 .bits8 [] []).world := by decide
theorem test_wGet : answerOf (.wGet 7#32) (oneChunk 7#30 .bits32 [] []) = [0x00000100#32, 0x00000003#32] := by decide
theorem test_wGet_absent : answerOf (.wGet 1#32) (oneChunk 7#30 .bits32 [] []) = [0x00000001#32] := by decide
theorem test_wRem : answerOf (.wRem 5#32) (oneChunk 5#30 .bits0 [] []) = [0x00000100#32, 0x00000001#32] := by decide
theorem test_wRem_absent : answerOf (.wRem 5#32) State.reset = [0x00000100#32, 0x00000000#32] := by decide

theorem test_face : (stateAfter (.face 0#32) star).fm = [(0x555, 0x3F#8)] := by decide +kernel
theorem test_face_neighbours : (stateAfter (.face 0#32) (oneChunk 0#30 .bits0 [(0, 3#32)] [])).fm = [(0, 0x2F#8), (1, 0x1F#8)] := by
  decide +kernel
theorem test_fmRd : answerOf (.fmRd 0x555#12) { State.reset with fm := [(0x555, 0x3F#8)] } =
    [0x00000100#32, 0x0000003F#32] := by decide
theorem test_gidx_empty : answerOf (.gidx 0#1) State.reset = [0x00000000#32] := by decide +kernel
theorem test_gidxo_empty : answerOf (.gidxo 1#1 0#32) State.reset = [0x00000000#32] := by decide +kernel
theorem test_gidxo_length : answerOf (.gidxo 0#1 35#32) { State.reset with fm := [(0x555, 0x3F#8)] } =
    [0x00000002#32] := by decide +kernel

theorem test_ray : answerOf (.ray 0xFFF00000#32 0x50000#32 0x50000#32 0x100000#32 0x50000#32 0x50000#32) star =
    [0x00000200#32, 0x00000000#32, 0x00000555#32] := by decide +kernel
theorem test_ray_absent : answerOf (.ray 0xFFF00000#32 0x40000#32 0x40000#32 0x100000#32 0x40000#32 0x40000#32) star =
    [0x00000001#32] := by decide +kernel

/-! ### Witnesses: for each statement, what meets its hypotheses, at the boundary values of its clauses -/

/-- A state with something in every unit, which meets the invariant: two chunks (one with a slot at its largest value), `FM`
with its last entry at its largest value, and a scratch array with its last word listed. -/
def busy : State :=
  { world := [(0, starChunk), (0x3FFFFFFF,
      { key := 0x3FFFFFFF#30, width := .bits8, layer := [(127, 0x80000000#32)], slots := [(63, 0xFF#32)] })]
    fm := [(4095, 63#8)]
    sba := { n := 4, words := [(3, 0xFFFFFFFF#32)] }
    cmdPort := [0x08000000#32, 7#32, 0x08000000#32]
    respPort := [] }

/-- A table of the lengths that R280 asks. -/
def zeroTable : IndexTable := fun m => List.replicate (6 * popcount m) 0

theorem witness_EncodeOfDecodeIsTheWords :
    decode [0x80000000#32, 1#32, 2#32, 3#32, 4#32, 5#32, 6#32, 7#32] = .command (.ray 1#32 2#32 3#32 4#32 5#32 6#32) [7#32] ∧
    decode [0x17000000#32] = .command .baPopc [] := by decide

/-- The first and the last opcode with a row match; an opcode without one, a reserved byte and a reserved field do not. -/
theorem witness_HeaderIsIllegalExactlyWhenNoRowMatches :
    MatchesSomeRow 0x0100001F#32 ∧ MatchesSomeRow 0x80000000#32 ∧ ¬ MatchesSomeRow 0x00000000#32 ∧
    ¬ MatchesSomeRow 0x81000000#32 ∧ ¬ MatchesSomeRow 0x01010000#32 ∧ ¬ MatchesSomeRow 0x01000020#32 := by
  unfold MatchesSomeRow; decide +kernel

/-- At both ends of the gaps of R87 the two sides of the third clause agree. -/
theorem witness_opcode_gaps :
    (∀ op ∈ [0x00#8, 0x0C#8, 0x0F#8, 0x1A#8, 0x1F#8, 0x2D#8, 0x2F#8, 0x3D#8, 0x3F#8, 0x45#8, 0x47#8, 0x49#8, 0x4F#8, 0x5A#8,
      0x5F#8, 0x63#8, 0x6F#8, 0x74#8, 0x7F#8, 0x81#8, 0xFF#8], ∀ r ∈ opcodeMap, r.op ≠ op) ∧
    (∀ op ∈ [0x01#8, 0x0B#8, 0x10#8, 0x19#8, 0x20#8, 0x2C#8, 0x30#8, 0x3C#8, 0x40#8, 0x44#8, 0x48#8, 0x50#8, 0x59#8, 0x60#8,
      0x62#8, 0x70#8, 0x73#8, 0x80#8], ∃ r ∈ opcodeMap, r.op = op) := by
  decide +kernel

theorem witness_CommandLengthFollowsFromTheOpcode :
    headerOp ((encode (.putb 31#5 1#1 0#32)).headD 0) = headerOp ((encode (.putb 0#5 0#1 1#32)).headD 0) := by decide +kernel

theorem witness_StepRunsTheDecodedCommand :
    decode busy.cmdPort = .command (.popc 7#32) [0x08000000#32] ∧ decode [0x08000000#32] = .incomplete ∧
    decode State.reset.cmdPort = .incomplete := by decide +kernel

/-- The response count at both ends of its field, and a table and an `FM` that meet the third clause. -/
theorem witness_EveryCommandEndsInOneResponse :
    responseHeader .absent 0 = 0x00000001#32 ∧ responseHeader .ok (2 ^ 24 - 1) = 0xFFFFFF00#32 ∧
    TableMeetsR280 zeroTable ∧ ∀ e ∈ busy.fm, e.2.toNat ≤ 63 :=
  ⟨by decide +kernel, by decide +kernel, fun _ _ => List.length_replicate, by decide +kernel⟩

theorem witness_StepKeepsTheInvariant : Invariant busy = true ∧ isNext (step busy) = true := by decide +kernel

theorem witness_FailedCommandsChangeNothing : Raises (.chGet 0#12 1#32) star .absent ∧ Status.absent ≠ .ok :=
  ⟨rfl, by decide⟩

/-- Each disjunct of the statement, and a word index on either side of `SBA_N`. -/
theorem witness_IllegalOperandExactlyForTheListOfR338 :
    ¬ (Instr.maskn 33#6).WellFormed ∧ (Instr.maskn 32#6).WellFormed ∧ (fourWords []).sba.n ≤ (4#32).toNat ∧
    ¬ (fourWords []).sba.n ≤ (3#32).toNat := by decide +kernel

/-- Positions at the ends of a four-word array: 0 and 127 are in it, -1 and 128 are not. -/
theorem witness_PosInRange : PosInRange (fourWords []).sba.n 0#32 ∧ PosInRange (fourWords []).sba.n 127#32 ∧
    ¬ PosInRange (fourWords []).sba.n 128#32 ∧ ¬ PosInRange (fourWords []).sba.n 0xFFFFFFFF#32 := by
  unfold PosInRange; decide +kernel

/-- `GIDXO` on an empty `FM`: the length 0 is right and the length 1 is not. -/
theorem witness_OutOfRangeExactlyForItsTwoCauses :
    (0#32).toInt = 6 * (facesOf State.reset.fm : Int) ∧ (1#32).toInt ≠ 6 * (facesOf State.reset.fm : Int) := by
  have h : facesOf State.reset.fm = 0 := Finset.sum_eq_zero fun _ _ => show popcount 0#8 = 0 by decide
  rw [h]; decide

theorem witness_AbsentExactlyForItsCauses :
    chunkOperand (.chGet 0#12 1#32) = some 1#32 ∧ (1#32).toNat < 2 ^ 30 ∧
    worldGet star.world ((1#32).setWidth 30) = none ∧ raycast State.reset.world 0#32 0#32 0#32 0#32 0#32 0#32 = none := by
  decide +kernel

/-- The lowest and the highest key, each with a chunk. -/
theorem witness_Holds : Holds busy 0#32 0#30 starChunk ∧
    ∃ c, Holds busy 0x3FFFFFFF#32 0x3FFFFFFF#30 c := ⟨⟨by decide, by decide⟩, _, by decide, rfl⟩

theorem witness_FaceMaskBufferIsASnapshot : isNext (exec (.face 0#32) busy) = true ∧
    isNext (exec (.face 0#32) { busy with fm := [] }) = true ∧ isNext (exec (.popc 0#32) busy) = true ∧
    (∀ key, Instr.popc 0#32 ≠ .face key) := ⟨by decide +kernel, by decide +kernel, by decide +kernel, nofun⟩

theorem witness_UnitsAreWrittenByTheirOwnCommandsOnly : isNext (exec (.chSet 1#12 0#32) busy) = true := by decide +kernel

theorem witness_MetadataAffectsNeitherFaceNorRay :
    SameLayers star.world (oneChunk 0#30 .bits8 [(42, 0x00200000#32)] [(0, 5#32)]).world := by
  intro k
  show ((if (0#30).toNat = k.toNat then some starChunk else none).map Chunk.layer) =
    ((if (0#30).toNat = k.toNat then some _ else none).map Chunk.layer)
  split <;> rfl

theorem witness_SingleBitReadsAndPut : ((1#1).toNat = 1 ∧ (0#1).toNat = 0) ∧ (31#5).toNat < 32 := by decide

theorem witness_MasksAndPowersOfTwo : (32#6).toNat ≤ 32 ∧ 32 < (33#6).toNat := by decide

theorem witness_FlattenedCoordinates : (10#4).toNat ≤ 10 ∧ 10 < (11#4).toNat := by decide

theorem witness_BitStringsAreInverse : (List.replicate 32 '1').length = 32 ∧
    ∀ c ∈ List.replicate 32 '1', c = '0' ∨ c = '1' :=
  ⟨List.length_replicate, fun _ h => .inr (List.eq_of_mem_replicate h)⟩

/-- Both sides of a capacity of 8 words, and the largest and the smallest request. -/
theorem witness_NewScratchArrayIsAllZero : ((8 : Nat) : Int) < 9 ∧ (8 : Int) ≤ ((8 : Nat) : Int) ∧
    1 ≤ (0x7FFFFFFF#32).toInt ∧ ¬ 1 ≤ (0x80000000#32).toInt ∧ ¬ 1 ≤ (0#32).toInt ∧ 1 ≤ (1#32).toInt := by decide

theorem witness_ScratchArrayPopulation : Invariant (fourWords [(0, 1#32), (3, 0x80000000#32)]) = true := by decide +kernel

theorem witness_ScratchArrayWordAccess : (3#32).toNat < (fourWords []).sba.n ∧ (fourWords []).sba.n ≤ (4#32).toNat ∧
    (fourWords []).sba.n ≤ (0xFFFFFFFF#32).toNat := by decide

/-- The largest and the smallest Linear key, and the two sides of the first word that is no key. -/
theorem witness_LinearAccessorsAndSteps : 0x3FFFFFFF#32 = linearWord 1023 1023 1023 ∧ 0#32 = linearWord 0 0 0 ∧
    (0x3FFFFFFF#32).toNat < 2 ^ 30 ∧ 2 ^ 30 ≤ (0x40000000#32).toNat := by decide

theorem witness_LinearSumsAndDifferences : 0x3FFFFFFF#32 = linearWord 1023 1023 1023 ∧ 0x00100401#32 = linearWord 1 1 1 ∧
    2 ^ 30 ≤ (0x40000000#32).toNat := by decide

theorem witness_ComparisonsOfScalars : (0x3FFFFFFF#32).toNat < 2 ^ 30 ∧ 2 ^ 30 ≤ (0x40000000#32).toNat ∧
    (4095#32).toNat ≤ 4095 ∧ 4095 < (4096#32).toNat := by decide

/-- For the three statements about Morton keys (accessors, step formulas, sums): the last key and the first word that is
none. -/
theorem witness_MortonKeys : (0x3FFFFFFF#32).toNat < 2 ^ 30 ∧ 2 ^ 30 ≤ (0x40000000#32).toNat := by decide

theorem witness_VoxelIndexFields : (4095#32).toNat ≤ 4095 ∧ 4095 < (4096#32).toNat ∧ (5#3).toNat ≤ 5 ∧ 5 < (6#3).toNat := by
  decide

/-- Congruent cells, and cells that differ on one axis. -/
theorem witness_WorldIsATorusOfPeriod16384 : worldIndexOfCell (-1) 16384 0 = worldIndexOfCell 16383 0 (-16384) ∧
    worldIndexOfCell 0 0 0 ≠ worldIndexOfCell 16383 0 0 := by decide +kernel

/-- For the commands that name a chunk (`CH.*`, `W.*`, `FACE`): a word that is no key, and a key without a chunk. -/
theorem witness_FailsWithoutChunk : 2 ^ 30 ≤ (0x40000000#32).toNat ∧ (0x3FFFFFFF#32).toNat < 2 ^ 30 ∧
    worldGet star.world ((0x3FFFFFFF#32).setWidth 30) = none := by decide +kernel

/-- For the statements about a stored chunk (bit, voxel and metadata writes, reads, layer laws, removal). -/
theorem witness_ChunkReads : Holds star 0#32 0#30 starChunk ∧ Invariant star = true ∧ starChunk.width = .bits0 :=
  ⟨⟨by decide, by decide⟩, by decide +kernel, rfl⟩

theorem witness_ChunkMetadataWrites : Holds (oneChunk 7#30 .bits16 [] []) 7#32 7#30
    { key := 7#30, width := .bits16, layer := [], slots := [] } ∧ (0xFFF#12).toNat / 64 = 63 := by
  refine ⟨⟨by decide, by decide⟩, by decide⟩

theorem witness_InsertStoresAnEmptyChunk : 2 ^ 30 ≤ (0x40000000#32).toNat := by decide

/-- Keys 1 and 4 share a bucket of a grid of three; the grid and the store hold the same. -/
theorem witness_HashGridRefinesTheStore :
    gridWf { n := 1, buckets := [[(4, starChunk), (1, starChunk)]] } = true ∧
    GridRefines { n := 1, buckets := [[(4, starChunk), (1, starChunk)]] } [(1, starChunk), (4, starChunk)] := by
  refine ⟨by decide +kernel, fun k => ?_⟩
  have hb : bucketOf { n := 1, buckets := [[(4, starChunk), (1, starChunk)]] } k = 0 := Nat.mod_one _
  unfold gridGet bucketAt
  rw [hb]
  show (if 4 = k.toNat then some starChunk else if 1 = k.toNat then some starChunk else none) =
    (if 1 = k.toNat then some starChunk else if 4 = k.toNat then some starChunk else none)
  split <;> split <;> rfl

/-- The second clause in all six directions: from bitvoxel 0x555 to its neighbour inside the chunk, and from the last
position of an axis to the first one of the next chunk (its key stepped from key 0). -/
theorem witness_FaceMasksOfAChunk :
    layerBit starChunk.layer 0x555#12 = true ∧
    (∀ p ∈ [(Dir.xPos, 0x565#12, 0xC30#12, 0x000#12, 1#30), (.xNeg, 0x545#12, 0x000#12, 0xC30#12, 0x09249249#30),
        (.yPos, 0x559#12, 0x30C#12, 0x000#12, 2#30), (.yNeg, 0x551#12, 0x000#12, 0x30C#12, 0x12492492#30),
        (.zPos, 0x556#12, 0x0C3#12, 0x000#12, 4#30), (.zNeg, 0x554#12, 0x000#12, 0x0C3#12, 0x24924924#30)],
      ∀ a : Nat, a < 3 →
        (axisPos a p.2.1 : Int) = ((axisPos a 0x555#12 : Int) + dirStep p.1 a) % 16 ∧
        (axisPos a p.2.2.2.1 : Int) = ((axisPos a p.2.2.1 : Int) + dirStep p.1 a) % 16 ∧
        (mortonAxis a p.2.2.2.2 : Int) = ((mortonAxis a 0#30 : Int) + dirStep p.1 a) % 1024) ∧
    (∀ d ∈ allDirs, 0 ≤ (axisPos (dirAxis d) 0x555#12 : Int) + dirSign d ∧
      (axisPos (dirAxis d) 0x555#12 : Int) + dirSign d ≤ 15) ∧
    ¬ (axisPos (dirAxis .xPos) 0xC30#12 : Int) + dirSign .xPos ≤ 15 ∧
    ¬ 0 ≤ (axisPos (dirAxis .xNeg) 0x000#12 : Int) + dirSign .xNeg := by
  decide +kernel

theorem witness_FaceMasksOfWorldCells : Holds star 0#32 0#30 starChunk ∧ isNext (exec (.face 0#32) star) = true ∧
    (worldIndexOfCell 5 5 5).1 = 0#30 ∧ (worldIndexOfCell 15 16400 (-16384)).1 ≠ 0#30 ∧
    (worldIndexOfCell 15 16384 (-16384)).1 = 0#30 := ⟨⟨by decide, by decide⟩, by decide +kernel, by decide +kernel,
  by decide +kernel, by decide +kernel⟩

/-- Both `GIDXO` clauses on an `FM` with six bits set: the length 36 and its neighbour. -/
theorem witness_ReadingTheFaceMaskBuffer : faceCount [(0x555, 0x3F#8)] = 6 ∧ (36#32).toInt = 6 * 6 ∧ (35#32).toInt ≠ 6 * 6 := by
  decide +kernel

theorem witness_ExpandedLengthIsSixTimesTheFaces : TableMeetsR280 zeroTable ∧ ∀ e ∈ [(4095, 63#8)], e.2.toNat ≤ 63 :=
  ⟨fun _ _ => List.length_replicate, by decide +kernel⟩

/-- The shortest and the longest walk. -/
theorem witness_RayIsTheRationalWalk : rayCells 0#32 0#32 0#32 0#32 0#32 0#32 = 1 ∧
    rayCells 0x80000000#32 0x80000000#32 0x7FFFFFFF#32 0x7FFFFFFF#32 0x7FFFFFFF#32 0x80000000#32 = 196606 := by decide +kernel

/-- A set and an unset start cell, and a ray with an answer. -/
theorem witness_RayStartsAtItsFirstCellAndHitsSetBitvoxels :
    cellSet star.world (worldIndexOfCell 5 5 5) = true ∧ cellSet star.world (worldIndexOfCell 5 5 6) = false ∧
    (raycast star.world 0x50000#32 0x50000#32 0x50000#32 0#32 0#32 0#32).isSome = true := by decide +kernel

/-- On every axis and in both directions: a hit at the terminal cell, the cell before it unset; and a line beside it without
a hit. -/
theorem witness_AxialRaysHitTheFirstSetCell :
    (∀ a : Fin 3, cellSet star.world (axialCell a 5 5 5) = true ∧ cellSet star.world (axialCell a 4 5 5) = false ∧
      cellSet star.world (axialCell a 6 5 5) = false ∧ cellSet star.world (axialCell a 4 4 4) = false ∧
      cellSet star.world (axialCell a 5 4 4) = false) ∧
    (Between 4 5 5 ∧ ∀ m : Int, Between 4 5 m → m ≠ 5 → m = 4) ∧
    (Between 6 5 5 ∧ ∀ m : Int, Between 6 5 m → m ≠ 5 → m = 6) := by
  unfold Between
  refine ⟨by decide +kernel, ⟨by decide, ?_⟩, ⟨by decide, ?_⟩⟩ <;> omega


end Sys2Proof.Tests
end

section
/-!
SUPPORT and PROOFS. What the empty store, the empty layer and the face mask buffer after reset read as, and from it the
reset values of 10_state.md R39.
-/

namespace Sys2Proof.Proofs.Reset

open Sys2Proof Sys2Proof.Machine

/-- The empty store holds no chunk (10_state.md R39). -/
@[simp] theorem worldGet_nil (k : Key) : worldGet [] k = none := rfl

/-- No bitvoxel of a new chunk's layer is set (10_state.md R40). -/
@[simp] theorem layerBit_emptyLayer (j : VIdx) : layerBit emptyLayer j = false := by
  rw [layerBit, emptyLayer, readCell_nil, BitVec.getLsbD_zero]

@[simp] theorem zeroChunk_layer : zeroChunk.layer = emptyLayer := rfl
@[simp] theorem zeroChunk_width : zeroChunk.width = .bits0 := rfl

/-- At every index, also past the 4096 entries that the buffer has (10_state.md R32, R39). -/
@[simp] theorem fmEntry_reset (i : Nat) : fmEntry State.reset i = 0#8 := by
  rw [fmEntry, reset_fm, readCell_nil]

/-- Settles O8: one part for each element of state, from what an empty memory reads as. -/
theorem resetLeavesTheValuesOfR39 : Obligations.ResetLeavesTheValuesOfR39 := by
  unfold Obligations.ResetLeavesTheValuesOfR39
  refine ⟨fun k => ?world, fun i _ => fmEntry_reset i, ?sbaCount, ?sbaWord, fun j => ?zeroLayer, zeroChunk_width⟩
  case world => rw [reset_world, worldGet_nil]
  case sbaCount => rw [reset_sba]
  case sbaWord => rw [reset_sba, readCell_nil]
  case zeroLayer => rw [zeroChunk_layer, layerBit_emptyLayer]

end Sys2Proof.Proofs.Reset
end

section
/-!
SUPPORT and PROOFS. The one unit of state that each command may write (20_memory.md R68), and from it that the face mask
buffer is a snapshot which `FACE` alone renews (20_memory.md R67).
-/

namespace Sys2Proof.Proofs.Units

open Sys2Proof Sys2Proof.Machine

/-! ### What a command may write -/

/-- The units of 20_memory.md R68 that a command can write. -/
inductive Written where
  | nothing
  | sba
  | world
  | fm

/-- The unit that a command writes when it ends `OK`. -/
def writtenBy : Instr → Written
  | .baNew _ | .baSet _ | .baPut _ _ | .baClr _ | .baTgl _ | .baWrw _ _ => .sba
  | .chSet _ _ | .chUnset _ _ | .chTgl _ _ | .chFill _ _ | .chEmpty _ _ | .chMSet _ _ _ | .wIns _ _ | .wRem _ => .world
  | .face _ => .fm
  | _ => .nothing

/-- The state `s` with at most the unit `u` written. -/
inductive WrittenIn (s : State) : Written → State → Prop where
  | unchanged {u : Written} : WrittenIn s u s
  | sba (A : BitArray) : WrittenIn s .sba { s with sba := A }
  | world (w : World) : WrittenIn s .world { s with world := w }
  | fm (m : List Host.Cell) : WrittenIn s .fm { s with fm := m }

/-- The command ends with a response, from a state with at most the unit `u` written. -/
def EndsWriting (u : Written) (s : State) (r : Result) : Prop :=
  ∃ st results s', r = .next (respond st results s') ∧ WrittenIn s u s'

/-- Only `FACE` writes `FM` (20_memory.md R67). -/
theorem eq_face_of_writtenBy {i : Instr} (h : writtenBy i = .fm) : ∃ key, i = .face key := by
  cases i with
  | face key => exact ⟨key, rfl⟩
  | _ => cases h

theorem writtenIn_fm {u : Written} {s s' : State} (h : WrittenIn s u s') (hu : u ≠ .fm) : s'.fm = s.fm := by
  cases h with
  | unchanged | sba | world => rfl
  | fm m => exact absurd rfl hu

/-! ### The ways to end, and the preambles -/

section
variable {u : Written} {s : State}

theorem endsWriting_reply {s' : State} (results : List Word) (h : WrittenIn s u s') :
    EndsWriting u s (reply s' results) := ⟨.ok, results, s', rfl, h⟩

theorem endsWriting_raise (st : Status) : EndsWriting u s (raise st s) := ⟨st, [], s, rfl, .unchanged⟩

theorem endsWriting_answer (results : List Word) : EndsWriting u s (reply s results) :=
  endsWriting_reply results .unchanged

theorem endsWriting_ite {P : Prop} [Decidable P] {a b : Result} (ha : EndsWriting u s a) (hb : EndsWriting u s b) :
    EndsWriting u s (if P then a else b) := by
  split
  · exact ha
  · exact hb

theorem endsWriting_withKey (x : Word) {go : Key → Result} (h : ∀ k, EndsWriting u s (go k)) :
    EndsWriting u s (withKey x s go) := by
  by_cases hx : x.toNat < 2 ^ 30
  · rw [withKey_of_lt hx]; exact h _
  · rw [withKey_of_ge (by omega)]; exact endsWriting_raise _

theorem endsWriting_withVIdx (x : Word) {go : VIdx → Result} (h : ∀ k, EndsWriting u s (go k)) :
    EndsWriting u s (withVIdx x s go) := by
  by_cases hx : x.toNat ≤ 4095
  · rw [withVIdx_of_le hx]; exact h _
  · rw [withVIdx_of_gt (by omega)]; exact endsWriting_raise _

theorem endsWriting_withChunk (x : Word) {go : Key → Chunk → Result} (h : ∀ k c, EndsWriting u s (go k c)) :
    EndsWriting u s (withChunk x s go) := by
  obtain ⟨-, hr⟩ | ⟨-, -, hr⟩ | ⟨k, c, -, hr⟩ := withChunk_cases x s go <;> rw [hr]
  · exact endsWriting_raise _
  · exact endsWriting_raise _
  · exact h k c

theorem endsWriting_keyUnary (f : Key → Word) (x : Word) : EndsWriting u s (keyUnary f x s) :=
  endsWriting_withKey x fun _ => endsWriting_answer _

theorem endsWriting_keyBinary (f : Key → Key → Word) (x y : Word) : EndsWriting u s (keyBinary f x y s) :=
  endsWriting_withKey x fun _ => endsWriting_withKey y fun _ => endsWriting_answer _

theorem endsWriting_sbaRead (r : Option Word) : EndsWriting u s (sbaRead r s) := by
  cases r with
  | none => exact endsWriting_raise _
  | some v => exact endsWriting_answer _

theorem endsWriting_chunkRead (f : Chunk → Word) (x : Word) : EndsWriting u s (chunkRead f x s) :=
  endsWriting_withChunk x fun _ _ => endsWriting_answer _

end

theorem endsWriting_sbaUpdate (r : Option BitArray) (s : State) : EndsWriting .sba s (sbaUpdate r s) := by
  cases r with
  | none => exact endsWriting_raise _
  | some A => exact endsWriting_reply _ (.sba A)

/-! ### Every command -/

/-- Every command writes at most its own unit (20_memory.md R67, R68). -/
theorem exec_endsWriting (i : Instr) (s : State) : EndsWriting (writtenBy i) s (exec i s) := by
  cases i with
  | bitat | bitinv | setb | clrb | tglb | putb | popc | ispow2 | baPopc | lkFrom | mkFrom | viFrom | wiFrom | fmRd | gidx =>
    exact endsWriting_answer _
  | maskn | flat3 | flat2 | baRdw | gidxo => exact endsWriting_ite (endsWriting_raise _) (endsWriting_answer _)
  | baGet | baGetInv => exact endsWriting_sbaRead _
  | baSet | baPut | baClr | baTgl => exact endsWriting_sbaUpdate _ s
  | baNew | baWrw => exact endsWriting_ite (endsWriting_raise _) (endsWriting_reply _ (.sba _))
  | lkX | lkY | lkZ | lkIncX | lkDecX | lkIncY | lkDecY | lkIncZ | lkDecZ => exact endsWriting_keyUnary _ _
  | mkX | mkY | mkZ | mkIncX | mkDecX | mkIncY | mkDecY | mkIncZ | mkDecZ => exact endsWriting_keyUnary _ _
  | lkAdd | lkSub | lkCmp | mkAdd | mkSub | mkCmp => exact endsWriting_keyBinary _ _ _
  | viVKey | viBKey => exact endsWriting_withVIdx _ fun _ => endsWriting_answer _
  | viGetC => exact endsWriting_ite (endsWriting_raise _) (endsWriting_withVIdx _ fun _ => endsWriting_answer _)
  | viCmp => exact endsWriting_withVIdx _ fun _ => endsWriting_withVIdx _ fun _ => endsWriting_answer _
  | chGet | chCount | chLen | chMGet | wGet => exact endsWriting_chunkRead _ _
  | chSet | chUnset | chTgl | chFill | chEmpty | chMSet =>
    exact endsWriting_withChunk _ fun _ _ => endsWriting_reply _ (.world _)
  | wIns => exact endsWriting_withKey _ fun _ => endsWriting_reply _ (.world _)
  | wRem key =>
    refine endsWriting_withKey key fun k => ?_
    split
    · exact endsWriting_answer _
    · exact endsWriting_reply _ (.world _)
  | face => exact endsWriting_withChunk _ fun _ _ => endsWriting_reply _ (.fm _)
  | ray sx sy sz ex ey ez =>
    change EndsWriting _ s (execRay sx sy sz ex ey ez s)
    unfold execRay
    split
    · exact endsWriting_raise _
    · exact endsWriting_answer _

/-- The frame of `FM` (20_memory.md R67). -/
theorem fm_of_exec_of_ne_face {i : Instr} {s t : State} (h : exec i s = .next t) (hi : ∀ key, i ≠ .face key) :
    t.fm = s.fm := by
  have hu : writtenBy i ≠ .fm := fun hu => (eq_face_of_writtenBy hu).elim hi
  obtain ⟨st, results, s', hr, hw⟩ := exec_endsWriting i s
  obtain rfl : t = respond st results s' := Host.Outcome.next.inj (h.symm.trans hr)
  rw [respond_fm, writtenIn_fm hw hu]

/-! ### What `FACE` writes -/

/-- `FACE` on a stored chunk writes the masks of its layer against the six neighbours' layers (46_face_solver.md R274). -/
theorem exec_face_of_holds {s : State} {key : Word} {k : Key} {c : Chunk} (h : Holds s key k c) :
    exec (.face key) s = reply { s with fm := faceBuffer c.layer (neighbourLayer s.world k) } [] :=
  withChunk_of_holds h _

theorem fm_of_exec_face {s t : State} {key : Word} {k : Key} {c : Chunk} (h : Holds s key k c)
    (ht : exec (.face key) s = .next t) : t.fm = faceBuffer c.layer (neighbourLayer s.world k) := by
  obtain rfl := Host.Outcome.next.inj (ht.symm.trans (exec_face_of_holds h))
  rfl

/-- Settles O15: the frame of `FM`, and the formula of what `FACE` writes, which reads `WORLD` alone. -/
theorem faceMaskBufferIsASnapshot : Obligations.FaceMaskBufferIsASnapshot := by
  unfold Obligations.FaceMaskBufferIsASnapshot
  refine ⟨fun i s t h hi => fm_of_exec_of_ne_face h hi, ?_⟩
  intro key k c s s' t t' hs hworld ht ht'
  have ⟨hkey, hget⟩ := hs
  have hs' : Holds s' key k c := ⟨hkey, hworld ▸ hget⟩
  rw [fm_of_exec_face hs ht, fm_of_exec_face hs' ht', hworld]

end Sys2Proof.Proofs.Units
end

section
/-!
SUPPORT and PROOFS. Which header words the decoder takes: those that match a row of the opcode map, whose opcodes have no
duplicate (30_encoding.md R83, R86, R87); and from the row of a command's header, its length (30_encoding.md R90).
-/

namespace Sys2Proof.Proofs.Encoding

open Sys2Proof Sys2Proof.Machine

/-! ### The opcode map -/

/-- No opcode has two rows (30_encoding.md R86). -/
theorem nodup_opcodes : (opcodeMap.map OpRow.op).Nodup := by decide

/-- Looking up the opcode of a row finds that row. -/
theorem rowOf_of_mem {r : OpRow} (h : r ∈ opcodeMap) : rowOf r.op = some r := by
  have hfound : (rowOf r.op).isSome := List.find?_isSome.mpr ⟨r, h, beq_self_eq_true r.op⟩
  obtain ⟨r', hr'⟩ := Option.isSome_iff_exists.mp hfound
  obtain ⟨hop, hmem⟩ := rowOf_some hr'
  rw [hr', List.inj_on_of_nodup_map nodup_opcodes hmem h hop]

/-- The assigned opcodes are ten runs, one to a family but for `WI.FROM`, which stands by itself (30_encoding.md R86). -/
theorem opcodes_eq_runs : opcodeMap.map (fun r => r.op.toNat) =
    List.range' 0x01 11 ++ List.range' 0x10 10 ++ List.range' 0x20 13 ++ List.range' 0x30 13 ++ List.range' 0x40 5 ++
    List.range' 0x48 1 ++ List.range' 0x50 10 ++ List.range' 0x60 3 ++ List.range' 0x70 4 ++ List.range' 0x80 1 := by
  decide

theorem no_row_iff_not_mem_opcodes (op : BitVec 8) :
    (∀ r ∈ opcodeMap, r.op ≠ op) ↔ op.toNat ∉ opcodeMap.map fun r => r.op.toNat := by
  simp [← BitVec.toNat_inj]

/-! ### Headers that match a row -/

/-- Every format fixes all of the opcode and of the reserved byte (30_encoding.md R83). -/
@[simp] theorem headerOp_and_formatMask (h : Word) (f : Format) : headerOp (h &&& formatMask f) = headerOp h := by
  have hf : (formatMask f).extractLsb' 24 8 = BitVec.allOnes 8 := by cases f <;> rfl
  rw [headerOp, BitVec.extractLsb'_and, hf, BitVec.and_allOnes, headerOp]

@[simp] theorem headerReserved_and_formatMask (h : Word) (f : Format) :
    headerReserved (h &&& formatMask f) = headerReserved h := by
  have hf : (formatMask f).extractLsb' 16 8 = BitVec.allOnes 8 := by cases f <;> rfl
  rw [headerReserved, BitVec.extractLsb'_and, hf, BitVec.and_allOnes, headerReserved]

theorem headerOp_of_match {h : Word} {r : OpRow} (hm : h &&& formatMask r.format = rowMatch r) : headerOp h = r.op := by
  simpa [rowMatch] using congrArg headerOp hm

theorem headerReserved_of_match {h : Word} {r : OpRow} (hm : h &&& formatMask r.format = rowMatch r) :
    headerReserved h = 0 := by
  simpa [rowMatch] using congrArg headerReserved hm

/-- A header that matches a row is a command of that row, once the row's operand words are there. -/
theorem decode_of_match {h : Word} {r : OpRow} (hr : r ∈ opcodeMap) (hm : h &&& formatMask r.format = rowMatch r)
    (ws : List Word) :
    decode (h :: ws) =
      if ws.length < formatOperands r.format then .incomplete
      else .command (r.build (headerImm h) fun j => ws.getD j 0) (ws.drop (formatOperands r.format)) := by
  simp [decode, headerOp_of_match hm, rowOf_of_mem hr, headerReserved_of_match hm, hm]

theorem decode_ne_illegal_of_match {h : Word} (hm : MatchesSomeRow h) (ws rest : List Word) (why : IllegalHeader) :
    decode (h :: ws) ≠ .illegal why rest := by
  obtain ⟨r, hr, hm⟩ := hm
  rw [decode_of_match hr hm]
  split <;> nofun

/-- A header that matches no row is consumed alone (30_encoding.md R87, 60_exceptions.md R336). -/
theorem decode_of_not_match {h : Word} (hn : ¬ MatchesSomeRow h) (ws : List Word) :
    ∃ why, decode (h :: ws) = .illegal why ws := by
  cases hr : rowOf (headerOp h) with
  | none => exact ⟨_, decode_no_row hr ws⟩
  | some r =>
    have hm : h &&& formatMask r.format ≠ rowMatch r := fun hm => hn ⟨r, (rowOf_some hr).2, hm⟩
    by_cases h0 : headerReserved h = 0
    · exact ⟨.reservedField, by simp [decode, hr, h0, hm]⟩
    · exact ⟨.reservedByte, by simp only [decode, hr]; exact if_pos h0⟩

theorem step_of_illegal {s : State} {why : IllegalHeader} {rest : List Word} (h : decode s.cmdPort = .illegal why rest) :
    step s = raise .illegalCommand { s with cmdPort := rest } := by
  rw [step, h]

/-- Settles O3: the decoder takes exactly the headers that match a row, and the opcodes between the runs are those of R87. -/
theorem headerIsIllegalExactlyWhenNoRowMatches : Obligations.HeaderIsIllegalExactlyWhenNoRowMatches := by
  unfold Obligations.HeaderIsIllegalExactlyWhenNoRowMatches
  refine ⟨fun h ws hm why rest => decode_ne_illegal_of_match hm ws rest why, ?answered, ?unassigned⟩
  case answered =>
    intro s h rest hn
    obtain ⟨why, hd⟩ := decode_of_not_match hn rest
    exact step_of_illegal (s := { s with cmdPort := h :: rest }) hd
  case unassigned =>
    intro op
    have hlt := op.isLt
    rw [no_row_iff_not_mem_opcodes, opcodes_eq_runs]
    simp only [List.mem_append, List.mem_range'_1]
    omega

/-! ### The length of a command -/

open Laws.RowOfEncoding in
/-- The words of every command are those of one row (30_encoding.md R83, R86). -/
theorem rowOfEncoding (i : Instr) : Statement i :=
  match i with
  | .bitat .. => bitat _ _ | .bitinv .. => bitinv _ _ | .setb .. => setb _ _ | .clrb .. => clrb _ _
  | .tglb .. => tglb _ _ | .putb .. => putb _ _ _ | .maskn _ => maskn _ | .popc _ => popc _ | .ispow2 _ => ispow2 _
  | .flat3 .. => flat3 _ _ _ _ | .flat2 .. => flat2 _ _ _
  | .baNew _ => baNew _ | .baGet _ => baGet _ | .baGetInv _ => baGetInv _ | .baSet _ => baSet _
  | .baPut .. => baPut _ _ | .baClr _ => baClr _ | .baTgl _ => baTgl _ | .baPopc => baPopc | .baRdw _ => baRdw _
  | .baWrw .. => baWrw _ _
  | .lkFrom .. => lkFrom _ _ _ | .lkX _ => lkX _ | .lkY _ => lkY _ | .lkZ _ => lkZ _
  | .lkIncX _ => lkIncX _ | .lkDecX _ => lkDecX _ | .lkIncY _ => lkIncY _ | .lkDecY _ => lkDecY _
  | .lkIncZ _ => lkIncZ _ | .lkDecZ _ => lkDecZ _
  | .lkAdd .. => lkAdd _ _ | .lkSub .. => lkSub _ _ | .lkCmp .. => lkCmp _ _
  | .mkFrom .. => mkFrom _ _ _ | .mkX _ => mkX _ | .mkY _ => mkY _ | .mkZ _ => mkZ _
  | .mkIncX _ => mkIncX _ | .mkDecX _ => mkDecX _ | .mkIncY _ => mkIncY _ | .mkDecY _ => mkDecY _
  | .mkIncZ _ => mkIncZ _ | .mkDecZ _ => mkDecZ _
  | .mkAdd .. => mkAdd _ _ | .mkSub .. => mkSub _ _ | .mkCmp .. => mkCmp _ _
  | .viFrom .. => viFrom _ _ _ _ _ _ | .viVKey _ => viVKey _ | .viBKey _ => viBKey _ | .viGetC .. => viGetC _ _
  | .viCmp .. => viCmp _ _ | .wiFrom .. => wiFrom _ _ _
  | .chSet .. => chSet _ _ | .chUnset .. => chUnset _ _ | .chTgl .. => chTgl _ _ | .chGet .. => chGet _ _
  | .chFill .. => chFill _ _ | .chEmpty .. => chEmpty _ _ | .chCount .. => chCount _ _ | .chLen _ => chLen _
  | .chMGet .. => chMGet _ _ | .chMSet .. => chMSet _ _ _
  | .wIns .. => wIns _ _ | .wGet _ => wGet _ | .wRem _ => wRem _
  | .face _ => face _ | .fmRd _ => fmRd _ | .gidx _ => gidx _ | .gidxo .. => gidxo _ _ | .ray .. => ray _ _ _ _ _ _

/-- The row of a command's header gives its length. -/
theorem length_encode (i : Instr) : ∃ r, rowOf (headerOp ((encode i).headD 0)) = some r ∧
    (encode i).length = 1 + formatOperands r.format := by
  obtain ⟨op, r, imm, xs, hr, he, -, hx⟩ := rowOfEncoding i
  refine ⟨r, ?_, ?_⟩
  · rw [he, List.headD_cons, headerOp_headerWord, hr]
  · rw [he, List.length_cons, hx, Nat.add_comm]

/-- The operand-word counts of 30_encoding.md R83. -/
theorem formatOperands_values (f : Format) : formatOperands f = 0 ∨ formatOperands f = 1 ∨ formatOperands f = 2 ∨
    formatOperands f = 3 ∨ formatOperands f = 6 := by
  cases f <;> decide

/-- Settles O4: commands of one opcode have one row, and the row gives the length. -/
theorem commandLengthFollowsFromTheOpcode : Obligations.CommandLengthFollowsFromTheOpcode := by
  unfold Obligations.CommandLengthFollowsFromTheOpcode
  intro i
  obtain ⟨r, hr, hlen⟩ := length_encode i
  refine ⟨?lengths, ?row, ?sameOpcode⟩
  case lengths =>
    have hvalues := formatOperands_values r.format
    omega
  case row =>
    obtain ⟨hop, hmem⟩ := rowOf_some hr
    exact ⟨r, hmem, hop, hlen⟩
  case sameOpcode =>
    intro j hij
    obtain ⟨r', hr', hlen'⟩ := length_encode j
    obtain rfl : r = r' := Option.some.inj (by rw [← hr, hij, hr'])
    rw [hlen, hlen']

end Sys2Proof.Proofs.Encoding
end

section
/-!
SUPPORT. Which words on the port are a command, from its row: the step from the decoder's lemma `decode_command` to the
`CommandIs` of the statements (30_encoding.md R81, R83, R86).
-/

namespace Sys2Proof.Proofs.CommandWords

open Sys2Proof Sys2Proof.Machine

section
variable {op : BitVec 8} {r : OpRow} {xs : List Word} {i : Instr}

/-- The words that a row's command is made of are that command, whatever words come after them. -/
theorem commandIs_of_row (hr : rowOf op = some r) {imm : BitVec 16} (h0 : imm &&& immMask r.format = 0#16)
    (hx : xs.length = formatOperands r.format) (hb : ∀ rest, r.build imm (fun j => (xs ++ rest).getD j 0) = i) :
    CommandIs op.toNat imm.toNat xs i := by
  intro rest
  rw [← headerWord_eq_ofNat, decode_command hr h0 xs rest hx, hb]

/-- For the formats that assign no bit of `imm16`. -/
theorem commandIs_no_field (hr : rowOf op = some r) (hx : xs.length = formatOperands r.format)
    (hb : ∀ rest, r.build 0#16 (fun j => (xs ++ rest).getD j 0) = i) : CommandIs op.toNat 0 xs i :=
  commandIs_of_row (imm := 0#16) hr BitVec.zero_and hx hb

/-- For the formats whose one field `p` is the low end of `imm16`. -/
theorem commandIs_low_field {w : Nat} {p : BitVec w} (hr : rowOf op = some r)
    (hm : immMask r.format = BitVec.allOnes 16 <<< w) (hx : xs.length = formatOperands r.format) (hw : w ≤ 16)
    (hb : ∀ m : BitVec 16, m.extractLsb' 0 w = p → ∀ rest, r.build m (fun j => (xs ++ rest).getD j 0) = i) :
    CommandIs op.toNat p.toNat xs i := by
  rw [← BitVec.toNat_setWidth_of_le (b := p) hw]
  exact commandIs_of_row hr (hm ▸ setWidth_and_high p) hx (hb _ (extract_setWidth hw p))

end

end Sys2Proof.Proofs.CommandWords
end

section
/-!
SUPPORT and PROOFS. The BitOps commands of 40_bitops.md: the numbers that their bits make (R110, R111, R119, R120), the
powers of two (R118), and the text forms, whose value is known by its bits (R122, R123).
-/

namespace Sys2Proof.Proofs.BitOps

open Sys2Proof Sys2Proof.Machine Sys2Proof.Proofs.CommandWords

/-! ### The words of the commands -/

theorem commandIs_bitat (p : BitVec 5) (d : Word) : CommandIs 0x01 p.toNat [d] (.bitat p d) :=
  commandIs_low_field (op := 0x01#8) rfl rfl rfl (by decide) fun _ hp _ => congrArg (Instr.bitat · d) hp

theorem commandIs_bitinv (p : BitVec 5) (d : Word) : CommandIs 0x02 p.toNat [d] (.bitinv p d) :=
  commandIs_low_field (op := 0x02#8) rfl rfl rfl (by decide) fun _ hp _ => congrArg (Instr.bitinv · d) hp

/-- The `imm16` of `PUTB`: the position in the low 5 bits, the value at bit 8 (30_encoding.md R83, format PB1). -/
def putbImm (p : BitVec 5) (b : BitVec 1) : BitVec 16 := p.setWidth 16 ||| (b.setWidth 16 <<< 8)

theorem encode_putb (p : BitVec 5) (b : BitVec 1) (d : Word) :
    encode (.putb p b d) = headerWord 0x06#8 (putbImm p b) :: [d] := rfl

theorem toNat_putbImm (p : BitVec 5) (b : BitVec 1) : (putbImm p b).toNat = p.toNat + 2 ^ 8 * b.toNat := by
  revert p b; decide

theorem putbImm_and_mask (p : BitVec 5) (b : BitVec 1) : putbImm p b &&& immMask .PB1 = 0#16 := by revert p b; decide

theorem putbImm_position (p : BitVec 5) (b : BitVec 1) : (putbImm p b).extractLsb' 0 5 = p := by revert p b; decide

theorem putbImm_value (p : BitVec 5) (b : BitVec 1) : (putbImm p b).extractLsb' 8 1 = b := by revert p b; decide

theorem commandIs_putb (p : BitVec 5) (b : BitVec 1) (d : Word) :
    CommandIs 0x06 (p.toNat + 2 ^ 8 * b.toNat) [d] (.putb p b d) := by
  rw [← toNat_putbImm]
  exact commandIs_of_row (op := 0x06#8) rfl (putbImm_and_mask p b) rfl
    fun _ => congrArg₂ (Instr.putb · · d) (putbImm_position p b) (putbImm_value p b)

theorem commandIs_maskn (n : BitVec 6) : CommandIs 0x07 n.toNat [] (.maskn n) :=
  commandIs_low_field (op := 0x07#8) rfl rfl rfl (by decide) fun _ hn _ => congrArg Instr.maskn hn

theorem commandIs_popc (d : Word) : CommandIs 0x08 0 [d] (.popc d) :=
  commandIs_no_field (op := 0x08#8) rfl rfl fun _ => rfl

theorem commandIs_ispow2 (v : Word) : CommandIs 0x09 0 [v] (.ispow2 v) :=
  commandIs_no_field (op := 0x09#8) rfl rfl fun _ => rfl

theorem commandIs_flat3 (b : BitVec 4) (x y z : Word) : CommandIs 0x0A b.toNat [x, y, z] (.flat3 b x y z) :=
  commandIs_low_field (op := 0x0A#8) rfl rfl rfl (by decide) fun _ hb _ => congrArg (Instr.flat3 · x y z) hb

theorem commandIs_flat2 (b : BitVec 4) (x y : Word) : CommandIs 0x0B b.toNat [x, y] (.flat2 b x y) :=
  commandIs_low_field (op := 0x0B#8) rfl rfl rfl (by decide) fun _ hb _ => congrArg (Instr.flat2 · x y) hb

/-! ### How the commands end -/

section
variable (s : State)

theorem answers_bitat (p : BitVec 5) (d : Word) : Answers (.bitat p d) s [bitAt d p] := rfl
theorem answers_bitinv (p : BitVec 5) (d : Word) : Answers (.bitinv p d) s [bitInvAt d p] := rfl
theorem answers_setb (p : BitVec 5) (d : Word) : Answers (.setb p d) s [setBitAt d p] := rfl
theorem answers_clrb (p : BitVec 5) (d : Word) : Answers (.clrb p d) s [unsetBitAt d p] := rfl
theorem answers_putb (p : BitVec 5) (b : BitVec 1) (d : Word) : Answers (.putb p b d) s [putBitAt d p b] := rfl
theorem answers_popc (d : Word) : Answers (.popc d) s [BitVec.ofNat 32 (popcount d)] := rfl
theorem answers_ispow2 (v : Word) : Answers (.ispow2 v) s [if isPowerOfTwo v then 1#32 else 0#32] := rfl

theorem answers_maskn {n : BitVec 6} (h : n.toNat ≤ 32) : Answers (.maskn n) s [maskForBits n.toNat] :=
  if_neg (Nat.not_lt.2 h)

theorem raises_maskn {n : BitVec 6} (h : 32 < n.toNat) : Raises (.maskn n) s .illegalOperand := if_pos h

theorem answers_flat3 {b : BitVec 4} (h : b.toNat ≤ 10) (x y z : Word) :
    Answers (.flat3 b x y z) s [flattenCoord3 b.toNat x y z] := if_neg (Nat.not_lt.2 h)

theorem raises_flat3 {b : BitVec 4} (h : 10 < b.toNat) (x y z : Word) : Raises (.flat3 b x y z) s .illegalOperand :=
  if_pos h

theorem answers_flat2 {b : BitVec 4} (h : b.toNat ≤ 10) (x y : Word) :
    Answers (.flat2 b x y) s [flattenCoord2 b.toNat x y] := if_neg (Nat.not_lt.2 h)

theorem raises_flat2 {b : BitVec 4} (h : 10 < b.toNat) (x y : Word) : Raises (.flat2 b x y) s .illegalOperand :=
  if_pos h

end

/-! ### Single bits -/

theorem bitWord_eq_ofNat (b : Bool) : bitWord b = BitVec.ofNat 32 b.toNat := by cases b <;> rfl

theorem bitWord_not_eq_ofNat (b : Bool) : bitWord (!b) = BitVec.ofNat 32 (1 - b.toNat) := by cases b <;> rfl

theorem toNat_getLsbD (d : Word) (n : Nat) : (d.getLsbD n).toNat = d.toNat / 2 ^ n % 2 := Nat.toNat_testBit _ _

theorem bitAt_eq_ofNat (d : Word) (p : BitVec 5) : bitAt d p = BitVec.ofNat 32 (d.toNat / 2 ^ p.toNat % 2) := by
  rw [bitAt_eq, bitWord_eq_ofNat, toNat_getLsbD]

theorem bitInvAt_eq_ofNat (d : Word) (p : BitVec 5) :
    bitInvAt d p = BitVec.ofNat 32 (1 - d.toNat / 2 ^ p.toNat % 2) := by
  rw [bitInvAt_eq, bitWord_not_eq_ofNat, toNat_getLsbD]

@[simp] theorem putBitAt_one (d : Word) (p : BitVec 5) : putBitAt d p 1#1 = setBitAt d p := by
  rw [putBitAt_eq, if_pos rfl]

@[simp] theorem putBitAt_zero (d : Word) (p : BitVec 5) : putBitAt d p 0#1 = unsetBitAt d p := by
  rw [putBitAt_eq, if_neg (by decide)]

/-- Settles O18: the bit reads as numbers, and the word of `PUTB` by its bits. -/
theorem singleBitReadsAndPut : Obligations.SingleBitReadsAndPut := by
  unfold Obligations.SingleBitReadsAndPut
  intro p b d s
  refine ⟨commandIs_bitat p d, ?bitat, commandIs_bitinv p d, ?bitinv, commandIs_putb p b d, putBitAt d p b,
    answers_putb s p b d, fun q hq => getLsbD_putBitAt d p b hq, ?set, ?clear⟩
  case bitat => rw [← bitAt_eq_ofNat]; exact answers_bitat s p d
  case bitinv => rw [← bitInvAt_eq_ofNat]; exact answers_bitinv s p d
  case set => rintro rfl; rw [putBitAt_one]; exact answers_setb s p d
  case clear => rintro rfl; rw [putBitAt_zero]; exact answers_clrb s p d

/-! ### Masks, counts, powers of two -/

/-- The formula of R118 on the word is the same formula on its number. -/
theorem and_sub_one_eq_zero_iff {v : Word} (hv : v ≠ 0#32) :
    v &&& (v - 1#32) = 0#32 ↔ v.toNat &&& (v.toNat - 1) = 0 := by
  have hpos : v.toNat ≠ 0 := fun h => hv (BitVec.eq_of_toNat_eq h)
  have hsub : (v - 1#32).toNat = v.toNat - 1 := BitVec.toNat_sub_of_le (show 1 ≤ v.toNat by omega)
  rw [← BitVec.toNat_inj, BitVec.toNat_and, hsub, BitVec.toNat_ofNat, Nat.zero_mod]

/-- The words of R118's formula are the powers of two. -/
theorem powerOfTwo_iff (v : Word) : (v ≠ 0#32 ∧ v &&& (v - 1#32) = 0#32) ↔ ∃ e : Nat, v.toNat = 2 ^ e :=
  calc (v ≠ 0#32 ∧ v &&& (v - 1#32) = 0#32)
    _ ↔ v ≠ 0#32 ∧ v.toNat &&& (v.toNat - 1) = 0 := and_congr_right and_sub_one_eq_zero_iff
    _ ↔ v.toNat ≠ 0 ∧ v.toNat &&& (v.toNat - 1) = 0 := and_congr_left' (BitVec.toNat_inj (y := 0#32)).not.symm
    _ ↔ ∃ e : Nat, v.toNat = 2 ^ e := Nat.ne_zero_and_sub_one_eq_zero_iff_isPowerOfTwo

theorem isPowerOfTwo_iff (v : Word) : isPowerOfTwo v = true ↔ v ≠ 0#32 ∧ v &&& (v - 1#32) = 0#32 := by
  simp [isPowerOfTwo]

/-- Settles O20: `MASKN` on both sides of 32, and `ISPOW2` by its formula, which a number meets when it is a power of two. -/
theorem masksAndPowersOfTwo : Obligations.MasksAndPowersOfTwo := by
  unfold Obligations.MasksAndPowersOfTwo
  refine ⟨fun n s => ⟨commandIs_maskn n, answers_maskn s, raises_maskn s⟩,
    fun v s => ⟨commandIs_ispow2 v, ?formula, powerOfTwo_iff v⟩⟩
  case formula =>
    simp only [← isPowerOfTwo_iff]
    exact answers_ispow2 s v

/-- Settles O21: the recursion of `popcount` counts the set positions. -/
theorem popcCountsTheSetBits : Obligations.PopcCountsTheSetBits := by
  unfold Obligations.PopcCountsTheSetBits
  intro d s
  have hcount : popcount d = ((Finset.range 32).filter fun q => d.getLsbD q = true).card := popcountBelow_eq_card d 32
  rw [← hcount]
  exact ⟨commandIs_popc d, answers_popc s d⟩

/-! ### Index flattening -/

/-- A shift is a product, cut to the word. -/
theorem shiftLeft_eq_ofNat (x : Word) (n : Nat) : x <<< n = BitVec.ofNat 32 (x.toNat * 2 ^ n) := by
  apply BitVec.eq_of_toNat_eq
  rw [BitVec.toNat_shiftLeft, Nat.shiftLeft_eq, BitVec.toNat_ofNat]

/-- Masking with `2^n - 1` keeps the low `n` bits. -/
theorem ofNat_and_mask (x n : Nat) : BitVec.ofNat 32 x &&& BitVec.ofNat 32 (2 ^ n - 1) = BitVec.ofNat 32 (x % 2 ^ n) := by
  rw [← BitVec.ofNat_and, Nat.and_two_pow_sub_one_eq_mod]

/-- The overlay of the whole inputs, not of their low `b` bits, is what is cut (R119). -/
theorem flattenCoord3_eq_ofNat (b : Nat) (x y z : Word) : flattenCoord3 b x y z =
    BitVec.ofNat 32 ((x.toNat * 2 ^ (2 * b) ||| y.toNat * 2 ^ b ||| z.toNat) % 2 ^ (3 * b)) := by
  rw [← ofNat_and_mask, BitVec.ofNat_or, BitVec.ofNat_or, ← shiftLeft_eq_ofNat, ← shiftLeft_eq_ofNat,
    BitVec.ofNat_toNat, BitVec.setWidth_eq, flattenCoord3]

/-- As `flattenCoord3_eq_ofNat`, with two inputs (R120). -/
theorem flattenCoord2_eq_ofNat (b : Nat) (x y : Word) : flattenCoord2 b x y =
    BitVec.ofNat 32 ((x.toNat * 2 ^ b ||| y.toNat) % 2 ^ (2 * b)) := by
  rw [← ofNat_and_mask, BitVec.ofNat_or, ← shiftLeft_eq_ofNat, BitVec.ofNat_toNat, BitVec.setWidth_eq, flattenCoord2]

/-- Settles O23: both commands on both sides of 10 bits. -/
theorem flattenedCoordinates : Obligations.FlattenedCoordinates := by
  unfold Obligations.FlattenedCoordinates
  intro b x y z s
  refine ⟨commandIs_flat3 b x y z, commandIs_flat2 b x y, fun hb => ?inRange,
    fun hb => ⟨raises_flat3 s hb x y z, raises_flat2 s hb x y⟩⟩
  case inRange =>
    rw [← flattenCoord3_eq_ofNat, ← flattenCoord2_eq_ofNat]
    exact ⟨answers_flat3 s hb x y z, answers_flat2 s hb x y⟩

/-! ### Text forms -/

theorem length_toBitString (w : Word) : (toBitString w).length = 32 := by simp [toBitString]

/-- The digit at `i` from the left is bit `31 - i` (R122). -/
theorem getElem?_toBitString (w : Word) {i : Nat} (hi : i < 32) :
    (toBitString w)[i]? = some (if w.getLsbD (31 - i) then '1' else '0') := by
  rw [toBitString, List.getElem?_map, List.getElem?_range hi, Option.map_some]

theorem all_binary_toBitString (w : Word) : ∀ c ∈ toBitString w, c = '0' ∨ c = '1' := by
  intro c hc
  obtain ⟨i, -, rfl⟩ := List.mem_map.1 hc
  cases w.getLsbD (31 - i)
  · exact .inl rfl
  · exact .inr rfl

/-- One more digit at the low end. -/
theorem bitStringValue_concat (cs : List Char) (c : Char) :
    bitStringValue (cs ++ [c]) = 2 * bitStringValue cs + (if c = '1' then 1 else 0) := by
  rw [bitStringValue, List.foldl_append]; rfl

/-- Bit `j` of the value says whether the digit at `j`, counted from the low end, is a 1. -/
theorem testBit_bitStringValue (cs : List Char) (j : Nat) :
    (bitStringValue cs).testBit j = decide (cs.reverse[j]? = some '1') := by
  induction cs using List.reverseRecOn generalizing j with
  | nil => simp [bitStringValue]
  | append_singleton cs c ih =>
    rw [bitStringValue_concat, List.reverse_concat]
    cases j with
    | zero => by_cases h : c = '1' <;> simp [h, Nat.testBit_zero]
    | succ j =>
      have hhalf : (2 * bitStringValue cs + if c = '1' then 1 else 0) / 2 = bitStringValue cs := by split <;> omega
      rw [Nat.testBit_succ, hhalf, ih, List.getElem?_cons_succ]

/-- `fromBitString` on the strings it is defined on (R123). -/
theorem fromBitString_of_binary {cs : List Char} (hlen : cs.length = 32) (hcs : ∀ c ∈ cs, c = '0' ∨ c = '1') :
    fromBitString cs = some (BitVec.ofNat 32 (bitStringValue cs)) :=
  if_pos ⟨hlen, List.all_eq_true.2 fun c hc => by simpa using hcs c hc⟩

/-- Bit `j` of the word that a string of 32 digits stands for is its digit at `31 - j`. -/
theorem getLsbD_ofNat_bitStringValue {cs : List Char} (hlen : cs.length = 32) {j : Nat} (hj : j < 32) :
    (BitVec.ofNat 32 (bitStringValue cs)).getLsbD j = decide (cs[31 - j]? = some '1') := by
  rw [BitVec.getLsbD_ofNat, testBit_bitStringValue, List.getElem?_reverse (hlen ▸ hj), hlen, decide_eq_true hj,
    Bool.true_and]

theorem ofNat_bitStringValue_toBitString (w : Word) : BitVec.ofNat 32 (bitStringValue (toBitString w)) = w := by
  apply BitVec.eq_of_getLsbD_eq
  intro j hj
  rw [getLsbD_ofNat_bitStringValue (length_toBitString w) hj, getElem?_toBitString w (by omega),
    Nat.sub_sub_self (show j ≤ 31 by omega)]
  cases w.getLsbD j <;> decide

theorem toBitString_ofNat_bitStringValue {cs : List Char} (hlen : cs.length = 32)
    (hcs : ∀ c ∈ cs, c = '0' ∨ c = '1') : toBitString (BitVec.ofNat 32 (bitStringValue cs)) = cs := by
  refine List.ext_getElem? fun i => ?_
  by_cases hi : i < 32
  · have hget : cs[i]? = some cs[i] := List.getElem?_eq_getElem (hlen ▸ hi)
    rw [getElem?_toBitString _ hi, getLsbD_ofNat_bitStringValue hlen (by omega),
      Nat.sub_sub_self (show i ≤ 31 by omega), hget]
    rcases hcs cs[i] (List.getElem_mem _) with h | h <;> rw [h] <;> decide
  · rw [List.getElem?_eq_none (by rw [length_toBitString]; omega), List.getElem?_eq_none (by omega)]

/-- Settles O24: the digits of a word by position, and either function undoes the other. -/
theorem bitStringsAreInverse : Obligations.BitStringsAreInverse := by
  unfold Obligations.BitStringsAreInverse
  refine ⟨fun w => ⟨length_toBitString w, fun i hi => getElem?_toBitString w hi, ?word⟩,
    fun cs hlen hcs => ⟨_, fromBitString_of_binary hlen hcs, toBitString_ofNat_bitStringValue hlen hcs⟩⟩
  case word =>
    rw [fromBitString_of_binary (length_toBitString w) (all_binary_toBitString w), ofNat_bitStringValue_toBitString]

end Sys2Proof.Proofs.BitOps
end

section
/-!
SUPPORT and PROOFS. The commands on the scratch BitArray of 41_bitarray.md, position by position: the two bit reads (R132,
R133), the four bit mutators as one case (R134 to R137), the population count (R138) and the word accesses (R139, R140).
-/

namespace Sys2Proof.Proofs.ScratchArray

open Sys2Proof Sys2Proof.Machine Sys2Proof.Proofs.CommandWords

/-! ### The words of the commands -/

theorem commandIs_baGet (pos : Word) : CommandIs 0x11 0 [pos] (.baGet pos) :=
  commandIs_no_field (op := 0x11#8) rfl rfl fun _ => rfl

theorem commandIs_baGetInv (pos : Word) : CommandIs 0x12 0 [pos] (.baGetInv pos) :=
  commandIs_no_field (op := 0x12#8) rfl rfl fun _ => rfl

theorem commandIs_baSet (pos : Word) : CommandIs 0x13 0 [pos] (.baSet pos) :=
  commandIs_no_field (op := 0x13#8) rfl rfl fun _ => rfl

theorem commandIs_baPut (b : BitVec 1) (pos : Word) : CommandIs 0x14 b.toNat [pos] (.baPut b pos) :=
  commandIs_low_field (op := 0x14#8) rfl rfl rfl (by decide) fun _ hb _ => congrArg (Instr.baPut · pos) hb

theorem commandIs_baClr (pos : Word) : CommandIs 0x15 0 [pos] (.baClr pos) :=
  commandIs_no_field (op := 0x15#8) rfl rfl fun _ => rfl

theorem commandIs_baTgl (pos : Word) : CommandIs 0x16 0 [pos] (.baTgl pos) :=
  commandIs_no_field (op := 0x16#8) rfl rfl fun _ => rfl

theorem commandIs_baPopc : CommandIs 0x17 0 [] .baPopc :=
  commandIs_no_field (op := 0x17#8) rfl rfl fun _ => rfl

theorem commandIs_baRdw (idx : Word) : CommandIs 0x18 0 [idx] (.baRdw idx) :=
  commandIs_no_field (op := 0x18#8) rfl rfl fun _ => rfl

theorem commandIs_baWrw (idx val : Word) : CommandIs 0x19 0 [idx, val] (.baWrw idx val) :=
  commandIs_no_field (op := 0x19#8) rfl rfl fun _ => rfl

/-! ### Reads of one bit -/

section
variable {i : Instr} {pos : Word} {s : State} {b : Bool}

/-- A read whose bit is `b` ends with that bit inside the array. -/
theorem answers_of_read {r : Option Word} (hi : exec i s = sbaRead r s)
    (hr : r = if 0 ≤ pos.toInt ∧ pos.toInt / 32 < (s.sba.n : Int) then some (bitWord b) else none)
    (h : PosInRange s.sba.n pos) : Answers i s [bitWord b] := by
  rw [Answers, hi, hr.trans (if_pos h), sbaRead, reply]

theorem raises_of_read {r : Option Word} (hi : exec i s = sbaRead r s)
    (hr : r = if 0 ≤ pos.toInt ∧ pos.toInt / 32 < (s.sba.n : Int) then some (bitWord b) else none)
    (h : ¬ PosInRange s.sba.n pos) : Raises i s .outOfRange := by
  rw [Raises, hi, hr.trans (if_neg h), sbaRead, raise]

end

/-- Settles O26: both reads are the bit that `arrayBitAt_eq` and `arrayBitInvAt_eq` give. -/
theorem scratchArrayBitReads : Obligations.ScratchArrayBitReads := by
  unfold Obligations.ScratchArrayBitReads
  intro pos s
  have hget := arrayBitAt_eq s.sba pos.toInt
  have hinv := arrayBitInvAt_eq s.sba pos.toInt
  exact ⟨commandIs_baGet pos, commandIs_baGetInv pos,
    fun h => ⟨answers_of_read rfl hget h, answers_of_read rfl hinv h⟩,
    fun h => ⟨raises_of_read rfl hget h, raises_of_read rfl hinv h⟩⟩

/-! ### Changes of one bit -/

section
variable {i : Instr} {pos : Word} {s : State} {f : Word → BitVec 5 → Word}

/-- A mutator that acts on one bit of a word as `g` acts so on the position `pos` of `SBA`, and on no other. -/
theorem sbaBecomes_of_modify (hi : exec i s = sbaUpdate (arrayModify f s.sba pos.toInt) s) (g : Bool → Bool)
    (hf : ∀ (d : Word) (p : BitVec 5) {q : Nat}, q < 32 →
      (f d p).getLsbD q = if q = p.toNat then g (d.getLsbD q) else d.getLsbD q)
    (h : PosInRange s.sba.n pos) :
    SbaBecomes i s fun q => if q = pos.toInt.toNat then g (arrayBit s.sba q) else arrayBit s.sba q := by
  obtain ⟨A, hA, hn, hbits⟩ := arrayModify_some hf h
  exact ⟨A, by rw [hi, hA, sbaUpdate, reply], hn, hbits⟩

theorem raises_of_modify (hi : exec i s = sbaUpdate (arrayModify f s.sba pos.toInt) s)
    (h : ¬ PosInRange s.sba.n pos) : Raises i s .outOfRange := by
  rw [Raises, hi, arrayModify_none h, sbaUpdate, raise]

end

/-- Settles O27: the four mutators are `arrayModify` of the four single-bit functions, whose action on a word the laws of
BitOps give. -/
theorem scratchArrayBitWrites : Obligations.ScratchArrayBitWrites := by
  unfold Obligations.ScratchArrayBitWrites
  intro pos b s
  refine ⟨commandIs_baSet pos, commandIs_baPut b pos, commandIs_baClr pos, commandIs_baTgl pos,
    fun h => ⟨?set, ?put, ?clr, ?tgl⟩, fun h => ?outside⟩
  case set => exact sbaBecomes_of_modify rfl (fun _ => true) getLsbD_setBitAt h
  case put => exact sbaBecomes_of_modify rfl (fun _ => b == 1#1) (getLsbD_putBitAt · · b) h
  case clr => exact sbaBecomes_of_modify rfl (fun _ => false) getLsbD_unsetBitAt h
  case tgl => exact sbaBecomes_of_modify rfl (fun v => !v) getLsbD_toggleBitAt h
  case outside =>
    exact ⟨raises_of_modify rfl h, raises_of_modify rfl h, raises_of_modify rfl h, raises_of_modify rfl h⟩

/-! ### The population count -/

theorem sba_wf_of_invariant {s : State} (h : Invariant s = true) : cellsWf s.sba.n s.sba.words = true := by
  simp only [Invariant, Memory.wf, Bool.and_eq_true] at h
  obtain ⟨⟨⟨-, hsba⟩, -⟩, -⟩ := h
  exact hsba

/-- In the canonical form the population count is the number of set positions. -/
theorem arrayPopCount_eq_card {A : BitArray} (h : cellsWf A.n A.words = true) :
    arrayPopCount A = ((Finset.range (32 * A.n)).filter fun q => arrayBit A q = true).card := by
  rw [arrayPopCount_eq_sum h, sum_popcount_eq_card]

theorem answers_baPopc (s : State) : Answers .baPopc s [BitVec.ofNat 32 (arrayPopCount s.sba)] := rfl

/-- Settles O28: the invariant gives the canonical form, in which the sum over the listed words counts every position. -/
theorem scratchArrayPopulation : Obligations.ScratchArrayPopulation := by
  unfold Obligations.ScratchArrayPopulation
  intro s hs
  rw [← arrayPopCount_eq_card (sba_wf_of_invariant hs)]
  exact ⟨commandIs_baPopc, answers_baPopc s⟩

/-! ### Whole words -/

/-- Bit `p` of word `j` is position `32*j + p`. -/
theorem getLsbD_word_eq_arrayBit (A : BitArray) (j : Nat) {p : Nat} (hp : p < 32) :
    (readCell A.words j).getLsbD p = arrayBit A (32 * j + p) := by
  rw [arrayBit, show (32 * j + p) / 32 = j by omega, show (32 * j + p) % 32 = p by omega]

section
variable {idx : Word} {s : State}

theorem answers_baRdw (h : idx.toNat < s.sba.n) : Answers (.baRdw idx) s [readCell s.sba.words idx.toNat] :=
  if_neg (Nat.not_le.2 h)

theorem raises_baRdw (h : s.sba.n ≤ idx.toNat) : Raises (.baRdw idx) s .illegalOperand := if_pos h

theorem exec_baWrw_of_lt (h : idx.toNat < s.sba.n) (val : Word) : exec (.baWrw idx val) s =
    .next (respond .ok [] { s with sba := { s.sba with words := writeCell s.sba.words idx.toNat val } }) :=
  if_neg (Nat.not_le.2 h)

theorem raises_baWrw (h : s.sba.n ≤ idx.toNat) (val : Word) : Raises (.baWrw idx val) s .illegalOperand := if_pos h

end

/-- Settles O29: `BA.RDW` is a read of the cell and `BA.WRW` a write of it, which `readCell_writeCell` confines to `idx`. -/
theorem scratchArrayWordAccess : Obligations.ScratchArrayWordAccess := by
  unfold Obligations.ScratchArrayWordAccess
  intro idx val s
  refine ⟨commandIs_baRdw idx, commandIs_baWrw idx val, fun h => ⟨?read, ?write⟩,
    fun h => ⟨raises_baRdw h, raises_baWrw h val⟩⟩
  case read => exact ⟨_, answers_baRdw h, rfl, fun p hp => getLsbD_word_eq_arrayBit s.sba idx.toNat hp⟩
  case write => exact ⟨_, exec_baWrw_of_lt h val, rfl, fun j => readCell_writeCell s.sba.words idx.toNat j val⟩

end Sys2Proof.Proofs.ScratchArray
end

section
/-!
SUPPORT and PROOFS. The spatial keys of 42_spatial_keys.md: how a command on keys ends (R185), the Linear keys by the numbers
of their three fields (R151, R156 to R167), the compaction ladder and the Morton accessors (R155, R170 to R173), and the
three comparisons (R168, R182, R207).
-/

namespace Sys2Proof.Proofs.SpatialKeys

open Sys2Proof Sys2Proof.Machine Sys2Proof.Proofs.CommandWords

/-! ### The words of the commands -/

section
variable (a b k x y z : Word)

theorem commandIs_lkFrom : CommandIs 0x20 0 [x, y, z] (.lkFrom x y z) :=
  commandIs_no_field (op := 0x20#8) rfl rfl fun _ => rfl

theorem commandIs_lkX : CommandIs 0x21 0 [k] (.lkX k) := commandIs_no_field (op := 0x21#8) rfl rfl fun _ => rfl
theorem commandIs_lkY : CommandIs 0x22 0 [k] (.lkY k) := commandIs_no_field (op := 0x22#8) rfl rfl fun _ => rfl
theorem commandIs_lkZ : CommandIs 0x23 0 [k] (.lkZ k) := commandIs_no_field (op := 0x23#8) rfl rfl fun _ => rfl
theorem commandIs_lkIncX : CommandIs 0x24 0 [k] (.lkIncX k) := commandIs_no_field (op := 0x24#8) rfl rfl fun _ => rfl
theorem commandIs_lkDecX : CommandIs 0x25 0 [k] (.lkDecX k) := commandIs_no_field (op := 0x25#8) rfl rfl fun _ => rfl
theorem commandIs_lkIncY : CommandIs 0x26 0 [k] (.lkIncY k) := commandIs_no_field (op := 0x26#8) rfl rfl fun _ => rfl
theorem commandIs_lkDecY : CommandIs 0x27 0 [k] (.lkDecY k) := commandIs_no_field (op := 0x27#8) rfl rfl fun _ => rfl
theorem commandIs_lkIncZ : CommandIs 0x28 0 [k] (.lkIncZ k) := commandIs_no_field (op := 0x28#8) rfl rfl fun _ => rfl
theorem commandIs_lkDecZ : CommandIs 0x29 0 [k] (.lkDecZ k) := commandIs_no_field (op := 0x29#8) rfl rfl fun _ => rfl
theorem commandIs_lkAdd : CommandIs 0x2A 0 [a, b] (.lkAdd a b) := commandIs_no_field (op := 0x2A#8) rfl rfl fun _ => rfl
theorem commandIs_lkSub : CommandIs 0x2B 0 [a, b] (.lkSub a b) := commandIs_no_field (op := 0x2B#8) rfl rfl fun _ => rfl
theorem commandIs_lkCmp : CommandIs 0x2C 0 [a, b] (.lkCmp a b) := commandIs_no_field (op := 0x2C#8) rfl rfl fun _ => rfl

theorem commandIs_mkFrom : CommandIs 0x30 0 [x, y, z] (.mkFrom x y z) :=
  commandIs_no_field (op := 0x30#8) rfl rfl fun _ => rfl

theorem commandIs_mkX : CommandIs 0x31 0 [k] (.mkX k) := commandIs_no_field (op := 0x31#8) rfl rfl fun _ => rfl
theorem commandIs_mkY : CommandIs 0x32 0 [k] (.mkY k) := commandIs_no_field (op := 0x32#8) rfl rfl fun _ => rfl
theorem commandIs_mkZ : CommandIs 0x33 0 [k] (.mkZ k) := commandIs_no_field (op := 0x33#8) rfl rfl fun _ => rfl
theorem commandIs_mkCmp : CommandIs 0x3C 0 [a, b] (.mkCmp a b) := commandIs_no_field (op := 0x3C#8) rfl rfl fun _ => rfl
theorem commandIs_viCmp : CommandIs 0x44 0 [a, b] (.viCmp a b) := commandIs_no_field (op := 0x44#8) rfl rfl fun _ => rfl

end

/-! ### How the commands on keys end -/

section
variable {i : Instr} {s : State} {x y : Word}

theorem answers_of_keyUnary {f : Key → Word} (hi : exec i s = keyUnary f x s) (hx : x.toNat < 2 ^ 30) :
    Answers i s [f (x.setWidth 30)] := by
  rw [Answers, hi, keyUnary, withKey_of_lt hx, reply]

theorem raises_of_keyUnary {f : Key → Word} (hi : exec i s = keyUnary f x s) (hx : 2 ^ 30 ≤ x.toNat) :
    Raises i s .illegalOperand := by
  rw [Raises, hi, keyUnary, withKey_of_ge hx, raise]

theorem answers_of_keyBinary {f : Key → Key → Word} (hi : exec i s = keyBinary f x y s) (hx : x.toNat < 2 ^ 30)
    (hy : y.toNat < 2 ^ 30) : Answers i s [f (x.setWidth 30) (y.setWidth 30)] := by
  rw [Answers, hi, keyBinary, withKey_of_lt hx, withKey_of_lt hy, reply]

/-- Whichever operand is no key, the command ends in the same way. -/
theorem raises_of_keyBinary {f : Key → Key → Word} (hi : exec i s = keyBinary f x y s)
    (h : 2 ^ 30 ≤ x.toNat ∨ 2 ^ 30 ≤ y.toNat) : Raises i s .illegalOperand := by
  rw [Raises, hi, keyBinary]
  rcases Nat.lt_or_ge x.toNat (2 ^ 30) with hx | hx
  · rw [withKey_of_lt hx, withKey_of_ge (h.resolve_left hx.not_ge), raise]
  · rw [withKey_of_ge hx, raise]

end

/-! ### Comparisons (42_spatial_keys.md R168, R182; 43_voxel_index.md R207) -/

/-- Cutting both operands to a width that holds them does not change their order. -/
theorem compareWord_setWidth {w : Nat} {a b : Word} (ha : a.toNat < 2 ^ w) (hb : b.toNat < 2 ^ w) :
    compareWord (a.setWidth w) (b.setWidth w) = compareWord a b := by
  rw [compareWord, BitVec.toNat_setWidth, BitVec.toNat_setWidth, Nat.mod_eq_of_lt ha, Nat.mod_eq_of_lt hb, compareWord]

section
variable {i : Instr} {s : State} {a b : Word}

theorem answers_of_keyCompare (hi : exec i s = keyBinary (fun a b => compareWord a b) a b s) (ha : a.toNat < 2 ^ 30)
    (hb : b.toNat < 2 ^ 30) : Answers i s [compareWord a b] := by
  rw [← compareWord_setWidth ha hb]
  exact answers_of_keyBinary hi ha hb

theorem exec_viCmp (a b : Word) (s : State) : exec (.viCmp a b) s =
    withVIdx a s fun a => withVIdx b s fun b => reply s [compareWord a b] := rfl

theorem answers_viCmp (ha : a.toNat ≤ 4095) (hb : b.toNat ≤ 4095) : Answers (.viCmp a b) s [compareWord a b] := by
  rw [Answers, exec_viCmp, withVIdx_of_le ha, withVIdx_of_le hb, reply,
    compareWord_setWidth (Nat.lt_succ_of_le ha) (Nat.lt_succ_of_le hb)]

theorem raises_viCmp (h : 4095 < a.toNat ∨ 4095 < b.toNat) : Raises (.viCmp a b) s .illegalOperand := by
  rw [Raises, exec_viCmp]
  rcases Nat.lt_or_ge 4095 a.toNat with ha | ha
  · rw [withVIdx_of_gt ha, raise]
  · rw [withVIdx_of_le ha, withVIdx_of_gt (h.resolve_left ha.not_gt), raise]

end

/-- Settles O33: the two key comparisons are one case, and `VI.CMP` is the same word on narrower operands. -/
theorem comparisonsOfScalars : Obligations.ComparisonsOfScalars := by
  unfold Obligations.ComparisonsOfScalars
  intro a b s
  exact ⟨commandIs_lkCmp a b, commandIs_mkCmp a b, commandIs_viCmp a b,
    fun ha hb => ⟨answers_of_keyCompare rfl ha hb, answers_of_keyCompare rfl ha hb⟩,
    fun h => ⟨raises_of_keyBinary rfl h, raises_of_keyBinary rfl h⟩, answers_viCmp, raises_viCmp⟩

/-! ### Axes as numbers -/

/-- A number below 1024 is an axis. -/
theorem exists_axis {n : Nat} (h : n < 1024) : ∃ v : Axis, v.toNat = n := ⟨BitVec.ofNatLT n h, rfl⟩

theorem toNat_axisOf_eq (v : Int) : (axisOf v).toNat = (v % 1024).toNat := by
  rw [← toNat_axisOf, Int.toNat_natCast]

theorem toNat_axis_add_one (v : Axis) : (v + 1#10).toNat = (v.toNat + 1) % 1024 := BitVec.toNat_add v 1#10

theorem toNat_axis_add (v w : Axis) : (v + w).toNat = (v.toNat + w.toNat) % 1024 := BitVec.toNat_add v w

theorem toNat_axis_sub (v w : Axis) : (v - w).toNat = (v.toNat + 1024 - w.toNat) % 1024 := by
  have hw := w.isLt
  rw [BitVec.toNat_sub]
  congr 1
  omega

theorem toNat_axis_sub_one (v : Axis) : (v - 1#10).toNat = (v.toNat + 1023) % 1024 := toNat_axis_sub v 1#10

/-! ### Linear keys (42_spatial_keys.md R151) -/

/-- The scalar of a Linear key is the place value of its three axes. -/
theorem resultWord_linearKey (t : Triple) : resultWord (linearKey t) = linearWord t.x.toNat t.y.toNat t.z.toNat := by
  rw [resultWord, ← BitVec.ofNat_toNat, toNat_linearKey, linearWord]

@[simp] theorem linearTriple_linearKey (t : Triple) : linearTriple (linearKey t) = t := by
  have hy := t.y.isLt
  have hz := t.z.isLt
  have ex : (linearTriple (linearKey t)).x = t.x :=
    BitVec.eq_of_toNat_eq (by rw [linearTriple_x, toNat_linearKey]; omega)
  have ey : (linearTriple (linearKey t)).y = t.y :=
    BitVec.eq_of_toNat_eq (by rw [linearTriple_y, toNat_linearKey]; omega)
  have ez : (linearTriple (linearKey t)).z = t.z :=
    BitVec.eq_of_toNat_eq (by rw [linearTriple_z, toNat_linearKey]; omega)
  exact Triple.mk.injEq .. ▸ ⟨ex, ey, ez⟩

@[simp] theorem linearKey_linearTriple (k : Key) : linearKey (linearTriple k) = k := by
  apply BitVec.eq_of_toNat_eq
  rw [toNat_linearKey, linearTriple_x, linearTriple_y, linearTriple_z]
  omega

/-- A word that three numbers below 1024 make by place value is the Linear key of three axes. -/
theorem exists_triple_of_linearWord {k : Word} {x y z : Nat} (hx : x < 1024) (hy : y < 1024) (hz : z < 1024)
    (hk : k = linearWord x y z) :
    ∃ t : Triple, t.x.toNat = x ∧ t.y.toNat = y ∧ t.z.toNat = z ∧ (linearKey t).setWidth 32 = k := by
  obtain ⟨u, rfl⟩ := exists_axis hx
  obtain ⟨v, rfl⟩ := exists_axis hy
  obtain ⟨w, rfl⟩ := exists_axis hz
  exact ⟨⟨u, v, w⟩, rfl, rfl, rfl, hk ▸ resultWord_linearKey _⟩

/-- Every key is the Linear key of three axes. -/
theorem exists_linearWord_of_lt {k : Word} (h : k.toNat < 2 ^ 30) :
    ∃ x y z : Nat, x < 1024 ∧ y < 1024 ∧ z < 1024 ∧ k = linearWord x y z := by
  obtain ⟨t, ht⟩ : ∃ t, linearKey t = k.setWidth 30 := ⟨_, linearKey_linearTriple _⟩
  refine ⟨_, _, _, t.x.isLt, t.y.isLt, t.z.isLt, ?_⟩
  rw [← resultWord_linearKey, ht]
  exact word_of_key h

section
variable {i : Instr} {s : State} {t u : Triple}

theorem answers_of_linearAxis {f : Triple → Axis}
    (hi : exec i s = keyUnary (fun k => resultWord (f (linearTriple k))) ((linearKey t).setWidth 32) s) :
    Answers i s [BitVec.ofNat 32 (f t).toNat] := by
  rw [Answers, hi, keyUnary, withKey_key, linearTriple_linearKey, resultWord, BitVec.ofNat_toNat, reply]

theorem answers_of_linearUnary {f : Triple → Triple}
    (hi : exec i s = linearUnary f ((linearKey t).setWidth 32) s) :
    Answers i s [linearWord (f t).x.toNat (f t).y.toNat (f t).z.toNat] := by
  rw [Answers, hi, linearUnary, keyUnary, withKey_key, linearTriple_linearKey, resultWord_linearKey, reply]

theorem answers_of_linearBinary {f : Triple → Triple → Triple}
    (hi : exec i s = keyBinary (fun a b => resultWord (linearKey (f (linearTriple a) (linearTriple b))))
      ((linearKey t).setWidth 32) ((linearKey u).setWidth 32) s) :
    Answers i s [linearWord (f t u).x.toNat (f t u).y.toNat (f t u).z.toNat] := by
  rw [Answers, hi, keyBinary, withKey_key, withKey_key, linearTriple_linearKey, linearTriple_linearKey,
    resultWord_linearKey, reply]

end

/-- Settles O31: a key is the Linear key of a triple, on which the nine commands act by axis. -/
theorem linearAccessorsAndSteps : Obligations.LinearAccessorsAndSteps := by
  unfold Obligations.LinearAccessorsAndSteps
  intro k s
  refine ⟨commandIs_lkX k, commandIs_lkY k, commandIs_lkZ k, commandIs_lkIncX k, commandIs_lkDecX k, commandIs_lkIncY k,
    commandIs_lkDecY k, commandIs_lkIncZ k, commandIs_lkDecZ k, fun x y z hx hy hz hk => ?onKeys, exists_linearWord_of_lt,
    fun hk f hf => ?noKey⟩
  case onKeys =>
    obtain ⟨t, rfl, rfl, rfl, rfl⟩ := exists_triple_of_linearWord hx hy hz hk
    simp only [← toNat_axis_add_one, ← toNat_axis_sub_one]
    exact ⟨answers_of_linearAxis (f := Triple.x) rfl, answers_of_linearAxis (f := Triple.y) rfl,
      answers_of_linearAxis (f := Triple.z) rfl,
      answers_of_linearUnary (f := fun t => { t with x := t.x + 1#10 }) rfl,
      answers_of_linearUnary (f := fun t => { t with x := t.x - 1#10 }) rfl,
      answers_of_linearUnary (f := fun t => { t with y := t.y + 1#10 }) rfl,
      answers_of_linearUnary (f := fun t => { t with y := t.y - 1#10 }) rfl,
      answers_of_linearUnary (f := fun t => { t with z := t.z + 1#10 }) rfl,
      answers_of_linearUnary (f := fun t => { t with z := t.z - 1#10 }) rfl⟩
  case noKey => fin_cases hf <;> exact raises_of_keyUnary rfl hk

/-- Settles O32: the sum and the difference of two triples, axis by axis. -/
theorem linearSumsAndDifferences : Obligations.LinearSumsAndDifferences := by
  unfold Obligations.LinearSumsAndDifferences
  intro a b s
  refine ⟨commandIs_lkAdd a b, commandIs_lkSub a b, fun ax ay az bx bY bz hax hay haz hbx hbY hbz ha hb => ?onKeys,
    fun h => ⟨raises_of_keyBinary rfl h, raises_of_keyBinary rfl h⟩⟩
  case onKeys =>
    obtain ⟨t, rfl, rfl, rfl, rfl⟩ := exists_triple_of_linearWord hax hay haz ha
    obtain ⟨u, rfl, rfl, rfl, rfl⟩ := exists_triple_of_linearWord hbx hbY hbz hb
    simp only [← toNat_axis_add, ← toNat_axis_sub]
    exact ⟨answers_of_linearBinary (f := tripleAdd) rfl, answers_of_linearBinary (f := tripleSub) rfl⟩

/-! ### Morton keys (42_spatial_keys.md R152, R155) -/

/-- Bit `3*j + a` of a Morton key is bit `j` of axis `a` (R152). -/
theorem getLsbD_resultWord_mortonKey (t : Triple) {a j : Nat} (ha : a < 3) (hj : j < 10) :
    (resultWord (mortonKey t)).getLsbD (3 * j + a) = (tripleAxis t a).toNat.testBit j := by
  have hlane : (3 * j + a) % 3 = a := by omega
  have hbit : (3 * j + a) / 3 = j := by omega
  rw [resultWord, BitVec.getLsbD_setWidth, getLsbD_mortonKey, hlane, hbit, BitVec.testBit_toNat,
    decide_eq_true (show 3 * j + a < 32 by omega), decide_eq_true (show 3 * j + a < 30 by omega), Bool.true_and,
    Bool.true_and]

theorem answers_lkFrom (x y z : Word) (s : State) :
    Answers (.lkFrom x y z) s [resultWord (linearKey (tripleOf x.toInt y.toInt z.toInt))] := rfl

theorem answers_mkFrom (x y z : Word) (s : State) :
    Answers (.mkFrom x y z) s [resultWord (mortonKey (tripleOf x.toInt y.toInt z.toInt))] := rfl

/-- Settles O30: the axes of both constructors are the integers modulo 1024; the keys are known by place value and by bits. -/
theorem keyConstructorsWrapEachAxis : Obligations.KeyConstructorsWrapEachAxis := by
  unfold Obligations.KeyConstructorsWrapEachAxis
  intro x y z s
  simp only [← toNat_axisOf_eq]
  refine ⟨commandIs_lkFrom x y z, ?linear, commandIs_mkFrom x y z, _, answers_mkFrom x y z s, resultWord_key_lt _,
    fun j hj => ⟨?x, ?y, ?z⟩⟩
  case linear => exact resultWord_linearKey (tripleOf ..) ▸ answers_lkFrom x y z s
  case x => exact getLsbD_resultWord_mortonKey (tripleOf ..) (a := 0) (by decide) hj
  case y => exact getLsbD_resultWord_mortonKey (tripleOf ..) (a := 1) (by decide) hj
  case z => exact getLsbD_resultWord_mortonKey (tripleOf ..) (a := 2) (by decide) hj

/-- The compaction ladder gathers every third bit. It is a straight line of shifts and masks, so each of its 32 bits is
evaluated on its own. -/
theorem getLsbD_mortonCompact (v : Word) (q : Nat) : (mortonCompact v).getLsbD q = (decide (q < 10) && v.getLsbD (3 * q)) := by
  by_cases hq : q < 32
  · interval_cases q <;> simp [mortonCompact]
  · rw [BitVec.getLsbD_of_ge _ _ (Nat.le_of_not_lt hq), decide_eq_false (by omega), Bool.false_and]

/-- Shifting a key by `a` brings the bits of axis `a` to the places that the ladder gathers. -/
theorem mortonCompact_shift (k : Key) {a : Nat} (ha : a < 3) :
    mortonCompact (resultWord k >>> a) = BitVec.ofNat 32 (mortonAxis a k) := by
  apply BitVec.eq_of_getLsbD_eq
  intro q hq
  rw [getLsbD_mortonCompact, mortonAxis, BitVec.ofNat_toNat, BitVec.getLsbD_setWidth, BitVec.getLsbD_ofFnLE,
    BitVec.getLsbD_ushiftRight, resultWord, BitVec.getLsbD_setWidth]
  by_cases h : q < 10
  · have hpos : a + 3 * q < 32 := by omega
    simp [h, hq, hpos, Nat.add_comm]
  · simp [h]

theorem mortonX_eq (k : Key) : mortonX k = BitVec.ofNat 32 (mortonAxis 0 k) := mortonCompact_shift k (a := 0) (by decide)
theorem mortonY_eq (k : Key) : mortonY k = BitVec.ofNat 32 (mortonAxis 1 k) := mortonCompact_shift k (a := 1) (by decide)
theorem mortonZ_eq (k : Key) : mortonZ k = BitVec.ofNat 32 (mortonAxis 2 k) := mortonCompact_shift k (a := 2) (by decide)

/-- Settles O34: the ladder of each accessor is the axis read by its bits. -/
theorem mortonAccessorsReadTheLanes : Obligations.MortonAccessorsReadTheLanes := by
  unfold Obligations.MortonAccessorsReadTheLanes
  intro k s
  refine ⟨commandIs_mkX k, commandIs_mkY k, commandIs_mkZ k, fun hk => ?onKeys, fun hk f hf => ?noKey⟩
  case onKeys =>
    rw [← mortonX_eq, ← mortonY_eq, ← mortonZ_eq]
    exact ⟨answers_of_keyUnary rfl hk, answers_of_keyUnary rfl hk, answers_of_keyUnary rfl hk⟩
  case noKey => fin_cases hf <;> exact raises_of_keyUnary rfl hk

end Sys2Proof.Proofs.SpatialKeys
end

section
/-!
SUPPORT and PROOFS. VoxelIndex and WorldIndex (43_voxel_index.md): how a command on a `vidx` operand ends (R206), the fields
of a VoxelIndex as numbers (R200 to R205), and the parts of an integer cell axis by axis (R209).
-/

namespace Sys2Proof.Proofs.VoxelIndex

open Sys2Proof Sys2Proof.Machine Sys2Proof.Proofs.CommandWords

/-! ### The words of the commands -/

theorem commandIs_viFrom (vx vy vz bX bY bZ : Word) :
    CommandIs 0x40 0 [vx, vy, vz, bX, bY, bZ] (.viFrom vx vy vz bX bY bZ) :=
  commandIs_no_field (op := 0x40#8) rfl rfl fun _ => rfl

theorem commandIs_viVKey (k : Word) : CommandIs 0x41 0 [k] (.viVKey k) :=
  commandIs_no_field (op := 0x41#8) rfl rfl fun _ => rfl

theorem commandIs_viBKey (k : Word) : CommandIs 0x42 0 [k] (.viBKey k) :=
  commandIs_no_field (op := 0x42#8) rfl rfl fun _ => rfl

theorem commandIs_viGetC (sel : BitVec 3) (k : Word) : CommandIs 0x43 sel.toNat [k] (.viGetC sel k) :=
  commandIs_low_field (op := 0x43#8) rfl rfl rfl (by decide) fun _ hs _ => congrArg (Instr.viGetC · k) hs

theorem commandIs_wiFrom (wx wy wz : Word) : CommandIs 0x48 0 [wx, wy, wz] (.wiFrom wx wy wz) :=
  commandIs_no_field (op := 0x48#8) rfl rfl fun _ => rfl

/-! ### The fields as numbers (43_voxel_index.md R200 to R202) -/

theorem resultWord_eq_ofNat {w : Nat} (v : BitVec w) : resultWord v = BitVec.ofNat 32 v.toNat := (BitVec.ofNat_toNat ..).symm

theorem toNat_compOf_eq (v : Int) : (compOf v).toNat = (v % 4).toNat := by
  rw [← toNat_compOf, Int.toNat_natCast]

theorem toNat_vKeyOf (k : VIdx) : (vKeyOf k).toNat = k.toNat / 2 ^ 6 := by
  have hk := k.isLt
  rw [vKeyOf, BitVec.extractLsb'_toNat, Nat.shiftRight_eq_div_pow]
  omega

theorem toNat_bKeyOf (k : VIdx) : (bKeyOf k).toNat = k.toNat % 2 ^ 6 := by
  rw [bKeyOf, BitVec.extractLsb'_toNat, Nat.shiftRight_zero]

/-- A `vidx` operand within its bound keeps its number. -/
theorem toNat_vidx {k : Word} (hk : k.toNat ≤ 4095) : (k.setWidth 12 : VIdx).toNat = k.toNat := by
  rw [BitVec.toNat_setWidth, Nat.mod_eq_of_lt (Nat.lt_succ_of_le hk)]

/-! ### How the commands end -/

section
variable {i : Instr} {s : State} {k : Word} {w : Nat}

/-- A command that reads the field `f` of its `vidx` operand. -/
theorem answers_of_withVIdx {f : VIdx → BitVec w} (hi : exec i s = withVIdx k s fun k => reply s [resultWord (f k)])
    (hk : k.toNat ≤ 4095) : Answers i s [BitVec.ofNat 32 (f (k.setWidth 12)).toNat] := by
  rw [Answers, hi, withVIdx_of_le hk, resultWord_eq_ofNat, reply]

/-- A command whose meaning begins with the operand check fails as R206 says. -/
theorem raises_of_withVIdx {go : VIdx → Result} (hi : exec i s = withVIdx k s go) (hk : 4095 < k.toNat) :
    Raises i s .illegalOperand := by
  rw [Raises, hi, withVIdx_of_gt hk, raise]

theorem answers_viVKey (hk : k.toNat ≤ 4095) : Answers (.viVKey k) s [BitVec.ofNat 32 (k.toNat / 2 ^ 6)] := by
  rw [← toNat_vidx hk, ← toNat_vKeyOf]
  exact answers_of_withVIdx rfl hk

theorem answers_viBKey (hk : k.toNat ≤ 4095) : Answers (.viBKey k) s [BitVec.ofNat 32 (k.toNat % 2 ^ 6)] := by
  rw [← toNat_vidx hk, ← toNat_bKeyOf]
  exact answers_of_withVIdx rfl hk

variable {sel : BitVec 3}

theorem exec_viGetC_of_le (hs : sel.toNat ≤ 5) (k : Word) (s : State) : exec (.viGetC sel k) s =
    withVIdx k s fun k => reply s [resultWord (componentOf sel.toNat k)] := if_neg (Nat.not_lt.2 hs)

/-- A bad `sel` fails before the operand word is looked at (R205). -/
theorem raises_viGetC_of_sel (hs : 5 < sel.toNat) (k : Word) (s : State) : Raises (.viGetC sel k) s .illegalOperand :=
  if_pos hs

theorem answers_viGetC (hs : sel.toNat ≤ 5) (hk : k.toNat ≤ 4095) :
    Answers (.viGetC sel k) s [BitVec.ofNat 32 (k.toNat / 2 ^ (10 - 2 * sel.toNat) % 4)] := by
  rw [← toNat_vidx hk, ← toNat_componentOf]
  exact answers_of_withVIdx (exec_viGetC_of_le hs k s) hk

/-- A bad operand word fails whatever `sel` is. -/
theorem raises_viGetC_of_operand (hk : 4095 < k.toNat) : Raises (.viGetC sel k) s .illegalOperand := by
  rcases Nat.lt_or_ge 5 sel.toNat with hs | hs
  · exact raises_viGetC_of_sel hs k s
  · exact raises_of_withVIdx (exec_viGetC_of_le hs k s) hk

end

theorem answers_viFrom (vx vy vz bX bY bZ : Word) (s : State) : Answers (.viFrom vx vy vz bX bY bZ) s
    [resultWord (voxelIndex (compOf vx.toInt) (compOf vy.toInt) (compOf vz.toInt)
      (compOf bX.toInt) (compOf bY.toInt) (compOf bZ.toInt))] := rfl

/-- Settles O42: the constructor by the place value of its components, the readers by the number of their field. -/
theorem voxelIndexFields : Obligations.VoxelIndexFields := by
  unfold Obligations.VoxelIndexFields
  refine ⟨fun vx vy vz bX bY bZ s => ⟨commandIs_viFrom vx vy vz bX bY bZ, ?packs⟩, fun sel k s =>
    ⟨commandIs_viVKey k, commandIs_viBKey k, commandIs_viGetC sel k,
      fun hk => ⟨answers_viVKey hk, answers_viBKey hk, fun hs => answers_viGetC hs hk⟩,
      fun hk => ⟨raises_of_withVIdx rfl hk, raises_of_withVIdx rfl hk, raises_viGetC_of_operand hk⟩,
      fun hs => raises_viGetC_of_sel hs k s⟩⟩
  case packs =>
    simp only [← toNat_compOf_eq]
    rw [← toNat_voxelIndex, ← resultWord_eq_ofNat]
    exact answers_viFrom vx vy vz bX bY bZ s

/-! ### The parts of a cell (43_voxel_index.md R209) -/

theorem toNat_chunkAxis (w : Int) : ((axisOf (w.fdiv 16)).toNat : Int) = w / 16 % 1024 := by
  rw [toNat_axisOf, Int.fdiv_eq_ediv_of_nonneg w (by decide)]

/-- `floor((w mod 16)/4)` is below 4 already, so wrapping leaves it. -/
theorem toNat_voxelComp (w : Int) : ((compOf ((w.fmod 16).fdiv 4)).toNat : Int) = w % 16 / 4 := by
  rw [toNat_compOf, Int.fmod_eq_emod_of_nonneg w (by decide), Int.fdiv_eq_ediv_of_nonneg _ (by decide)]
  omega

theorem toNat_bitvoxelComp (w : Int) : ((compOf (w.fmod 4)).toNat : Int) = w % 4 := by
  rw [toNat_compOf, Int.fmod_eq_emod_of_nonneg w (by decide), Int.emod_emod]

/-- Each axis of a cell's key and index depends on the coordinate along that axis alone. -/
theorem worldIndexOfCell_axis {x y z w : Int} {a : Nat} (h : (a, w) ∈ [(0, x), (1, y), (2, z)]) :
    mortonAxis a (worldIndexOfCell x y z).1 = (axisOf (w.fdiv 16)).toNat ∧
    componentOf a (worldIndexOfCell x y z).2 = compOf ((w.fmod 16).fdiv 4) ∧
    componentOf (a + 3) (worldIndexOfCell x y z).2 = compOf (w.fmod 4) := by
  obtain ⟨hvx, hvy, hvz, hbX, hbY, hbZ⟩ := componentOf_voxelIndex (compOf ((x.fmod 16).fdiv 4))
    (compOf ((y.fmod 16).fdiv 4)) (compOf ((z.fmod 16).fdiv 4)) (compOf (x.fmod 4)) (compOf (y.fmod 4)) (compOf (z.fmod 4))
  simp only [List.mem_cons, Prod.mk.injEq, List.not_mem_nil, or_false] at h
  obtain ⟨rfl, rfl⟩ | ⟨rfl, rfl⟩ | ⟨rfl, rfl⟩ := h
  · exact ⟨mortonAxis_mortonKey _ (by decide), hvx, hbX⟩
  · exact ⟨mortonAxis_mortonKey _ (by decide), hvy, hbY⟩
  · exact ⟨mortonAxis_mortonKey _ (by decide), hvz, hbZ⟩

/-- R209 along one axis: chunk, voxel and bitvoxel by the arithmetic of the coordinate. -/
theorem worldIndexOfCell_parts {x y z w : Int} {a : Nat} (h : (a, w) ∈ [(0, x), (1, y), (2, z)]) :
    (mortonAxis a (worldIndexOfCell x y z).1 : Int) = w / 16 % 1024 ∧
    ((componentOf a (worldIndexOfCell x y z).2).toNat : Int) = w % 16 / 4 ∧
    ((componentOf (a + 3) (worldIndexOfCell x y z).2).toNat : Int) = w % 4 := by
  obtain ⟨hkey, hvoxel, hbit⟩ := worldIndexOfCell_axis h
  rw [hkey, hvoxel, hbit]
  exact ⟨toNat_chunkAxis w, toNat_voxelComp w, toNat_bitvoxelComp w⟩

theorem answers_wiFrom (wx wy wz : Word) (s : State) : Answers (.wiFrom wx wy wz) s
    [resultWord (worldIndexOfCell (wx.toInt.tdiv 65536) (wy.toInt.tdiv 65536) (wz.toInt.tdiv 65536)).1,
      resultWord (worldIndexOfCell (wx.toInt.tdiv 65536) (wy.toInt.tdiv 65536) (wz.toInt.tdiv 65536)).2] := rfl

/-- Settles O43: the command answers the cell of the truncated coordinates, whose parts are known on each axis. -/
theorem worldIndexDecomposition : Obligations.WorldIndexDecomposition := by
  unfold Obligations.WorldIndexDecomposition
  intro wx wy wz s
  exact ⟨commandIs_wiFrom wx wy wz, _, _, answers_wiFrom wx wy wz s, fun _ hp => worldIndexOfCell_parts hp⟩

end Sys2Proof.Proofs.VoxelIndex
end

section
/-!
SUPPORT and PROOFS. The commands on one stored chunk of 44_layer_chunk.md: how a command ends that replaces the chunk or reads
it after the preamble of R227, and from it the layer writes (R228 to R230, R232, R233), the reads (R231, R234 to R236) and the
metadata write (R237).
-/

namespace Sys2Proof.Proofs.ChunkCommands

open Sys2Proof Sys2Proof.Machine Sys2Proof.Proofs.CommandWords

/-! ### The words of the commands -/

section
variable (vi : VIdx) (key val : Word)

theorem commandIs_chSet : CommandIs 0x50 vi.toNat [key] (.chSet vi key) :=
  commandIs_low_field (op := 0x50#8) rfl rfl rfl (by decide) fun _ hv _ => congrArg (Instr.chSet · key) hv

theorem commandIs_chUnset : CommandIs 0x51 vi.toNat [key] (.chUnset vi key) :=
  commandIs_low_field (op := 0x51#8) rfl rfl rfl (by decide) fun _ hv _ => congrArg (Instr.chUnset · key) hv

theorem commandIs_chTgl : CommandIs 0x52 vi.toNat [key] (.chTgl vi key) :=
  commandIs_low_field (op := 0x52#8) rfl rfl rfl (by decide) fun _ hv _ => congrArg (Instr.chTgl · key) hv

theorem commandIs_chGet : CommandIs 0x53 vi.toNat [key] (.chGet vi key) :=
  commandIs_low_field (op := 0x53#8) rfl rfl rfl (by decide) fun _ hv _ => congrArg (Instr.chGet · key) hv

theorem commandIs_chFill : CommandIs 0x54 vi.toNat [key] (.chFill vi key) :=
  commandIs_low_field (op := 0x54#8) rfl rfl rfl (by decide) fun _ hv _ => congrArg (Instr.chFill · key) hv

theorem commandIs_chEmpty : CommandIs 0x55 vi.toNat [key] (.chEmpty vi key) :=
  commandIs_low_field (op := 0x55#8) rfl rfl rfl (by decide) fun _ hv _ => congrArg (Instr.chEmpty · key) hv

theorem commandIs_chCount : CommandIs 0x56 vi.toNat [key] (.chCount vi key) :=
  commandIs_low_field (op := 0x56#8) rfl rfl rfl (by decide) fun _ hv _ => congrArg (Instr.chCount · key) hv

theorem commandIs_chLen : CommandIs 0x57 0 [key] (.chLen key) :=
  commandIs_no_field (op := 0x57#8) rfl rfl fun _ => rfl

theorem commandIs_chMGet : CommandIs 0x58 vi.toNat [key] (.chMGet vi key) :=
  commandIs_low_field (op := 0x58#8) rfl rfl rfl (by decide) fun _ hv _ => congrArg (Instr.chMGet · key) hv

theorem commandIs_chMSet : CommandIs 0x59 vi.toNat [key, val] (.chMSet vi key val) :=
  commandIs_low_field (op := 0x59#8) rfl rfl rfl (by decide) fun _ hv _ => congrArg (Instr.chMSet · key val) hv

end

/-! ### How the commands end -/

section
variable {i : Instr} {key : Word} {s : State} {k : Key} {c : Chunk}

/-- Every command that names a chunk begins with the preamble of R227. -/
theorem failsWithoutChunk_of_chunkOperand (h : chunkOperand i = some key) (s : State) : FailsWithoutChunk i key s := by
  cases i with
  | chSet | chUnset | chTgl | chGet | chFill | chEmpty | chCount | chMGet | chMSet | chLen | wGet | face =>
    obtain rfl := Option.some.inj h
    exact failsWithoutChunk_of_withChunk rfl
  | _ => cases h

/-- A command that puts `f c` in place of the chunk `c` changes that chunk alone. -/
theorem chunkBecomes_of_put {f : Chunk → Chunk} {P : Chunk → Prop} (h : Holds s key k c)
    (hi : exec i s = withChunk key s fun k c => reply { s with world := worldPut s.world k (f c) } [])
    (hP : P (f c)) : ChunkBecomes i s k P := by
  refine ⟨worldPut s.world k (f c), f c, hi.trans (withChunk_of_holds h _), ?stored, fun j hj => ?elsewhere, hP⟩
  case stored => rw [worldGet_worldPut, if_pos rfl]
  case elsewhere => rw [worldGet_worldPut, if_neg hj]

/-- A layer update whose result is known bitvoxel by bitvoxel keeps the chunk's key, width and slots. -/
theorem chunkBecomes_of_layerUpdate {f : Layer → Layer} {g : VIdx → Bool} (h : Holds s key k c)
    (hi : exec i s = chunkLayerUpdate f key s) (hg : ∀ j, layerBit (f c.layer) j = g j) :
    ChunkBecomes i s k (LayerBecomes c g) :=
  chunkBecomes_of_put (f := fun c => { c with layer := f c.layer }) h hi ⟨rfl, rfl, rfl, hg⟩

theorem answers_chGet (h : Holds s key k c) (vi : VIdx) : Answers (.chGet vi key) s [layerGet c.layer vi] :=
  withChunk_of_holds h _

theorem answers_chCount (h : Holds s key k c) (vi : VIdx) :
    Answers (.chCount vi key) s [BitVec.ofNat 32 (layerCount c.layer vi)] := withChunk_of_holds h _

theorem answers_chLen (h : Holds s key k c) : Answers (.chLen key) s [BitVec.ofNat 32 (layerLength c.layer)] :=
  withChunk_of_holds h _

theorem answers_chMGet (h : Holds s key k c) (vi : VIdx) : Answers (.chMGet vi key) s [metaGet c vi] :=
  withChunk_of_holds h _

/-- Under the invariant the layer of a stored chunk is in its canonical form. -/
theorem layer_wf_of_holds (h : Holds s key k c) (hs : Invariant s = true) :
    cellsWf Config.layerWords c.layer = true := by
  simp only [Invariant, Memory.wf, Bool.and_eq_true] at hs
  obtain ⟨⟨⟨⟨hworld, -⟩, -⟩, -⟩, -⟩ := hs
  obtain ⟨-, hget⟩ := h
  obtain ⟨-, hchunk⟩ := chunk_of_worldWf hworld hget
  exact ((chunkWf_iff c).1 hchunk).1

end

/-! ### Writes to the layer -/

/-- Settles O45: the three commands are layer updates, and each changes bitvoxel `vi` alone. -/
theorem chunkBitWrites : Obligations.ChunkBitWrites := by
  unfold Obligations.ChunkBitWrites
  intro vi key k c s
  refine ⟨commandIs_chSet vi key, commandIs_chUnset vi key, commandIs_chTgl vi key, fun i hi => ?fails,
    fun h => ⟨?set, ?unset, ?tgl⟩⟩
  case fails =>
    refine failsWithoutChunk_of_chunkOperand ?_ s
    fin_cases hi <;> rfl
  case set => exact chunkBecomes_of_layerUpdate (f := (layerSet · vi)) h rfl (layerBit_layerSet c.layer vi)
  case unset => exact chunkBecomes_of_layerUpdate (f := (layerUnset · vi)) h rfl (layerBit_layerUnset c.layer vi)
  case tgl => exact chunkBecomes_of_layerUpdate (f := (layerToggle · vi)) h rfl (layerBit_layerToggle c.layer vi)

/-- Settles O46: both commands are layer updates that write the voxel's group. -/
theorem chunkVoxelWrites : Obligations.ChunkVoxelWrites := by
  unfold Obligations.ChunkVoxelWrites
  intro vi key k c s
  refine ⟨commandIs_chFill vi key, commandIs_chEmpty vi key, failsWithoutChunk_of_chunkOperand rfl s,
    failsWithoutChunk_of_chunkOperand rfl s, fun h => ⟨?fill, ?empty⟩⟩
  case fill => exact chunkBecomes_of_layerUpdate (f := (layerFill · vi)) h rfl (layerBit_layerFill c.layer vi)
  case empty => exact chunkBecomes_of_layerUpdate (f := (layerEmpty · vi)) h rfl (layerBit_layerEmpty c.layer vi)

/-! ### Reads -/

/-- Settles O47: each command answers a function of the stored chunk. The count of a whole layer takes the invariant, since
the model sums over the listed words. -/
theorem chunkReads : Obligations.ChunkReads := by
  unfold Obligations.ChunkReads
  intro vi key k c s
  refine ⟨commandIs_chGet vi key, commandIs_chCount vi key, commandIs_chLen key, commandIs_chMGet vi key,
    fun i hi => ?fails, fun h => ⟨?get, ?count, ?mget, fun hs => ?len⟩⟩
  case fails =>
    refine failsWithoutChunk_of_chunkOperand ?_ s
    fin_cases hi <;> rfl
  case get =>
    rw [← layerGet_eq]
    exact answers_chGet h vi
  case count =>
    rw [← layerCount_eq]
    exact answers_chCount h vi
  case mget =>
    rw [← groupOf_eq]
    exact answers_chMGet h vi
  case len =>
    rw [← layerLength_eq (layer_wf_of_holds h hs)]
    exact answers_chLen h

/-! ### The metadata write -/

/-- A slot of 32 bits keeps the whole value. -/
@[simp] theorem metaValue_bits32 (val : Word) : metaValue .bits32 val = val := by
  rw [metaValue, metaBits, Nat.mod_eq_of_lt val.isLt, BitVec.ofNat_toNat, BitVec.setWidth_eq]

/-- Settles O48: `metaSet` keeps the key, the width and the layer, and writes the voxel's slot at the chunk's width. -/
theorem chunkMetadataWrites : Obligations.ChunkMetadataWrites := by
  unfold Obligations.ChunkMetadataWrites
  intro vi key val k c s
  refine ⟨commandIs_chMSet vi key val, failsWithoutChunk_of_chunkOperand rfl s, fun h =>
    chunkBecomes_of_put (f := (metaSet · vi val)) h rfl
      ⟨metaSet_key c vi val, metaSet_width c vi val, metaSet_layer c vi val, fun g => ?slot⟩⟩
  case slot =>
    rw [readCell_metaSet]
    by_cases hg : g = vi.toNat / 64
    · rw [if_pos hg]
      cases c.width with
      | bits0 => exact if_neg fun hset => hset.2 rfl
      | bits8 | bits16 => exact if_pos ⟨hg, nofun⟩
      | bits32 => exact (if_pos ⟨hg, nofun⟩).trans (metaValue_bits32 val)
    · rw [if_neg hg, if_neg fun hset => hg hset.1]

end Sys2Proof.Proofs.ChunkCommands
end

section
/-!
SUPPORT and PROOFS. The chunk store's commands of 45_world_store.md: a store and a removal touch one key alone, and from this
`W.INS` (R252), `W.GET` (R253) and `W.REM` (R254).
-/

namespace Sys2Proof.Proofs.WorldStore

open Sys2Proof Sys2Proof.Machine Sys2Proof.Proofs.CommandWords Sys2Proof.Proofs.Reset

/-! ### The words of the commands -/

section
variable (key : Word)

theorem commandIs_wIns (var : BitVec 2) : CommandIs 0x60 var.toNat [key] (.wIns var key) :=
  commandIs_low_field (op := 0x60#8) rfl rfl rfl (by decide) fun _ hv _ => congrArg (Instr.wIns · key) hv

theorem commandIs_wGet : CommandIs 0x61 0 [key] (.wGet key) := commandIs_no_field (op := 0x61#8) rfl rfl fun _ => rfl

theorem commandIs_wRem : CommandIs 0x62 0 [key] (.wRem key) := commandIs_no_field (op := 0x62#8) rfl rfl fun _ => rfl

end

/-! ### One key of the store -/

section
variable (w : World) (k : Key)

theorem worldGet_worldPut_self (c : Chunk) : worldGet (worldPut w k c) k = some c := by
  rw [worldGet_worldPut, if_pos rfl]

theorem sameElsewhere_worldPut (c : Chunk) : SameElsewhere w (worldPut w k c) k := fun j hj => by
  rw [worldGet_worldPut, if_neg hj]

theorem worldGet_worldRemove_self : worldGet (worldRemove w k) k = none := by
  rw [worldGet_worldRemove, if_pos rfl]

theorem sameElsewhere_worldRemove : SameElsewhere w (worldRemove w k) k := fun j hj => by
  rw [worldGet_worldRemove, if_neg hj]

end

/-! ### Insertion -/

/-- The variant codes name the widths 0, 8, 16 and 32 (R252). -/
theorem metaBits_widthOfCode (var : BitVec 2) :
    metaBits (widthOfCode var) = if var = 0#2 then 0 else 2 ^ (var.toNat + 2) := by
  revert var
  decide

theorem exec_wIns (var : BitVec 2) (k : Key) (s : State) : exec (.wIns var (k.setWidth 32)) s =
    reply { s with world := worldPut s.world k (newChunk k (widthOfCode var)) } [] := withKey_key k s _

/-- Settles O50: the command puts `newChunk` under the key, whose layer and slots list no cell. -/
theorem insertStoresAnEmptyChunk : Obligations.InsertStoresAnEmptyChunk := by
  unfold Obligations.InsertStoresAnEmptyChunk
  refine ⟨fun var k s => ?stores, fun var key s => ⟨commandIs_wIns key var, fun hkey => withKey_of_ge hkey s _⟩⟩
  case stores =>
    exact ⟨_, newChunk k (widthOfCode var), exec_wIns var k s, worldGet_worldPut_self _ _ _, sameElsewhere_worldPut _ _ _,
      rfl, metaBits_widthOfCode var, layerBit_emptyLayer, readCell_nil⟩

/-! ### Lookup and removal -/

section
variable {key : Word} {s : State} {k : Key} {c : Chunk}

theorem answers_wGet (h : Holds s key k c) : Answers (.wGet key) s [codeOfWidth c.width] := withChunk_of_holds h _

theorem exec_wRem_of_holds (h : Holds s key k c) :
    exec (.wRem key) s = reply { s with world := worldRemove s.world k } [1#32] := by
  obtain ⟨rfl, hget⟩ := h
  change execWRem (k.setWidth 32) s = _
  rw [execWRem, withKey_key, hget]

theorem answers_wRem_of_absent (hkey : key.toNat < 2 ^ 30) (habs : worldGet s.world (key.setWidth 30) = none) :
    Answers (.wRem key) s [0#32] := by
  change execWRem key s = _
  rw [execWRem, withKey_of_lt hkey, habs]
  rfl

end

/-- Settles O51: `W.GET` fails by the preamble of R227, and `W.REM` by the key operand alone. -/
theorem getAndRemove : Obligations.GetAndRemove := by
  unfold Obligations.GetAndRemove
  intro key s
  obtain ⟨hillegal, habsent⟩ : FailsWithoutChunk (.wGet key) key s := failsWithoutChunk_of_withChunk rfl
  refine ⟨commandIs_wGet key, commandIs_wRem key, fun k c h => ⟨?code, ?removed⟩, fun hkey habs => ?absent,
    fun hkey => ?illegal⟩
  case code => exact answers_wGet h
  case removed =>
    exact ⟨_, exec_wRem_of_holds h, worldGet_worldRemove_self _ _, sameElsewhere_worldRemove _ _⟩
  case absent => exact ⟨habsent hkey habs, answers_wRem_of_absent hkey habs⟩
  case illegal => exact ⟨hillegal hkey, withKey_of_ge hkey s _⟩

end Sys2Proof.Proofs.WorldStore
end

section
/-!
SUPPORT. The Morton steps of 42_spatial_keys.md R174 to R179 by axes. All six are one shape, a unit added or taken in the
bits of one axis after the bits of the other two have been set so that the carry or borrow passes them. From it: the
neighbour key of 46_face_solver.md R272 has the axes that R271 gives it, and no other key has them.
-/

namespace Sys2Proof.Proofs.MortonSteps

open Sys2Proof Sys2Proof.Machine Sys2Proof.Proofs.SpatialKeys

/-! ### A unit at one bit -/

section
variable {w : Nat}

/-- The vector with `2^s` added or taken. -/
def stepAt (up : Bool) (s : Nat) (v : BitVec w) : BitVec w :=
  if up then v + BitVec.twoPow w s else v - BitVec.twoPow w s

/-- The carry of `+ 2^s` goes on exactly while the bits from `s` up are set. -/
theorem carry_twoPow {s : Nat} (hs : s < w) (v : BitVec w) (i : Nat) :
    BitVec.carry i v (BitVec.twoPow w s) false = decide (s < i ∧ ∀ q < i, s ≤ q → v.getLsbD q = true) := by
  induction i with
  | zero => simp
  | succ i ih =>
    rw [BitVec.carry_succ, ih, BitVec.getLsbD_twoPow, decide_eq_true hs, Bool.true_and, Bool.eq_iff_iff]
    simp only [Nat.forall_lt_succ_right, Bool.atLeastTwo, Bool.or_eq_true, Bool.and_eq_true, decide_eq_true_eq]
    obtain hlt | rfl | hgt := Nat.lt_trichotomy s i
    · simp only [hlt, hlt.le, hlt.ne, Nat.lt_succ_of_lt hlt]
      tauto
    · simp only [Nat.lt_irrefl, Nat.lt_succ_self, Nat.le_refl]
      have hbelow : ∀ q < s, s ≤ q → v.getLsbD q = true := fun q hq hsq => absurd hq (by omega)
      tauto
    · simp only [hgt.ne', Nat.not_lt_of_gt hgt, show ¬ s < i + 1 by omega]
      tauto

theorem sub_eq_not_not_add (v c : BitVec w) : v - c = ~~~(~~~v + c) := by
  simp only [BitVec.not_eq_neg_add]
  ring

/-- Above bit `s` a bit of the step changes exactly when every bit from `s` up to it passes the carry or borrow on. -/
theorem getLsbD_stepAt (up : Bool) {s i : Nat} (hs : s ≤ i) (hi : i < w) (v : BitVec w) :
    (stepAt up s v).getLsbD i = (v.getLsbD i ^^ decide (∀ q < i, s ≤ q → v.getLsbD q = up)) := by
  have hadd (u : BitVec w) : (u + BitVec.twoPow w s).getLsbD i =
      (u.getLsbD i ^^ decide (∀ q < i, s ≤ q → u.getLsbD q = true)) := by
    rw [BitVec.getLsbD_add hi, carry_twoPow (by omega), BitVec.getLsbD_twoPow, decide_eq_true (show s < w by omega)]
    obtain hlt | rfl := Nat.lt_or_eq_of_le hs
    · simp [hlt, hlt.ne]
    · have hbelow : ∀ q < s, s ≤ q → u.getLsbD q = true := fun q hq hsq => absurd hq (by omega)
      simp [decide_eq_true hbelow]
  cases up with
  | true => exact hadd v
  | false =>
    have hnot : (∀ q < i, s ≤ q → (~~~v).getLsbD q = true) ↔ ∀ q < i, s ≤ q → v.getLsbD q = false :=
      forall_congr' fun q => forall_congr' fun hq => by simp [show q < w by omega]
    change (v - BitVec.twoPow w s).getLsbD i = _
    rw [sub_eq_not_not_add, BitVec.getLsbD_not, hadd, BitVec.getLsbD_not, decide_eq_true hi]
    simp only [hnot, Bool.true_and, Bool.not_bne, Bool.not_not]

end

theorem toNat_stepAt_axis (up : Bool) (v : Axis) :
    ((stepAt up 0 v).toNat : Int) = (v.toNat + if up then 1 else -1) % 1024 := by
  cases up with
  | true =>
    have := toNat_axis_add_one v
    change ((v + 1#10).toNat : Int) = (v.toNat + 1) % 1024
    omega
  | false =>
    have := toNat_axis_sub_one v
    change ((v - 1#10).toNat : Int) = (v.toNat + -1) % 1024
    omega

/-! ### The bits of one axis -/

/-- Axis `a` of a Morton scalar as a vector (42_spatial_keys.md R152). -/
def mortonLane (a : Nat) (k : Key) : Axis := BitVec.ofFnLE fun j : Fin 10 => k.getLsbD (3 * j.val + a)

theorem mortonAxis_eq_toNat_mortonLane (a : Nat) (k : Key) : mortonAxis a k = (mortonLane a k).toNat := rfl

theorem getLsbD_mortonLane (a : Nat) (k : Key) {j : Nat} (hj : j < 10) :
    (mortonLane a k).getLsbD j = k.getLsbD (3 * j + a) := by
  rw [mortonLane, BitVec.getLsbD_ofFnLE, dif_pos hj]

/-- A key is known by its three axes. -/
theorem eq_of_mortonAxis {k k' : Key} (h : ∀ a < 3, mortonAxis a k = mortonAxis a k') : k = k' := by
  refine BitVec.eq_of_getLsbD_eq fun i hi => ?_
  have hlane : mortonLane (i % 3) k = mortonLane (i % 3) k' := BitVec.eq_of_toNat_eq (h (i % 3) (by omega))
  have hbit := congrArg (BitVec.getLsbD · (i / 3)) hlane
  simpa only [getLsbD_mortonLane _ _ (show i / 3 < 10 by omega), Nat.div_add_mod] using hbit

/-! ### One step -/

/-- The mask of an axis (42_spatial_keys.md R153). -/
def laneMask : Nat → Word
  | 0 => maskX
  | 1 => maskY
  | _ => maskZ

/-- The mask of the two other axes (42_spatial_keys.md R153). -/
def restMask : Nat → Word
  | 0 => maskYZ
  | 1 => maskXZ
  | _ => maskXY

theorem getLsbD_laneMask {a i : Nat} (ha : a < 3) (hi : i < 30) : (laneMask a).getLsbD i = decide (i % 3 = a) := by
  interval_cases a <;> revert i <;> decide

theorem getLsbD_restMask {a i : Nat} (ha : a < 3) (hi : i < 30) : (restMask a).getLsbD i = decide (i % 3 ≠ a) := by
  interval_cases a <;> revert i <;> decide

/-- What the unit of a step is added to or taken from: the other axes' bits all 1 for an increment and all 0 for a
decrement, so that they pass the carry or borrow on. -/
def laneOperand (up : Bool) (a : Nat) (x : Word) : Word := if up then x ||| restMask a else x &&& laneMask a

/-- The common form of the six steps (42_spatial_keys.md R174 to R179). -/
def laneStep (up : Bool) (a s : Nat) (x : Word) : Word :=
  (stepAt up s (laneOperand up a x) &&& laneMask a) ||| (x &&& restMask a)

theorem getLsbD_laneOperand (up : Bool) {a i : Nat} (ha : a < 3) (hi : i < 30) (x : Word) :
    (laneOperand up a x).getLsbD i = if i % 3 = a then x.getLsbD i else up := by
  cases up <;> simp only [laneOperand, if_true, Bool.false_eq_true, if_false, BitVec.getLsbD_or, BitVec.getLsbD_and,
    getLsbD_laneMask ha hi, getLsbD_restMask ha hi] <;> split <;> simp [*]

theorem getLsbD_laneStep (up : Bool) {a i : Nat} (s : Nat) (ha : a < 3) (hi : i < 30) (x : Word) :
    (laneStep up a s x).getLsbD i =
      if i % 3 = a then (stepAt up s (laneOperand up a x)).getLsbD i else x.getLsbD i := by
  rw [laneStep, BitVec.getLsbD_or, BitVec.getLsbD_and, BitVec.getLsbD_and, getLsbD_laneMask ha hi, getLsbD_restMask ha hi]
  split <;> simp [*]

/-- A carry or borrow reaches bit `j` of axis `a` exactly when the lower bits of this axis pass it on. -/
theorem laneOperand_passes_iff (up : Bool) {a s j : Nat} (ha : a < 3) (hs : s ≤ a) (hj : j < 10) (k : Key) :
    (∀ q < 3 * j + a, s ≤ q → (laneOperand up a (resultWord k)).getLsbD q = up) ↔
      ∀ i < j, 0 ≤ i → (mortonLane a k).getLsbD i = up := by
  have hbit {q : Nat} (hq : q < 30) : (laneOperand up a (resultWord k)).getLsbD q =
      if q % 3 = a then k.getLsbD q else up := by
    rw [getLsbD_laneOperand up ha hq, resultWord, BitVec.getLsbD_setWidth, decide_eq_true (by omega), Bool.true_and]
  constructor
  · intro h i hi _
    have hq := h (3 * i + a) (by omega) (by omega)
    rwa [hbit (by omega), if_pos (by omega), ← getLsbD_mortonLane a k (by omega)] at hq
  · intro h q hq _
    rw [hbit (by omega)]
    split
    · rename_i hmod
      have hi := h (q / 3) (by omega) (Nat.zero_le _)
      rwa [getLsbD_mortonLane a k (by omega), show 3 * (q / 3) + a = q by omega] at hi
    · rfl

/-- A step moves its own axis by one unit and keeps the other two. -/
theorem mortonLane_laneStep (up : Bool) {a b s : Nat} (ha : a < 3) (hb : b < 3) (hs : s ≤ a) (k : Key) :
    mortonLane b ((laneStep up a s (resultWord k)).setWidth 30) =
      if a = b then stepAt up 0 (mortonLane b k) else mortonLane b k := by
  refine BitVec.eq_of_getLsbD_eq fun j hj => ?_
  have hkey : (resultWord k).getLsbD (3 * j + b) = (mortonLane b k).getLsbD j := by
    rw [getLsbD_mortonLane b k hj, resultWord, BitVec.getLsbD_setWidth, decide_eq_true (by omega), Bool.true_and]
  rw [getLsbD_mortonLane b _ hj, BitVec.getLsbD_setWidth, decide_eq_true (by omega), Bool.true_and,
    getLsbD_laneStep up s ha (by omega)]
  by_cases hab : a = b
  · subst hab
    rw [if_pos (by omega), if_pos rfl, getLsbD_stepAt up (by omega) (by omega), getLsbD_stepAt up (Nat.zero_le j) hj,
      decide_eq_decide.2 (laneOperand_passes_iff up ha hs hj k), getLsbD_laneOperand up ha (by omega), if_pos (by omega),
      hkey]
  · rw [if_neg (by omega), if_neg hab, hkey]

/-! ### The neighbour key (46_face_solver.md R271, R272) -/

/-- The direction is one of increment. -/
def dirUp (d : Dir) : Bool := decide (dirSign d = 1)

theorem dirSign_eq (d : Dir) : dirSign d = if dirUp d then 1 else -1 := by cases d <;> rfl

theorem dirAxis_lt (d : Dir) : dirAxis d < 3 := by cases d <;> decide

/-- Each of the six step formulas is a step of its axis. The unit is at the axis's lowest bit or, for `incZ`, at a bit below
it from which the carry comes up (42_spatial_keys.md R178). -/
theorem neighbourKey_eq_laneStep (d : Dir) (k : Key) :
    ∃ s ≤ dirAxis d, neighbourKey d k = (laneStep (dirUp d) (dirAxis d) s (resultWord k)).setWidth 30 := by
  cases d with
  | xPos | xNeg | zPos => exact ⟨0, Nat.zero_le _, rfl⟩
  | yPos | yNeg => exact ⟨1, Nat.le_refl _, rfl⟩
  | zNeg => exact ⟨2, Nat.le_refl _, rfl⟩

theorem mortonAxis_neighbourKey (d : Dir) (k : Key) {a : Nat} (ha : a < 3) :
    (mortonAxis a (neighbourKey d k) : Int) = (mortonAxis a k + dirStep d a) % 1024 := by
  obtain ⟨s, hs, hk⟩ := neighbourKey_eq_laneStep d k
  rw [hk, mortonAxis_eq_toNat_mortonLane, mortonLane_laneStep _ (dirAxis_lt d) ha hs, dirStep]
  split
  · rw [toNat_stepAt_axis, dirSign_eq]; rfl
  · have := (mortonLane a k).isLt
    rw [mortonAxis_eq_toNat_mortonLane]; omega

/-- The stepped axes belong to the neighbour key alone. -/
theorem eq_neighbourKey {d : Dir} {k nk : Key}
    (h : ∀ a < 3, (mortonAxis a nk : Int) = (mortonAxis a k + dirStep d a) % 1024) : nk = neighbourKey d k :=
  eq_of_mortonAxis fun a ha => by
    have hn := h a ha
    rw [← mortonAxis_neighbourKey d k ha] at hn
    exact Int.ofNat.inj hn

end Sys2Proof.Proofs.MortonSteps
end

section
/-!
SUPPORT and PROOFS. The face solver and the index expander of 46_face_solver.md: the neighbouring bitvoxel of R273 by its
positions on the axes, the entries that `FACE` leaves (R274) and, read from the buffer, `FM.RD` (R276), `GIDX` (R281) and
`GIDXO` (R282).
-/

namespace Sys2Proof.Proofs.FaceSolver

open Sys2Proof Sys2Proof.Machine Sys2Proof.Proofs.Reset Sys2Proof.Proofs.Units Sys2Proof.Proofs.CommandWords
  Sys2Proof.Proofs.ChunkCommands Sys2Proof.Proofs.MortonSteps

/-! ### The words of the commands -/

theorem commandIs_face (key : Word) : CommandIs 0x70 0 [key] (.face key) :=
  commandIs_no_field (op := 0x70#8) rfl rfl fun _ => rfl

theorem commandIs_fmRd (i : VIdx) : CommandIs 0x71 i.toNat [] (.fmRd i) :=
  commandIs_low_field (op := 0x71#8) rfl rfl rfl (by decide) fun _ hv _ => congrArg Instr.fmRd hv

theorem commandIs_gidx (flip : BitVec 1) : CommandIs 0x72 flip.toNat [] (.gidx flip) :=
  commandIs_low_field (op := 0x72#8) rfl rfl rfl (by decide) fun _ hv _ => congrArg Instr.gidx hv

theorem commandIs_gidxo (flip : BitVec 1) (outLen : Word) : CommandIs 0x73 flip.toNat [outLen] (.gidxo flip outLen) :=
  commandIs_low_field (op := 0x73#8) rfl rfl rfl (by decide) fun _ hv _ => congrArg (Instr.gidxo · outLen) hv

/-! ### The neighbouring bitvoxel (R273) -/

/-- The step along a direction from bitvoxel `i` stays in the chunk. -/
abbrev StaysInside (i : VIdx) (d : Dir) : Prop :=
  0 ≤ (axisPos (dirAxis d) i : Int) + dirSign d ∧ (axisPos (dirAxis d) i : Int) + dirSign d ≤ 15

/-- A bitvoxel is known by its three positions. -/
theorem eq_of_axisPos {i j : VIdx} (h : ∀ a < 3, axisPos a i = axisPos a j) : i = j := by
  have hx := h 0 (by decide)
  have hy := h 1 (by decide)
  have hz := h 2 (by decide)
  simp only [axisPos, toNat_componentOf] at hx hy hz
  apply BitVec.eq_of_toNat_eq
  omega

/-- A unit step on one axis, by the position `4*v + b`: it wraps modulo 16, and leaves the chunk when it does. -/
theorem advance_pos (v b : Comp) {sgn : Int} (hs : sgn = 1 ∨ sgn = -1) :
    (4 * (advance v b sgn).2.1.toNat + (advance v b sgn).2.2.toNat : Int) = (4 * v.toNat + b.toNat + sgn) % 16 ∧
    ((advance v b sgn).1 = false ↔ 0 ≤ (4 * v.toNat + b.toNat + sgn : Int) ∧ (4 * v.toNat + b.toNat + sgn : Int) ≤ 15) := by
  have hv := v.isLt
  have hb := b.isLt
  simp only [advance]
  split
  · split <;> simp only [toNat_compOf, Bool.true_eq_false, false_iff, true_iff] <;> omega
  · simp only [toNat_compOf, true_iff]
    omega

/-- Of a bitvoxel's six components the two on the direction's axis advance, and the others stay. -/
theorem componentOf_neighbourIndex (i : VIdx) (d : Dir) {a : Nat} (ha : a < 3) :
    (componentOf a (neighbourIndex i d).2, componentOf (a + 3) (neighbourIndex i d).2) =
      if dirAxis d = a then (advance (componentOf a i) (componentOf (a + 3) i) (dirSign d)).2
      else (componentOf a i, componentOf (a + 3) i) := by
  cases d <;> interval_cases a <;>
    simp [neighbourIndex, dirAxis, dirIndex, componentOf_voxelIndex]

theorem neighbourIndex_fst (i : VIdx) (d : Dir) : (neighbourIndex i d).1 =
    (advance (componentOf (dirAxis d) i) (componentOf (dirAxis d + 3) i) (dirSign d)).1 := by
  cases d <;> rfl

theorem dirSign_one_or (d : Dir) : dirSign d = 1 ∨ dirSign d = -1 := by cases d <;> decide

theorem neighbourIndex_stays_iff (i : VIdx) (d : Dir) : (neighbourIndex i d).1 = false ↔ StaysInside i d := by
  rw [neighbourIndex_fst, (advance_pos _ _ (dirSign_one_or d)).2]
  simp only [StaysInside, axisPos, Nat.cast_add, Nat.cast_mul, Nat.cast_ofNat]

theorem axisPos_neighbourIndex (i : VIdx) (d : Dir) {a : Nat} (ha : a < 3) :
    (axisPos a (neighbourIndex i d).2 : Int) = (axisPos a i + dirStep d a) % 16 := by
  have hc := componentOf_neighbourIndex i d ha
  by_cases hd : dirAxis d = a
  · obtain ⟨hv, hb⟩ := Prod.mk.inj (hc.trans (if_pos hd))
    simp only [axisPos, hv, hb, dirStep, if_pos hd, Nat.cast_add, Nat.cast_mul, Nat.cast_ofNat]
    exact (advance_pos _ _ (dirSign_one_or d)).1
  · obtain ⟨hv, hb⟩ := Prod.mk.inj (hc.trans (if_neg hd))
    simp only [axisPos, hv, hb, dirStep, if_neg hd]
    have := (componentOf a i).isLt
    have := (componentOf (a + 3) i).isLt
    omega

/-- The stepped positions belong to the neighbouring bitvoxel alone. -/
theorem eq_neighbourIndex {i j : VIdx} {d : Dir}
    (h : ∀ a < 3, (axisPos a j : Int) = (axisPos a i + dirStep d a) % 16) : j = (neighbourIndex i d).2 :=
  eq_of_axisPos fun a ha => by
    have hj := h a ha
    rw [← axisPos_neighbourIndex i d ha] at hj
    exact Int.ofNat.inj hj

/-! ### The entries that `FACE` leaves (R274) -/

/-- The bitvoxels of `NB[d]` are those of the world, an absent chunk reading as empty (R272). -/
theorem layerBit_neighbourLayer (w : World) (k : Key) (d : Dir) (j : VIdx) :
    layerBit (neighbourLayer w k d) j = cellSet w (neighbourKey d k, j) := by
  rw [Bool.eq_iff_iff, cellSet_iff, neighbourLayer, worldGetOpt]
  cases worldGet w (neighbourKey d k) <;> simp

theorem layerLength_cons (a : Nat) (v : Word) (t : Layer) :
    layerLength ((a, v) :: t) = (if a < Config.layerWords then popcount v else 0) + layerLength t := rfl

/-- A layer whose listed words count no set bit has no set bitvoxel, even when it is not in the canonical form. -/
theorem layerBit_of_layerLength_zero {ly : Layer} (h : layerLength ly = 0) (i : VIdx) : layerBit ly i = false := by
  have hi : i.toNat / 32 < Config.layerWords := layerWordOf_eq i ▸ layerWordOf_lt i
  have hword : popcount (readCell ly (i.toNat / 32)) = 0 := by
    induction ly with
    | nil => exact popcount_zero 32
    | cons e t ih =>
      obtain ⟨a, v⟩ := e
      obtain ⟨hv, ht⟩ := Nat.add_eq_zero_iff.1 (layerLength_cons a v t ▸ h)
      by_cases ha : a = i.toNat / 32
      · rw [if_pos (ha ▸ hi)] at hv
        rwa [readCell, lookupAt, if_pos ha]
      · rw [readCell, lookupAt, if_neg ha]
        exact ih ht
  rw [popcount, popcountBelow_eq_card, Finset.card_eq_zero, Finset.filter_eq_empty_iff] at hword
  simpa [layerBit] using hword (Finset.mem_range.2 (Nat.mod_lt _ (by decide)))

/-- What `FACE` leaves at a position, for a layer in any form. -/
theorem readCell_faceBuffer_eq_maskAt (ly : Layer) (nb : Dir → Layer) (i : VIdx) :
    readCell (faceBuffer ly nb) i.toNat = (maskAt ly nb i).setWidth 8 := by
  by_cases hlen : layerLength ly = 0
  · simp [faceBuffer, hlen, maskAt, layerBit_of_layerLength_zero hlen i]
  · rw [faceBuffer, if_neg hlen, readCell, funext (faceEntry_eq ly nb), lookupAt_filterMap_range, if_pos i.isLt,
      BitVec.ofNat_toNat, BitVec.setWidth_eq]
    split <;> simp [*, unlisted]

/-- Settles O53: every entry is `maskAt`, whose bit `d` reads the bitvoxel and, past the chunk's end, the chunk that have the
stepped positions and axes. -/
theorem faceMasksOfAChunk : Obligations.FaceMasksOfAChunk := by
  unfold Obligations.FaceMasksOfAChunk
  intro key s
  refine ⟨commandIs_face key, fun k T h => ⟨_, exec_face_of_holds h, fun i => ⟨?bound, fun hi => ?unset⟩,
    fun i j d nk hi hj hk => ?bit⟩, failsWithoutChunk_of_chunkOperand rfl s⟩
  case bound =>
    have := (maskAt T.layer (neighbourLayer s.world k) i).isLt
    rw [readCell_faceBuffer_eq_maskAt, BitVec.toNat_setWidth]
    omega
  case unset => rw [readCell_faceBuffer_eq_maskAt, maskAt, hi]; rfl
  case bit =>
    have hd : dirIndex d < 8 := by cases d <;> decide
    rw [eq_neighbourIndex hj, eq_neighbourKey hk, readCell_faceBuffer_eq_maskAt, maskAt, if_pos hi, BitVec.getLsbD_setWidth,
      decide_eq_true hd, Bool.true_and, getLsbD_faceMask, ← layerBit_neighbourLayer]
    by_cases hin : StaysInside i d
    · rw [if_pos hin, (neighbourIndex_stays_iff i d).2 hin]; rfl
    · rw [if_neg hin, if_pos (Bool.of_not_eq_false (mt (neighbourIndex_stays_iff i d).1 hin))]

/-! ### Reading the buffer -/

theorem answers_fmRd (i : VIdx) (s : State) : Answers (.fmRd i) s [BitVec.ofNat 32 (fmEntry s i.toNat).toNat] := by
  rw [BitVec.ofNat_toNat]
  rfl

theorem answers_gidx (flip : BitVec 1) (s : State) : Answers (.gidx flip) s (expand s.fm (tableOf flip)) := rfl

/-- The count that `GIDXO` tests is the number of bits set in `FM` (R278). -/
theorem faceCount_eq (fm : List Host.Cell) : faceCount fm = facesOf fm := by
  have hsum (n : Nat) : (List.range n).foldl (fun acc i => acc + popcount (readCell fm i)) 0 =
      ∑ i ∈ Finset.range n, popcount (readCell fm i) := by
    induction n with
    | zero => rfl
    | succ n ih => rw [List.range_succ, List.foldl_concat, ih, Finset.sum_range_succ]
  exact hsum Config.bitvoxels

theorem answers_gidxo {outLen : Word} {s : State} (h : outLen.toInt = 6 * (facesOf s.fm : Int)) (flip : BitVec 1) :
    Answers (.gidxo flip outLen) s (expand s.fm (tableOf flip)) := by
  rw [← faceCount_eq] at h
  exact if_neg (not_not.2 h)

theorem raises_gidxo {outLen : Word} {s : State} (h : outLen.toInt ≠ 6 * (facesOf s.fm : Int)) (flip : BitVec 1) :
    Raises (.gidxo flip outLen) s .outOfRange := by
  rw [← faceCount_eq] at h
  exact if_pos h

/-- The expansion position by position: an entry that is not 0 adds its table's list, offset by `24*n` (R279). -/
theorem expand_eq_foldl (fm : List Host.Cell) (table : IndexTable) : expand fm table =
    (List.range 4096).foldl (fun acc n =>
      if readCell fm n = 0#8 then acc
      else acc ++ (table ((readCell fm n).setWidth 6)).map fun e => BitVec.ofNat 32 (e.val + 24 * n)) [] := by
  rw [expand, List.flatMap_eq_foldl]
  congr 1
  funext acc n
  rw [expandAt]
  split
  · exact List.append_nil acc
  · rfl

/-- Settles O55: `GIDX` and `GIDXO` answer the same expansion, `GIDXO` after its length test. -/
theorem readingTheFaceMaskBuffer : Obligations.ReadingTheFaceMaskBuffer := by
  unfold Obligations.ReadingTheFaceMaskBuffer
  intro i flip outLen s
  exact ⟨commandIs_fmRd i, commandIs_gidx flip, commandIs_gidxo flip outLen, answers_fmRd i s,
    expand s.fm (tableOf flip), expand_eq_foldl s.fm (tableOf flip), answers_gidx flip s, (answers_gidxo · flip),
    (raises_gidxo · flip)⟩

end Sys2Proof.Proofs.FaceSolver
end

section
/-!
SUPPORT and PROOFS. The raycaster of 47_raycaster.md. The integer walk of R313 is the rational walk of R302 to R305 axis for
axis; each step brings its axis one cell nearer to its terminal cell, so the cell count of R307 is enough for either; and
a walk whose other two axes stand still is a walk along one line (R312).
-/

namespace Sys2Proof.Proofs.Raycaster

open Sys2Proof Sys2Proof.Machine Sys2Proof.Proofs.CommandWords

/-! ### How `RAY` ends (R308) -/

theorem commandIs_ray (sx sy sz ex ey ez : Word) : CommandIs 0x80 0 [sx, sy, sz, ex, ey, ez] (.ray sx sy sz ex ey ez) :=
  commandIs_no_field (op := 0x80#8) rfl rfl fun _ => rfl

theorem exec_ray (sx sy sz ex ey ez : Word) (s : State) :
    exec (.ray sx sy sz ex ey ez) s = execRay sx sy sz ex ey ez s := rfl

section
variable {sx sy sz ex ey ez : Word} {s : State}

theorem answers_ray {wi : Key × VIdx} (h : raycast s.world sx sy sz ex ey ez = some wi) :
    Answers (.ray sx sy sz ex ey ez) s [wi.1.setWidth 32, wi.2.setWidth 32] := by
  rw [Answers, exec_ray, execRay, h]
  rfl

theorem raises_ray (h : raycast s.world sx sy sz ex ey ez = none) : Raises (.ray sx sy sz ex ey ez) s .absent := by
  rw [Raises, exec_ray, execRay, h]
  rfl

end

/-! ### One axis in the integer form (R302, R303) -/

theorem wcoordFloor_eq (x : Word) : wcoordFloor x = x.toInt / 65536 := Int.fdiv_eq_ediv_of_nonneg _ (by decide)

@[simp] theorem rayAxis_cell (s e : Word) : (rayAxis s e).cell = s.toInt / 65536 := wcoordFloor_eq s
@[simp] theorem rayAxis_last (s e : Word) : (rayAxis s e).last = e.toInt / 65536 := wcoordFloor_eq e
@[simp] theorem rayAxis_dir (s e : Word) : (rayAxis s e).dir = (e.toInt - s.toInt).sign := rfl
@[simp] theorem rayAxis_len (s e : Word) : (rayAxis s e).len = (e.toInt - s.toInt).natAbs := rfl

theorem len_rayAxis_nonneg (s e : Word) : 0 ≤ (rayAxis s e).len := Int.natCast_nonneg _

theorem rayAxis_num_of_lt {s e : Word} (h : s.toInt < e.toInt) :
    (rayAxis s e).num = 65536 * (s.toInt / 65536 + 1) - s.toInt := by
  rw [← wcoordFloor_eq]
  exact if_pos (Int.sub_pos.2 h)

theorem rayAxis_num_of_le {s e : Word} (h : e.toInt ≤ s.toInt) :
    (rayAxis s e).num = s.toInt - 65536 * (s.toInt / 65536) := by
  rw [← wcoordFloor_eq]
  exact if_neg (not_lt.2 (Int.sub_nonpos_of_le h))

theorem raySpan_rayAxis (s e : Word) : raySpan (rayAxis s e) = (e.toInt / 65536 - s.toInt / 65536).natAbs := by
  rw [raySpan, rayAxis_cell, rayAxis_last]

/-- The bound that `raycast` gives its walk is the cell count of R307. -/
theorem rayFuel_rayAxis (sx sy sz ex ey ez : Word) :
    rayFuel (rayAxis sx ex) (rayAxis sy ey) (rayAxis sz ez) = rayCells sx sy sz ex ey ez := by
  rw [rayFuel, rayCells, raySpan_rayAxis, raySpan_rayAxis, raySpan_rayAxis]

/-- A coordinate is one of 65536 cells, so an axis has at most 65535 of them to pass. -/
theorem raySpan_rayAxis_le (s e : Word) : raySpan (rayAxis s e) ≤ 65535 := by
  have hs := BitVec.toInt_lt (x := s)
  have hs' := BitVec.le_toInt s
  have he := BitVec.toInt_lt (x := e)
  have he' := BitVec.le_toInt e
  rw [raySpan_rayAxis]
  omega

theorem rayCells_le (sx sy sz ex ey ez : Word) : rayCells sx sy sz ex ey ez ≤ 196606 := by
  have hx := raySpan_rayAxis_le sx ex
  have hy := raySpan_rayAxis_le sy ey
  have hz := raySpan_rayAxis_le sz ez
  rw [← rayFuel_rayAxis, rayFuel]
  omega

/-! ### The integer form is the rational walk (R301, R304, R313) -/

/-- The `t` or `dt` that `num` stands for over `len`; over 0 it is `+inf` (R313). -/
def rayTime (num len : Int) : Option Rat := if len = 0 then none else some (num / len)

/-- The axis over the rationals that an axis of the integer form stands for (R313). -/
def rationalAxis (a : RayAxis) : QAxis :=
  { cell := a.cell, last := a.last, dir := a.dir, t := rayTime a.num a.len, dt := rayTime Config.wcScale a.len }

theorem rayTime_zero (num : Int) : rayTime num 0 = none := if_pos rfl

theorem rayTime_of_pos (num : Int) {len : Int} (h : 0 < len) : rayTime num len = some (num / len : Rat) := if_neg h.ne'

/-- Comparing `t` is comparing cross products (R313). -/
theorem infLe_rayTime {a b : RayAxis} (ha : 0 ≤ a.len) (hb : 0 ≤ b.len) :
    infLe (rayTime a.num a.len) (rayTime b.num b.len) = rayLe a b := by
  unfold rayLe
  rcases hb.eq_or_lt with hb | hb
  · rw [← hb, rayTime_zero, if_pos rfl]
    cases rayTime a.num a.len <;> rfl
  rw [rayTime_of_pos _ hb, if_neg hb.ne']
  rcases ha.eq_or_lt with ha | ha
  · rw [← ha, rayTime_zero, if_pos rfl]
    rfl
  · have ha' : (0 : Rat) < a.len := Int.cast_pos.2 ha
    have hb' : (0 : Rat) < b.len := Int.cast_pos.2 hb
    rw [rayTime_of_pos _ ha, if_neg ha.ne', infLe, decide_eq_decide, div_le_div_iff₀ ha' hb']
    norm_cast

/-- One step adds 65536 to the numerator (R313). -/
theorem infAdd_rayTime (n m len : Int) : infAdd (rayTime n len) (rayTime m len) = rayTime (n + m) len := by
  unfold rayTime
  split
  · rfl
  · rw [infAdd, Int.cast_add, add_div]

theorem qStep_rationalAxis (a : RayAxis) : qStep (rationalAxis a) = rationalAxis (rayStep a) := by
  rw [qStep, rationalAxis, infAdd_rayTime]
  rfl

/-- The two loops go the same way at every comparison (R305, R313). -/
theorem qWalk_rationalAxis (w : World) (fuel : Nat) {x y z : RayAxis} (hx : 0 ≤ x.len) (hy : 0 ≤ y.len)
    (hz : 0 ≤ z.len) :
    qWalk w fuel (rationalAxis x) (rationalAxis y) (rationalAxis z) = rayWalk w fuel x y z := by
  induction fuel generalizing x y z with
  | zero => rfl
  | succ fuel ih =>
    have hxy : infLe (rationalAxis x).t (rationalAxis y).t = rayLe x y := infLe_rayTime hx hy
    have hxz : infLe (rationalAxis x).t (rationalAxis z).t = rayLe x z := infLe_rayTime hx hz
    have hyz : infLe (rationalAxis y).t (rationalAxis z).t = rayLe y z := infLe_rayTime hy hz
    rw [qWalk, rayWalk, hxy, hxz, hyz, qStep_rationalAxis, qStep_rationalAxis, qStep_rationalAxis,
      ih (x := rayStep x) hx hy hz, ih (y := rayStep y) hx hy hz, ih (z := rayStep z) hx hy hz]
    rfl

theorem wcoordRat_eq (x : Word) : wcoordRat x = (x.toInt : Rat) / 65536 := rfl

theorem floor_wcoordRat (x : Word) : (wcoordRat x).floor = x.toInt / 65536 :=
  Rat.floor_intCast_div_natCast x.toInt 65536

/-- Scaling distance and delta by `2^16` leaves their quotient as it is (R313). -/
theorem some_div_eq_rayTime {num len : Int} (hlen : 0 < len) {dist delta : Rat} (hdist : dist = num / 65536)
    (hdelta : delta = len / 65536) : some (dist / delta) = rayTime num len := by
  rw [rayTime_of_pos num hlen, hdist, hdelta, div_div_div_cancel_right₀ (by norm_num)]

theorem wcoordRat_sub (s e : Word) : wcoordRat e - wcoordRat s = ((e.toInt - s.toInt : Int) : Rat) / 65536 := by
  rw [wcoordRat_eq, wcoordRat_eq, Int.cast_sub, sub_div]

theorem wcoordRat_sub_pos_iff (s e : Word) : wcoordRat e - wcoordRat s > 0 ↔ s.toInt < e.toInt := by
  rw [wcoordRat_sub, gt_iff_lt, div_pos_iff_of_pos_right (by norm_num), Int.cast_pos, Int.sub_pos]

theorem wcoordRat_sub_neg_iff (s e : Word) : wcoordRat e - wcoordRat s < 0 ↔ e.toInt < s.toInt := by
  rw [← neg_sub, neg_lt_zero]
  exact wcoordRat_sub_pos_iff e s

/-- The first plane above a coordinate is `65536 * (c + 1) - S` away from it, in parts of `2^16` (R313). -/
theorem dist_above (c : Int) (s : Word) :
    (c : Rat) + 1 - wcoordRat s = ((65536 * (c + 1) - s.toInt : Int) : Rat) / 65536 := by
  rw [wcoordRat_eq]
  push_cast
  ring

/-- The first plane below a coordinate is `S - 65536 * c` away from it, in parts of `2^16` (R313). -/
theorem dist_below (c : Int) (s : Word) : wcoordRat s - (c : Rat) = ((s.toInt - 65536 * c : Int) : Rat) / 65536 := by
  rw [wcoordRat_eq]
  push_cast
  ring

theorem one_eq_wcScale_div : (1 : Rat) = (Config.wcScale : Int) / 65536 := by norm_num [Config.wcScale]

/-- The two set-ups of an axis stand for the same rationals (R302 to R304, R313). -/
theorem qAxis_wcoordRat (s e : Word) : qAxis (wcoordRat s) (wcoordRat e) = rationalAxis (rayAxis s e) := by
  have hpos := wcoordRat_sub_pos_iff s e
  have hneg := wcoordRat_sub_neg_iff s e
  rw [qAxis, floor_wcoordRat, floor_wcoordRat, rationalAxis, rayAxis_cell, rayAxis_last, rayAxis_dir, rayAxis_len]
  rcases lt_trichotomy s.toInt e.toInt with h | h | h
  · have hlen : ((e.toInt - s.toInt).natAbs : Int) = e.toInt - s.toInt := by omega
    have hdelta := wcoordRat_sub s e
    rw [if_pos (hpos.2 h), rayAxis_num_of_lt h, Int.sign_eq_one_of_pos (by omega), hlen,
      some_div_eq_rayTime (by omega) (dist_above _ s) hdelta, some_div_eq_rayTime (by omega) one_eq_wcScale_div hdelta]
  · have hlen : ((e.toInt - s.toInt).natAbs : Int) = 0 := by omega
    rw [if_neg (by rw [hpos]; omega), if_neg (by rw [hneg]; omega), hlen, rayTime_zero, rayTime_zero, h, Int.sub_self,
      Int.sign_zero]
  · have hlen : ((e.toInt - s.toInt).natAbs : Int) = s.toInt - e.toInt := by omega
    have hdelta : -(wcoordRat e - wcoordRat s) = ((s.toInt - e.toInt : Int) : Rat) / 65536 := by
      rw [neg_sub, wcoordRat_sub]
    rw [if_neg (by rw [hpos]; omega), if_pos (hneg.2 h), rayAxis_num_of_le h.le, Int.sign_eq_neg_one_of_neg (by omega),
      hlen, some_div_eq_rayTime (by omega) (dist_below _ s) hdelta,
      some_div_eq_rayTime (by omega) one_eq_wcScale_div hdelta]

/-! ### The cell count of R307 is enough -/

/-- The direction of an axis that is not at its terminal cell leads there (R307). -/
def LeadsToLast (a : RayAxis) : Prop := (a.cell < a.last → a.dir = 1) ∧ (a.last < a.cell → a.dir = -1)

theorem leadsToLast_rayAxis (s e : Word) : LeadsToLast (rayAxis s e) := by
  rw [LeadsToLast, rayAxis_cell, rayAxis_last, rayAxis_dir]
  exact ⟨fun h => Int.sign_eq_one_of_pos (by omega), fun h => Int.sign_eq_neg_one_of_neg (by omega)⟩

section
variable {a : RayAxis} (ha : LeadsToLast a) (hne : a.cell ≠ a.last)
include ha hne

theorem raySpan_rayStep : raySpan (rayStep a) + 1 = raySpan a := by
  unfold LeadsToLast at ha
  simp only [raySpan, rayStep_cell, rayStep_last]
  omega

theorem leadsToLast_rayStep : LeadsToLast (rayStep a) := by
  unfold LeadsToLast at ha ⊢
  simp only [rayStep_cell, rayStep_last, rayStep_dir]
  omega

end

/-- Beyond the cell count of R307 one more cell changes nothing: the walk has ended. -/
theorem rayWalk_succ (w : World) {fuel : Nat} {x y z : RayAxis} (hx : LeadsToLast x) (hy : LeadsToLast y)
    (hz : LeadsToLast z) (hf : rayFuel x y z ≤ fuel) : rayWalk w (fuel + 1) x y z = rayWalk w fuel x y z := by
  induction fuel generalizing x y z with
  | zero => simp [rayFuel] at hf
  | succ fuel ih =>
    unfold rayFuel at hf ih
    rw [rayWalk.eq_2 w x y z (fuel + 1), rayWalk.eq_2 w x y z fuel]
    split_ifs with hit hxleast hend hyleast hend hend
    · rfl
    · rfl
    · have := raySpan_rayStep hx hend
      exact ih (leadsToLast_rayStep hx hend) hy hz (by omega)
    · rfl
    · have := raySpan_rayStep hy hend
      exact ih hx (leadsToLast_rayStep hy hend) hz (by omega)
    · rfl
    · have := raySpan_rayStep hz hend
      exact ih hx hy (leadsToLast_rayStep hz hend) (by omega)

/-- Allowed the cell count of R307 or more, the rational walk answers what `raycast` answers. -/
theorem qRaycast_eq_raycast (w : World) (sx sy sz ex ey ez : Word) {fuel : Nat}
    (hf : rayCells sx sy sz ex ey ez ≤ fuel) :
    qRaycast w fuel (wcoordRat sx) (wcoordRat sy) (wcoordRat sz) (wcoordRat ex) (wcoordRat ey) (wcoordRat ez) =
      raycast w sx sy sz ex ey ez := by
  rw [← rayFuel_rayAxis] at hf
  rw [qRaycast, raycast, qAxis_wcoordRat, qAxis_wcoordRat, qAxis_wcoordRat,
    qWalk_rationalAxis w fuel (len_rayAxis_nonneg ..) (len_rayAxis_nonneg ..) (len_rayAxis_nonneg ..)]
  induction fuel, hf using Nat.le_induction with
  | base => rfl
  | succ fuel hf ih =>
    rw [rayWalk_succ w (leadsToLast_rayAxis ..) (leadsToLast_rayAxis ..) (leadsToLast_rayAxis ..) hf, ih]

/-- Settles O57: the integer walk is the rational one, and its cell count is enough for it. -/
theorem rayIsTheRationalWalk : Obligations.RayIsTheRationalWalk := by
  unfold Obligations.RayIsTheRationalWalk
  intro sx sy sz ex ey ez s
  refine ⟨commandIs_ray sx sy sz ex ey ez, rayCells_le sx sy sz ex ey ez, fun fuel hf => ?_⟩
  rw [qRaycast_eq_raycast s.world sx sy sz ex ey ez hf]
  split
  · next key index h => exact answers_ray h
  · next h => exact raises_ray h

/-! ### Walks along one line (R312) -/

/-- The loop of R305 with `m` on axis `a`, and `p` and `q` on the other two. -/
def axialWalk (a : Fin 3) (w : World) (fuel : Nat) (m p q : RayAxis) : Option (Key × VIdx) :=
  match a with
  | 0 => rayWalk w fuel m p q
  | 1 => rayWalk w fuel p m q
  | 2 => rayWalk w fuel p q m

/-- An axis-parallel `RAY` is a walk whose other two axes have a zero delta. -/
theorem exists_ray_of_axialRay (a : Fin 3) (u v p q : Word) : ∃ sx sy sz ex ey ez,
    axialRay a u v p q = .ray sx sy sz ex ey ez ∧ ∀ w, raycast w sx sy sz ex ey ez =
      axialWalk a w (raySpan (rayAxis u v) + 1) (rayAxis u v) (rayAxis p p) (rayAxis q q) := by
  have hself (x : Word) : raySpan (rayAxis x x) = 0 := by simp [raySpan]
  match a with
  | 0 => exact ⟨u, p, q, v, p, q, rfl, fun w => by simp [raycast, rayFuel, axialWalk, hself]⟩
  | 1 => exact ⟨p, u, q, p, v, q, rfl, fun w => by simp [raycast, rayFuel, axialWalk, hself]⟩
  | 2 => exact ⟨p, q, u, p, q, v, rfl, fun w => by simp [raycast, rayFuel, axialWalk, hself]⟩

/-- Every `t` is at most `+inf` (R301). -/
theorem rayLe_of_len_eq_zero (a : RayAxis) {b : RayAxis} (hb : b.len = 0) : rayLe a b = true := if_pos hb

/-- `+inf` is above every finite `t` (R301). -/
theorem rayLe_eq_false {a b : RayAxis} (ha : a.len = 0) (hb : b.len ≠ 0) : rayLe a b = false := by
  rw [rayLe, if_neg hb, if_pos ha]

/-- The axis has a zero delta, so its `t` is `+inf` and it is at its terminal cell (R307). -/
structure Still (a : RayAxis) : Prop where
  len_eq : a.len = 0
  cell_eq : a.cell = a.last

theorem still_rayAxis {s e : Word} (h : (rayAxis s e).len = 0) : Still (rayAxis s e) := by
  refine ⟨h, ?_⟩
  rw [rayAxis_len] at h
  rw [rayAxis_cell, rayAxis_last]
  omega

theorem still_rayAxis_self (p : Word) : Still (rayAxis p p) := still_rayAxis (by simp)

/-- An axis that can still move has no zero delta, neither before a step nor after it (R307). -/
theorem still_rayStep {m : RayAxis} (hm : m.len = 0 → Still m) (hend : m.cell ≠ m.last) (h0 : (rayStep m).len = 0) :
    Still (rayStep m) :=
  absurd (hm h0).cell_eq hend

section
variable {m : RayAxis} {n : Int} (hdir : LeadsToLast m) (hn : Between m.cell m.last n) (hne : m.cell ≠ n)
include hdir hn hne

/-- A step does not pass over the cell ahead. -/
theorem between_rayStep : Between (rayStep m).cell m.last n := by
  unfold Between LeadsToLast at *
  rw [rayStep_cell]
  omega

/-- A step leaves no cell behind but the one it starts from. -/
theorem between_of_between_rayStep {j : Int} (hj : Between (rayStep m).cell n j) : Between m.cell n j := by
  unfold Between LeadsToLast at *
  rw [rayStep_cell] at hj
  omega

end

theorem between_left (u v : Int) : Between u v u := by unfold Between; omega
theorem between_right (u v : Int) : Between u v v := by unfold Between; omega

theorem ne_last_of_between {u v n : Int} (hn : Between u v n) (hne : u ≠ n) : u ≠ v := by
  unfold Between at hn
  omega

section
variable {m p q : RayAxis} (hm : m.len = 0 → Still m) (hp : Still p) (hq : Still q) (a : Fin 3) (w : World) {fuel : Nat}
include hm hp hq

/-- Only the axis whose `t` is finite is stepped; when none is, the walk ends at its start (R306, R307). -/
theorem axialWalk_succ : axialWalk a w (fuel + 1) m p q =
    if cellSet w (axialCell a m.cell p.cell q.cell) then some (axialCell a m.cell p.cell q.cell)
    else if m.cell = m.last then none else axialWalk a w fuel (rayStep m) p q := by
  have hmp := rayLe_of_len_eq_zero m hp.len_eq
  have hmq := rayLe_of_len_eq_zero m hq.len_eq
  have hpq := rayLe_of_len_eq_zero p hq.len_eq
  by_cases h0 : m.len = 0
  · have hpm := rayLe_of_len_eq_zero p h0
    rw [if_pos (hm h0).cell_eq]
    match a with
    | 0 | 1 | 2 =>
      simp only [axialWalk, rayWalk, hmp, hmq, hpq, hpm, (hm h0).cell_eq, hp.cell_eq, Bool.and_self, if_true]
      rfl
  · have hpm := rayLe_eq_false hp.len_eq h0
    have hqm := rayLe_eq_false hq.len_eq h0
    match a with
    | 0 | 1 | 2 =>
      simp only [axialWalk, rayWalk, hmp, hmq, hpq, hpm, hqm, Bool.and_self, Bool.and_false, Bool.false_and,
        Bool.false_eq_true, if_true, if_false]
      rfl

variable (hdir : LeadsToLast m)
include hdir

/-- The walk answers the first set cell between its start and its end. -/
theorem axialWalk_eq_some {n : Int} (hfuel : raySpan m < fuel) (hn : Between m.cell m.last n)
    (hset : cellSet w (axialCell a n p.cell q.cell) = true)
    (hfirst : ∀ j, Between m.cell n j → j ≠ n → cellSet w (axialCell a j p.cell q.cell) = false) :
    axialWalk a w fuel m p q = some (axialCell a n p.cell q.cell) := by
  induction fuel generalizing m with
  | zero => cases hfuel
  | succ fuel ih =>
    rw [axialWalk_succ hm hp hq]
    by_cases hstart : m.cell = n
    · rw [if_pos (hstart ▸ hset), hstart]
    have hend := ne_last_of_between hn hstart
    have hspan := raySpan_rayStep hdir hend
    rw [hfirst m.cell (between_left ..) hstart, if_neg Bool.false_ne_true, if_neg hend]
    exact ih (still_rayStep hm hend) (leadsToLast_rayStep hdir hend) (by omega) (between_rayStep hdir hn hstart)
      fun j hj => hfirst j (between_of_between_rayStep hdir hn hstart hj)

/-- The walk answers Absent when no cell between its start and its end is set. -/
theorem axialWalk_eq_none (hunset : ∀ j, Between m.cell m.last j → cellSet w (axialCell a j p.cell q.cell) = false) :
    axialWalk a w fuel m p q = none := by
  induction fuel generalizing m with
  | zero => match a with
    | 0 | 1 | 2 => rfl
  | succ fuel ih =>
    rw [axialWalk_succ hm hp hq, hunset m.cell (between_left ..), if_neg Bool.false_ne_true]
    split_ifs with hend
    · rfl
    · exact ih (still_rayStep hm hend) (leadsToLast_rayStep hdir hend)
        fun j hj => hunset j (between_of_between_rayStep hdir (between_right ..) hend hj)

end

/-- Settles O59: the walk along the axis, from the start cell, the other two coordinates being the cells of `p` and `q`. -/
theorem axialRaysHitTheFirstSetCell : Obligations.AxialRaysHitTheFirstSetCell := by
  unfold Obligations.AxialRaysHitTheFirstSetCell
  intro a u v p q s
  obtain ⟨sx, sy, sz, ex, ey, ez, hi, hwalk⟩ := exists_ray_of_axialRay a u v p q
  have hp := still_rayAxis_self p
  have hq := still_rayAxis_self q
  have hdir := leadsToLast_rayAxis u v
  rw [hi]
  simp only [← rayAxis_cell u v, ← rayAxis_last u v, ← rayAxis_cell p p, ← rayAxis_cell q q]
  exact ⟨fun n hn hset hfirst => answers_ray ((hwalk s.world).trans
      (axialWalk_eq_some still_rayAxis hp hq a s.world hdir (Nat.lt_succ_self _) hn hset hfirst)),
    fun hunset => raises_ray ((hwalk s.world).trans (axialWalk_eq_none still_rayAxis hp hq a s.world hdir hunset))⟩

end Sys2Proof.Proofs.Raycaster
end

section
-- The declarations of the parts below are elaborated one after another: side by side with the proofs above they take the
-- memory of one compile past the check's limit.
set_option Elab.async false

section
/-!
SUPPORT and PROOFS. Decoding and encoding as inverses (30_encoding.md R80, R81, R83, R86). A format assigns some bits of
`imm16` to its fields; the header of a command holds these fields and nothing else, so the words of a command and the
command determine each other.
-/

namespace Sys2Proof.Proofs.DecodeEncode

open Sys2Proof Sys2Proof.Machine Sys2Proof.Proofs.Encoding Sys2Proof.Proofs.BitOps

/-! ### Decoding an encoding -/

section
variable {i : Instr} {op : BitVec 8} {r : OpRow} {xs : List Word}

/-- A command whose row makes it again of its own header and operand words is decoded from them. -/
theorem decode_encode_of_row {imm : BitVec 16} (he : encode i = headerWord op imm :: xs) (hr : rowOf op = some r)
    (h0 : imm &&& immMask r.format = 0#16) (hx : xs.length = formatOperands r.format)
    (hb : ∀ rest, r.build imm (fun j => (xs ++ rest).getD j 0) = i) (rest : List Word) :
    decode (encode i ++ rest) = .command i rest := by
  rw [he, List.cons_append, decode_command hr h0 xs rest hx, hb]

/-- For the formats that assign no bit of `imm16`. -/
theorem decode_encode_no_field (he : encode i = headerWord op 0#16 :: xs) (hr : rowOf op = some r)
    (hx : xs.length = formatOperands r.format) (hb : ∀ rest, r.build 0#16 (fun j => (xs ++ rest).getD j 0) = i)
    (rest : List Word) : decode (encode i ++ rest) = .command i rest :=
  decode_encode_of_row he hr BitVec.zero_and hx hb rest

/-- For the formats whose one field `p` is the low end of `imm16`. -/
theorem decode_encode_low_field {w : Nat} {p : BitVec w} (he : encode i = headerWord op (p.setWidth 16) :: xs)
    (hr : rowOf op = some r) (hm : immMask r.format = BitVec.allOnes 16 <<< w)
    (hx : xs.length = formatOperands r.format) (hw : w ≤ 16)
    (hb : ∀ m : BitVec 16, m.extractLsb' 0 w = p → ∀ rest, r.build m (fun j => (xs ++ rest).getD j 0) = i)
    (rest : List Word) : decode (encode i ++ rest) = .command i rest :=
  decode_encode_of_row he hr (hm ▸ setWidth_and_high p) hx (hb _ (extract_setWidth hw p)) rest

end

/-- Settles O1: every format but that of `PUTB` has no field or one at the low end of `imm16`. -/
theorem decodeOfEncodeIsTheCommand : Obligations.DecodeOfEncodeIsTheCommand := by
  unfold Obligations.DecodeOfEncodeIsTheCommand
  intro i rest
  cases i with
  | putb p b d =>
    exact decode_encode_of_row (encode_putb p b d) rfl (putbImm_and_mask p b) rfl
      (fun _ => congrArg₂ (Instr.putb · · d) (putbImm_position p b) (putbImm_value p b)) rest
  | bitat | bitinv | setb | clrb | tglb | maskn | flat3 | flat2 | baPut | viGetC | chSet | chUnset | chTgl | chGet | chFill
  | chEmpty | chCount | chMGet | chMSet | wIns | fmRd | gidx | gidxo =>
    exact decode_encode_low_field rfl rfl rfl rfl (by decide) (by rintro _ rfl _; rfl) rest
  | popc | ispow2 | baNew | baGet | baGetInv | baSet | baClr | baTgl | baPopc | baRdw | baWrw | lkFrom | lkX | lkY | lkZ
  | lkIncX | lkDecX | lkIncY | lkDecY | lkIncZ | lkDecZ | lkAdd | lkSub | lkCmp | mkFrom | mkX | mkY | mkZ | mkIncX
  | mkDecX | mkIncY | mkDecY | mkIncZ | mkDecZ | mkAdd | mkSub | mkCmp | viFrom | viVKey | viBKey | viCmp | wiFrom | chLen
  | wGet | wRem | face | ray =>
    exact decode_encode_no_field rfl rfl rfl (fun _ => rfl) rest

/-! ### Encoding what was decoded -/

/-- What `imm16` holds of its fields (30_encoding.md R83): `imm` with the bits that the format leaves unassigned cleared,
written as `encode` writes it. -/
def immFields (f : Format) (imm : BitVec 16) : BitVec 16 :=
  match f with
  | .Z | .W1 | .W2 | .W3 | .W6 => 0#16
  | .P1 => (imm.extractLsb' 0 5).setWidth 16
  | .PB1 => putbImm (imm.extractLsb' 0 5) (imm.extractLsb' 8 1)
  | .N0 => (imm.extractLsb' 0 6).setWidth 16
  | .B3 | .B2 => (imm.extractLsb' 0 4).setWidth 16
  | .V1 | .F0 | .F1 => (imm.extractLsb' 0 1).setWidth 16
  | .S1 => (imm.extractLsb' 0 3).setWidth 16
  | .K1 | .K2 | .I0 => (imm.extractLsb' 0 12).setWidth 16
  | .T1 => (imm.extractLsb' 0 2).setWidth 16

/-- One field of `w` bits at the low end. -/
theorem setWidth_extract_of_mask {w : Nat} (hw : w ≤ 16) {imm : BitVec 16} (h : imm &&& BitVec.allOnes 16 <<< w = 0#16) :
    (imm.extractLsb' 0 w).setWidth 16 = imm := by
  apply BitVec.eq_of_getLsbD_eq
  intro j hj
  have hbit : (imm &&& BitVec.allOnes 16 <<< w).getLsbD j = false := by rw [h, BitVec.getLsbD_zero]
  rw [BitVec.getLsbD_setWidth, BitVec.getLsbD_extractLsb', Nat.zero_add, decide_eq_true hj, Bool.true_and]
  by_cases hjw : j < w
  · rw [decide_eq_true hjw, Bool.true_and]
  · rw [BitVec.getLsbD_and, BitVec.getLsbD_shiftLeft, BitVec.getLsbD_allOnes, decide_eq_true hj, decide_eq_false hjw,
      decide_eq_true (show j - w < 16 by omega), Bool.not_false, Bool.true_and, Bool.and_true, Bool.and_true] at hbit
    rw [decide_eq_false hjw, hbit, Bool.false_and]

/-- The two fields of `PUTB`: position and value. -/
theorem putbImm_of_mask {imm : BitVec 16} (h : imm &&& immMask .PB1 = 0#16) :
    putbImm (imm.extractLsb' 0 5) (imm.extractLsb' 8 1) = imm := by
  have hmask : ∀ j < 16, (immMask .PB1).getLsbD j = !(decide (j < 5) || decide (j = 8)) := by decide
  apply BitVec.eq_of_getLsbD_eq
  intro j hj
  have hbit : (imm &&& immMask .PB1).getLsbD j = false := by rw [h, BitVec.getLsbD_zero]
  rw [BitVec.getLsbD_and, hmask j hj] at hbit
  rw [putbImm, BitVec.getLsbD_or, BitVec.getLsbD_shiftLeft, BitVec.getLsbD_setWidth, BitVec.getLsbD_setWidth,
    BitVec.getLsbD_extractLsb', BitVec.getLsbD_extractLsb', Nat.zero_add]
  obtain hlow | rfl | hfree : j < 5 ∨ j = 8 ∨ ¬ j < 5 ∧ j ≠ 8 := by omega
  · simp only [hj, hlow, show j < 8 by omega, decide_true, Bool.true_and, Bool.not_true, Bool.and_false, Bool.false_and,
      Bool.or_false]
  · rfl
  · have hvalue : j < 8 ∨ ¬ j - 8 < 1 := by omega
    have hclear : imm.getLsbD j = false := by
      simpa only [hfree, decide_false, Bool.or_self, Bool.not_false, Bool.and_true] using hbit
    rcases hvalue with h8 | h8 <;>
      simp only [hfree, h8, hclear, decide_true, decide_false, Bool.not_true, Bool.false_and, Bool.and_false, Bool.or_self]

/-- An `imm16` whose unassigned bits are 0 is its fields. -/
theorem immFields_of_mask {f : Format} {imm : BitVec 16} (h : imm &&& immMask f = 0#16) : immFields f imm = imm := by
  cases f with
  | Z | W1 | W2 | W3 | W6 => exact (BitVec.and_allOnes.symm.trans h).symm
  | PB1 => exact putbImm_of_mask h
  | P1 | N0 | B3 | B2 | V1 | F0 | F1 | S1 | K1 | K2 | I0 | T1 => exact setWidth_extract_of_mask (by decide) h

/-- The command that a row makes has the row's header and the operand words it was made of (30_encoding.md R86). -/
theorem encode_build {r : OpRow} (hr : r ∈ opcodeMap) (imm : BitVec 16) (x : Nat → Word) :
    encode (r.build imm x) =
      headerWord r.op (immFields r.format imm) :: (List.range (formatOperands r.format)).map x := by
  have hmap : opcodeMap.map (fun r => encode (r.build imm x)) = opcodeMap.map fun r =>
      headerWord r.op (immFields r.format imm) :: (List.range (formatOperands r.format)).map x := rfl
  exact List.map_inj_left.1 hmap r hr

/-- What the decoder checked of the words that it takes for a command: a header that matches a row, and operand words after
it. -/
theorem decode_eq_command {ws : List Word} {i : Instr} {rest : List Word} (h : decode ws = .command i rest) :
    ∃ r ∈ opcodeMap, ∃ imm xs, ws = headerWord r.op imm :: (xs ++ rest) ∧ xs.length = formatOperands r.format ∧
      imm &&& immMask r.format = 0#16 ∧ i = r.build imm fun j => (xs ++ rest).getD j 0 := by
  match ws with
  | [] => cases h
  | hd :: tl =>
    by_cases hm : MatchesSomeRow hd
    · obtain ⟨r, hr, hrow⟩ := hm
      rw [decode_of_match hr hrow] at h
      split at h
      · cases h
      · rename_i hlen
        obtain ⟨rfl, rfl⟩ := Decoded.command.inj h
        have hhd : headerWord r.op (headerImm hd) = hd :=
          headerOp_of_match hrow ▸ headerWord_of_fields hd (headerReserved_of_match hrow)
        refine ⟨r, hr, headerImm hd, tl.take (formatOperands r.format), ?words, ?length, ?mask, ?command⟩
        case words => rw [List.take_append_drop, hhd]
        case length => exact List.length_take_of_le (Nat.le_of_not_lt hlen)
        case mask =>
          rw [← hhd, headerWord_and_formatMask, rowMatch, headerWord_inj] at hrow
          exact hrow.2
        case command => rw [List.take_append_drop]
    · obtain ⟨why, hill⟩ := decode_of_not_match hm tl
      rw [hill] at h
      cases h

/-- The first words of a list, read one by one. -/
theorem map_range_getD_append (xs rest : List Word) :
    (List.range xs.length).map (fun j => (xs ++ rest).getD j 0) = xs := by
  refine List.ext_getElem (by simp) fun j hj hj' => ?_
  rw [List.getElem_map, List.getElem_range, List.getD_append _ _ _ _ hj', List.getD_eq_getElem _ _ hj']

/-- Settles O2: the command that the decoder makes has the row's header and the operand words again. -/
theorem encodeOfDecodeIsTheWords : Obligations.EncodeOfDecodeIsTheWords := by
  unfold Obligations.EncodeOfDecodeIsTheWords
  intro ws i rest h
  obtain ⟨r, hr, imm, xs, rfl, hlen, hmask, rfl⟩ := decode_eq_command h
  rw [encode_build hr, immFields_of_mask hmask, ← hlen, map_range_getD_append, List.cons_append]

/-! ### The words of single commands -/

/-- Settles O5: each sample is decoded by evaluation. -/
theorem sampleWordsDecodeToTheirCommands : Obligations.SampleWordsDecodeToTheirCommands := by
  unfold Obligations.SampleWordsDecodeToTheirCommands
  decide

/-! ### One step -/

theorem step_of_command {s : State} {i : Instr} {rest : List Word} (h : decode s.cmdPort = .command i rest) :
    step s = exec i { s with cmdPort := rest } := by
  rw [step, h]

theorem step_of_incomplete {s : State} (h : decode s.cmdPort = .incomplete) : step s = .next s := by
  rw [step, h]

/-- Settles O6: the two answers of the decoder that are no illegal header. -/
theorem stepRunsTheDecodedCommand : Obligations.StepRunsTheDecodedCommand := by
  unfold Obligations.StepRunsTheDecodedCommand
  exact fun s => ⟨fun _ _ => step_of_command, step_of_incomplete⟩

end Sys2Proof.Proofs.DecodeEncode
end

section
/-!
SUPPORT and PROOFS. The invariant of 10_state.md R41: a command that writes a unit leaves that unit in its canonical form and
within its bounds, and a command that writes none leaves the invariant as it was; and no step stops (60_exceptions.md R337,
R340).
-/

namespace Sys2Proof.Proofs.Invariance

open Sys2Proof Sys2Proof.Machine Sys2Proof.Proofs.Units Sys2Proof.Proofs.WorldStore

/-! ### The invariant, unit by unit -/

/-- The invariant's three parts, one to a unit of state. -/
theorem invariant_iff (s : State) : Invariant s = true ↔
    worldWf s.world = true ∧ (cellsWf Config.bitvoxels s.fm = true ∧ ∀ e ∈ s.fm, e.2.toNat ≤ 63) ∧
    (cellsWf s.sba.n s.sba.words = true ∧ 1 ≤ s.sba.n ∧ s.sba.n ≤ Config.sbaMaxWords) := by
  simp only [Invariant, Memory.wf, fmInv, sbaInv, Bool.and_eq_true, List.all_eq_true, decide_eq_true_eq]
  tauto

section
variable {s : State}

/-- A response is no part of the invariant. -/
theorem invariant_respond (st : Status) (results : List Word) (h : Invariant s = true) :
    Invariant (respond st results s) = true := h

/-- The words that wait on the port are no part of the invariant. -/
theorem invariant_cmdPort (ws : List Word) (h : Invariant s = true) : Invariant { s with cmdPort := ws } = true := h

theorem invariant_world (h : Invariant s = true) {w : World} (hw : worldWf w = true) :
    Invariant { s with world := w } = true := by
  obtain ⟨-, hfm, hsba⟩ := (invariant_iff s).1 h
  exact (invariant_iff _).2 ⟨hw, hfm, hsba⟩

theorem invariant_fm (h : Invariant s = true) {m : List Host.Cell} (hm : cellsWf Config.bitvoxels m = true)
    (hle : ∀ e ∈ m, e.2.toNat ≤ 63) : Invariant { s with fm := m } = true := by
  obtain ⟨hworld, -, hsba⟩ := (invariant_iff s).1 h
  exact (invariant_iff _).2 ⟨hworld, ⟨hm, hle⟩, hsba⟩

theorem invariant_sba (h : Invariant s = true) {A : BitArray} (hA : cellsWf A.n A.words = true) (h1 : 1 ≤ A.n)
    (hmax : A.n ≤ Config.sbaMaxWords) : Invariant { s with sba := A } = true := by
  obtain ⟨hworld, hfm, -⟩ := (invariant_iff s).1 h
  exact (invariant_iff _).2 ⟨hworld, hfm, hA, h1, hmax⟩

/-- Another chunk in place of a stored one, with its key and in the canonical form. -/
theorem invariant_worldPut (h : Invariant s = true) {k : Key} {c : Chunk} (hk : c.key = k) (hc : chunkWf c = true) :
    Invariant { s with world := worldPut s.world k c } = true :=
  invariant_world h (worldWf_worldPut ((invariant_iff s).1 h).1 hk hc)

theorem chunk_of_invariant (h : Invariant s = true) {x : Word} {k : Key} {c : Chunk} (hc : Holds s x k c) :
    c.key = k ∧ chunkWf c = true := by
  obtain ⟨-, hget⟩ := hc
  exact chunk_of_worldWf ((invariant_iff s).1 h).1 hget

end

/-! ### The ways to end, and the preambles -/

/-- Whatever state the result leads to meets the invariant. -/
def LeadsToInvariant (r : Result) : Prop := ∀ t, r = .next t → Invariant t = true

section
variable {s : State}

theorem leadsToInvariant_reply {s' : State} (h : Invariant s' = true) (results : List Word) :
    LeadsToInvariant (reply s' results) := by
  rintro _ ⟨⟩
  exact invariant_respond _ _ h

theorem leadsToInvariant_raise (h : Invariant s = true) (st : Status) : LeadsToInvariant (raise st s) := by
  rintro _ ⟨⟩
  exact invariant_respond _ _ h

theorem leadsToInvariant_withKey (h : Invariant s = true) (x : Word) {go : Key → Result}
    (hgo : ∀ k, LeadsToInvariant (go k)) : LeadsToInvariant (withKey x s go) := by
  by_cases hx : x.toNat < 2 ^ 30
  · rw [withKey_of_lt hx]; exact hgo _
  · rw [withKey_of_ge (by omega)]; exact leadsToInvariant_raise h _

theorem leadsToInvariant_withChunk (h : Invariant s = true) (x : Word) {go : Key → Chunk → Result}
    (hgo : ∀ k c, Holds s x k c → LeadsToInvariant (go k c)) : LeadsToInvariant (withChunk x s go) := by
  obtain ⟨-, hr⟩ | ⟨-, -, hr⟩ | ⟨k, c, hc, hr⟩ := withChunk_cases x s go <;> rw [hr]
  · exact leadsToInvariant_raise h _
  · exact leadsToInvariant_raise h _
  · exact hgo k c hc

end

/-! ### The commands that write -/

section
variable {s : State} (h : Invariant s = true)
include h

theorem leadsToInvariant_chunkLayerUpdate {f : Layer → Layer}
    (hf : ∀ ly, cellsWf Config.layerWords ly = true → cellsWf Config.layerWords (f ly) = true) (key : Word) :
    LeadsToInvariant (chunkLayerUpdate f key s) :=
  leadsToInvariant_withChunk h key fun _ c hc => by
    obtain ⟨hkey, hwf⟩ := chunk_of_invariant h hc
    exact leadsToInvariant_reply
      (invariant_worldPut (c := { c with layer := f c.layer }) h hkey (chunkWf_layer hwf (hf _ ((chunkWf_iff c).1 hwf).1))) _

theorem leadsToInvariant_chMSet (vi : VIdx) (key val : Word) : LeadsToInvariant (exec (.chMSet vi key val) s) :=
  leadsToInvariant_withChunk h key fun _ c hc => by
    obtain ⟨hkey, hwf⟩ := chunk_of_invariant h hc
    exact leadsToInvariant_reply
      (invariant_worldPut h ((metaSet_key c vi val).trans hkey) (chunkWf_metaSet hwf vi val)) _

theorem leadsToInvariant_wIns (var : BitVec 2) (key : Word) : LeadsToInvariant (exec (.wIns var key) s) :=
  leadsToInvariant_withKey h key fun k =>
    leadsToInvariant_reply (invariant_worldPut h rfl (chunkWf_newChunk k _)) _

theorem leadsToInvariant_wRem (key : Word) : LeadsToInvariant (exec (.wRem key) s) :=
  leadsToInvariant_withKey h key fun k => by
    split
    · exact leadsToInvariant_reply h _
    · exact leadsToInvariant_reply (invariant_world h (worldWf_worldRemove ((invariant_iff s).1 h).1 k)) _

theorem leadsToInvariant_face (key : Word) : LeadsToInvariant (exec (.face key) s) :=
  leadsToInvariant_withChunk h key fun _ _ _ =>
    leadsToInvariant_reply (invariant_fm h (cellsWf_faceBuffer _ _) (faceBuffer_le _ _)) _

theorem leadsToInvariant_sbaModify (f : Word → BitVec 5 → Word) (pos : Int) :
    LeadsToInvariant (sbaUpdate (arrayModify f s.sba pos) s) := by
  obtain ⟨-, -, hwf, h1, hmax⟩ := (invariant_iff s).1 h
  cases hA : arrayModify f s.sba pos with
  | none => exact leadsToInvariant_raise h _
  | some A =>
    obtain ⟨hn, hA⟩ := arrayModify_wf hA hwf
    exact leadsToInvariant_reply (invariant_sba h hA (hn ▸ h1) (hn ▸ hmax)) _

/-- A request above the capacity is refused, and one below 1 makes one word (41_bitarray.md R131). -/
theorem leadsToInvariant_baNew (n : Word) : LeadsToInvariant (exec (.baNew n) s) := by
  change LeadsToInvariant (sbaNew Config.sbaMaxWords n.toInt s)
  unfold sbaNew
  split
  · exact leadsToInvariant_raise h _
  · have h1 : 1 ≤ (if n.toInt ≥ 1 then n.toInt.toNat else 1) := by split <;> omega
    have hmax : (if n.toInt ≥ 1 then n.toInt.toNat else 1) ≤ Config.sbaMaxWords := by
      rw [Config.sbaMaxWords] at *
      split <;> omega
    exact leadsToInvariant_reply (invariant_sba (A := arrayNew _) h (cellsWf_nil _) h1 hmax) _

theorem leadsToInvariant_baWrw (idx val : Word) : LeadsToInvariant (exec (.baWrw idx val) s) := by
  obtain ⟨-, -, hwf, h1, hmax⟩ := (invariant_iff s).1 h
  change LeadsToInvariant (execBaWrw idx val s)
  unfold execBaWrw
  split
  · exact leadsToInvariant_raise h _
  · rename_i hidx
    exact leadsToInvariant_reply (invariant_sba (A := { s.sba with words := writeCell s.sba.words idx.toNat val }) h
      (cellsWf_writeCell hwf (Nat.lt_of_not_le hidx) val) h1 hmax) _

/-- A command that writes no unit leads to the state that it started from, but for the response. -/
theorem leadsToInvariant_of_writtenBy_nothing {i : Instr} (hi : writtenBy i = .nothing) :
    LeadsToInvariant (exec i s) := by
  obtain ⟨st, results, s', hr, hw⟩ := exec_endsWriting i s
  rw [hi] at hw
  cases hw
  rw [hr]
  rintro _ ⟨⟩
  exact invariant_respond _ _ h

end

/-! ### Every command and every step -/

theorem exec_keeps_invariant {s : State} (h : Invariant s = true) (i : Instr) : LeadsToInvariant (exec i s) := by
  cases i with
  | baNew n => exact leadsToInvariant_baNew h n
  | baSet | baPut | baClr | baTgl => exact leadsToInvariant_sbaModify h _ _
  | baWrw idx val => exact leadsToInvariant_baWrw h idx val
  | chSet vi | chUnset vi | chTgl vi =>
    exact leadsToInvariant_chunkLayerUpdate h (fun _ hly => layerModify_wf hly vi) _
  | chFill vi | chEmpty vi => exact leadsToInvariant_chunkLayerUpdate h (fun _ hly => writeGroup_wf hly vi _) _
  | chMSet vi key val => exact leadsToInvariant_chMSet h vi key val
  | wIns var key => exact leadsToInvariant_wIns h var key
  | wRem key => exact leadsToInvariant_wRem h key
  | face key => exact leadsToInvariant_face h key
  | _ => exact leadsToInvariant_of_writtenBy_nothing h rfl

theorem step_keeps_invariant {s : State} (h : Invariant s = true) : LeadsToInvariant (step s) := by
  unfold step
  split
  · rintro _ ⟨⟩
    exact h
  · exact leadsToInvariant_raise (invariant_cmdPort _ h) _
  · exact exec_keeps_invariant (invariant_cmdPort _ h) _

theorem step_answers_next (s : State) : ∃ t, step s = .next t := by
  unfold step
  split
  · exact ⟨_, rfl⟩
  · exact ⟨_, rfl⟩
  · obtain ⟨st, results, s', hr, -⟩ := exec_endsWriting _ { s with cmdPort := _ }
    exact ⟨_, hr⟩

theorem run_succ {M : Host.Core} {s t : M.State} (h : M.step s = .next t) (n : Nat) : M.run (n + 1) s = M.run n t := by
  simp only [Host.Core.run, h]

theorem safeRun (n : Nat) (s : State) : SafeRun n s := by
  induction n generalizing s with
  | zero => exact ⟨s, rfl⟩
  | succ n ih =>
    obtain ⟨t, ht⟩ := step_answers_next s
    obtain ⟨u, hu⟩ := ih t
    exact ⟨u, (run_succ (M := core) ht n).trans hu⟩

/-- Settles O9: after reset every memory lists nothing. -/
theorem resetMeetsTheInvariant : Obligations.ResetMeetsTheInvariant := by
  unfold Obligations.ResetMeetsTheInvariant
  exact (invariant_iff State.reset).2 ⟨worldWf_nil, ⟨cellsWf_nil _, nofun⟩, cellsWf_nil _, by decide, by decide⟩

/-- Settles O10: by the unit that the command of the step writes, and by induction on the number of steps. -/
theorem stepKeepsTheInvariant : Obligations.StepKeepsTheInvariant := by
  unfold Obligations.StepKeepsTheInvariant
  exact ⟨fun _ t h ht => step_keeps_invariant h t ht, safeRun⟩

end Sys2Proof.Proofs.Invariance
end

section
/-!
SUPPORT and PROOFS. How long an expansion of the face mask buffer is and how large its indices are, under tables of the
lengths that 46_face_solver.md R280 asks (R279, R283).
-/

namespace Sys2Proof.Proofs.Expansion

open Sys2Proof Sys2Proof.Machine

section
variable {fm : List Host.Cell}

/-- A bound on the listed entries bounds every entry, an unlisted one being 0. -/
theorem readCell_le (h : ∀ e ∈ fm, e.2.toNat ≤ 63) (i : Nat) : (readCell fm i).toNat ≤ 63 := by
  rw [readCell]
  cases hl : lookupAt fm i with
  | none => decide
  | some v => exact h _ (mem_of_lookupAt hl)

/-- The bits of a vector that a narrower one holds are counted in the narrower one. -/
theorem popcount_setWidth {w v : Nat} {x : BitVec w} (hx : x.toNat < 2 ^ v) (hv : v ≤ w) :
    popcount (x.setWidth v) = popcount x := by
  rw [popcount, popcount, popcountBelow_eq_card, popcountBelow_eq_card]
  congr 1
  ext q
  simp only [Finset.mem_filter, Finset.mem_range, BitVec.getLsbD_setWidth]
  have hhigh : v ≤ q → x.getLsbD q = false := fun hq => by
    rw [← BitVec.testBit_toNat, Nat.testBit_lt_two_pow (hx.trans_le (Nat.pow_le_pow_right (by decide) hq))]
  grind

theorem fmMask_ne_zero (h : ∀ e ∈ fm, e.2.toNat ≤ 63) {i : Nat} (hi : readCell fm i ≠ 0#8) : fmMask fm i ≠ 0#6 := by
  have hle := readCell_le h i
  rw [fmMask, ne_eq, ← BitVec.toNat_inj, BitVec.toNat_setWidth, Nat.mod_eq_of_lt (by omega)]
  exact fun h0 => hi (BitVec.eq_of_toNat_eq h0)

variable {T : IndexTable} (hT : TableMeetsR280 T) (h : ∀ e ∈ fm, e.2.toNat ≤ 63)
include hT h

/-- A position has six indices for each visible face (R279, R280). -/
theorem length_expandAt (i : Nat) : (expandAt fm T i).length = 6 * popcount (readCell fm i) := by
  have hle := readCell_le h i
  rw [expandAt]
  split
  · next h0 => rw [h0, popcount_zero]; rfl
  · next h0 =>
    rw [List.length_map, hT _ (fmMask_ne_zero h h0), fmMask, popcount_setWidth (by omega) (by decide)]

theorem length_expand : (expand fm T).length = 6 * facesOf fm := by
  simp only [expand, List.length_flatMap, length_expandAt hT h]
  rw [facesOf, Finset.mul_sum]
  rfl

end

/-- Position 4095 has the largest indices, at most `23 + 24 * 4095`. -/
theorem toNat_le_of_mem_expand {fm : List Host.Cell} {T : IndexTable} {w : Word} (hw : w ∈ expand fm T) :
    w.toNat ≤ 98303 := by
  obtain ⟨i, hi, hw⟩ := List.mem_flatMap.1 hw
  have hi := List.mem_range.1 hi
  rw [expandAt] at hw
  split at hw
  · cases hw
  · obtain ⟨e, -, rfl⟩ := List.mem_map.1 hw
    have := e.isLt
    simp only [Config.bitvoxels, Config.vblock] at hi ⊢
    rw [BitVec.toNat_ofNat]
    exact (Nat.mod_le _ _).trans (by omega)

/-- Settles O56: the lengths position by position, and the bound on one index. -/
theorem expandedLengthIsSixTimesTheFaces : Obligations.ExpandedLengthIsSixTimesTheFaces := by
  unfold Obligations.ExpandedLengthIsSixTimesTheFaces
  intro T T' fm hT hT' h
  have hlen := length_expand hT h
  exact ⟨hlen, (length_expand hT' h).trans hlen.symm, fun w hw => toNat_le_of_mem_expand hw⟩

/-- An `FM` has at most six bits set at each of its 4096 positions. -/
theorem facesOf_le {fm : List Host.Cell} (h : ∀ e ∈ fm, e.2.toNat ≤ 63) : facesOf fm ≤ 4096 * 6 := by
  refine (Finset.sum_le_card_nsmul _ _ 6 fun i _ => ?_).trans_eq (by rw [Finset.card_range, smul_eq_mul])
  have hle := readCell_le h i
  rw [← popcount_setWidth (v := 6) (by omega) (by decide)]
  exact popcount_le _

end Sys2Proof.Proofs.Expansion
end

section
/-!
SUPPORT and PROOFS. The response that a command ends in (30_encoding.md R82, 60_exceptions.md R330, R337), and which commands
fail with which status (60_exceptions.md R331 to R334, R338). A failure is a fact of the command alone, that it is not well
formed, or of the state that it meets.
-/

namespace Sys2Proof.Proofs.Endings

open Sys2Proof Sys2Proof.Machine Sys2Proof.Proofs.Units Sys2Proof.Proofs.FaceSolver Sys2Proof.Proofs.Expansion

/-! ### One response (30_encoding.md R82) -/

/-- The count stands above the status, which has eight bits (30_encoding.md R82). -/
theorem toNat_responseHeader (st : Status) {m : Nat} (hm : m < 2 ^ 24) :
    (responseHeader st m).toNat = m * 2 ^ 8 + (statusCode st).toNat := by
  rw [responseHeader, BitVec.toNat_append, ← Nat.shiftLeft_add_eq_or_of_lt (statusCode st).isLt, BitVec.toNat_ofNat,
    Nat.mod_eq_of_lt hm, Nat.shiftLeft_eq]

theorem responseHeader_fields (st : Status) {m : Nat} (hm : m < 2 ^ 24) :
    (responseHeader st m).toNat / 2 ^ 8 = m ∧ (responseHeader st m).toNat % 2 ^ 8 = (statusCode st).toNat := by
  have := (statusCode st).isLt
  rw [toNat_responseHeader st hm]
  omega

/-- Every command ends with one response, with result words on `OK` alone, as many as its row has. -/
theorem exec_ends_in_response (i : Instr) (s : State) : ∃ t st results, exec i s = .next t ∧
    t.respPort = responseHeader st results.length :: results ∧ t.cmdPort = s.cmdPort ∧
    (st ≠ .ok → results = []) ∧ (st = .ok → ∀ m, resultCount i = some m → results.length = m) := by
  obtain ⟨s', results, hr, hcmd, hlen⟩ | ⟨st, hst, hr⟩ := exec_cases i s
  · exact ⟨_, .ok, results, hr, rfl, hcmd, fun h => absurd rfl h, fun _ m hm => hlen m hm⟩
  · exact ⟨_, st, [], hr, rfl, rfl, fun _ => rfl, fun h => absurd h hst⟩

/-- Settles O7: from what every command can do, from the place values of the header, and from the length of an expansion. -/
theorem everyCommandEndsInOneResponse : Obligations.EveryCommandEndsInOneResponse := by
  unfold Obligations.EveryCommandEndsInOneResponse
  refine ⟨exec_ends_in_response, fun st m hm => ?header, fun T fm hT hfm => ?expansion⟩
  case header =>
    obtain ⟨hcount, hstatus⟩ := responseHeader_fields st hm
    exact ⟨hcount, by cases st <;> exact hstatus⟩
  case expansion =>
    have hfaces := facesOf_le hfm
    rw [length_expand hT hfm]
    omega

/-- Settles O11: a command whose response does not carry `OK` was raised. -/
theorem failedCommandsChangeNothing : Obligations.FailedCommandsChangeNothing := by
  unfold Obligations.FailedCommandsChangeNothing
  intro i s t st results ht hresp hst
  obtain ⟨s', results', hr, -⟩ | ⟨st', -, hr⟩ := exec_cases i s
  · obtain rfl : t = respond .ok results' s' := Host.Outcome.next.inj (ht.symm.trans hr)
    exact absurd (responseHeader_status (List.cons.inj hresp).1).symm hst
  · obtain rfl : t = respond st' [] s := Host.Outcome.next.inj (ht.symm.trans hr)
    rw [responseHeader_status (List.cons.inj hresp).1]

/-! ### The unit that a command writes (20_memory.md R68) -/

/-- `SBA` is written by `BA.*` (10_state.md R33). -/
theorem eq_of_writtenBy_sba {i : Instr} (h : writtenBy i = .sba) : (∃ n, i = .baNew n) ∨ (∃ pos, i = .baSet pos) ∨
    (∃ b pos, i = .baPut b pos) ∨ (∃ pos, i = .baClr pos) ∨ (∃ pos, i = .baTgl pos) ∨ (∃ idx val, i = .baWrw idx val) := by
  cases i with
  | baNew n => exact .inl ⟨n, rfl⟩
  | baSet pos => exact .inr (.inl ⟨pos, rfl⟩)
  | baPut b pos => exact .inr (.inr (.inl ⟨b, pos, rfl⟩))
  | baClr pos => exact .inr (.inr (.inr (.inl ⟨pos, rfl⟩)))
  | baTgl pos => exact .inr (.inr (.inr (.inr (.inl ⟨pos, rfl⟩))))
  | baWrw idx val => exact .inr (.inr (.inr (.inr (.inr ⟨idx, val, rfl⟩))))
  | _ => cases h

/-- `WORLD` is written by the chunk commands that write and by `W.INS` and `W.REM` (10_state.md R24, R26). -/
theorem eq_of_writtenBy_world {i : Instr} (h : writtenBy i = .world) : (∃ vi key, i = .chSet vi key) ∨
    (∃ vi key, i = .chUnset vi key) ∨ (∃ vi key, i = .chTgl vi key) ∨ (∃ vi key, i = .chFill vi key) ∨
    (∃ vi key, i = .chEmpty vi key) ∨ (∃ vi key val, i = .chMSet vi key val) ∨ (∃ var key, i = .wIns var key) ∨
    (∃ key, i = .wRem key) := by
  cases i with
  | chSet vi key => exact .inl ⟨vi, key, rfl⟩
  | chUnset vi key => exact .inr (.inl ⟨vi, key, rfl⟩)
  | chTgl vi key => exact .inr (.inr (.inl ⟨vi, key, rfl⟩))
  | chFill vi key => exact .inr (.inr (.inr (.inl ⟨vi, key, rfl⟩)))
  | chEmpty vi key => exact .inr (.inr (.inr (.inr (.inl ⟨vi, key, rfl⟩))))
  | chMSet vi key val => exact .inr (.inr (.inr (.inr (.inr (.inl ⟨vi, key, val, rfl⟩)))))
  | wIns var key => exact .inr (.inr (.inr (.inr (.inr (.inr (.inl ⟨var, key, rfl⟩))))))
  | wRem key => exact .inr (.inr (.inr (.inr (.inr (.inr (.inr ⟨key, rfl⟩))))))
  | _ => cases h

/-- Settles O16: a state with at most the command's own unit written differs from the one before in that unit alone. -/
theorem unitsAreWrittenByTheirOwnCommandsOnly : Obligations.UnitsAreWrittenByTheirOwnCommandsOnly := by
  unfold Obligations.UnitsAreWrittenByTheirOwnCommandsOnly
  intro i s t ht
  obtain ⟨st, results, s', hr, hw⟩ := exec_endsWriting i s
  obtain rfl : t = respond st results s' := Host.Outcome.next.inj (ht.symm.trans hr)
  generalize hu : writtenBy i = u at hw
  cases hw with
  | unchanged => exact ⟨rfl, .inl rfl, .inl rfl, .inl rfl⟩
  | sba A => exact ⟨rfl, .inr (eq_of_writtenBy_sba hu), .inl rfl, .inl rfl⟩
  | world w => exact ⟨rfl, .inl rfl, .inr (eq_of_writtenBy_world hu), .inl rfl⟩
  | fm m => exact ⟨rfl, .inl rfl, .inl rfl, .inr (eq_face_of_writtenBy hu)⟩

/-! ### Which commands fail -/

/-- The failure of a well-formed command in a state, `none` when it ends `OK` (60_exceptions.md R331, R332, R334, R338). -/
def stateFailure (s : State) : Instr → Option Status
  | .baRdw idx | .baWrw idx _ => if s.sba.n ≤ idx.toNat then some .illegalOperand else none
  | .baGet pos | .baGetInv pos | .baSet pos | .baPut _ pos | .baClr pos | .baTgl pos =>
    if ¬ (0 ≤ pos.toInt ∧ pos.toInt / 32 < (s.sba.n : Int)) then some .outOfRange else none
  | .gidxo _ outLen => if outLen.toInt ≠ 6 * (facesOf s.fm : Int) then some .outOfRange else none
  | .ray sx sy sz ex ey ez => if raycast s.world sx sy sz ex ey ez = none then some .absent else none
  | i => (chunkOperand i).bind fun key => if worldGet s.world (key.setWidth 30) = none then some .absent else none

/-- The status other than `OK` that a command ends with, if any. -/
def failure (i : Instr) (s : State) : Option Status := if i.wellFormed then stateFailure s i else some .illegalOperand

/-- The result fails with the status, or ends `OK` when there is none. -/
def EndsAs (s : State) (r : Result) : Option Status → Prop
  | none => ∃ s' results, r = reply s' results
  | some st => st ≠ .ok ∧ r = raise st s

section
variable {s : State}

theorem endsAs_reply (s' : State) (results : List Word) : EndsAs s (reply s' results) none := ⟨s', results, rfl⟩

theorem endsAs_illegalOperand : EndsAs s (raise .illegalOperand s) (some .illegalOperand) := ⟨nofun, rfl⟩

/-- A test of the state and then the rest of the command. -/
theorem endsAs_ite {P : Prop} [Decidable P] {st : Status} (hst : st ≠ .ok) {r : Result} (h : EndsAs s r none) :
    EndsAs s (if P then raise st s else r) (if P then some st else none) := by
  split
  · exact ⟨hst, rfl⟩
  · exact h

/-- An operand or field test and then the rest of the command. -/
theorem endsAs_guard {P : Prop} [Decidable P] {b : Bool} (hb : b = true ↔ ¬ P) {r : Result} {o : Option Status}
    (h : b = true → EndsAs s r o) :
    EndsAs s (if P then raise .illegalOperand s else r) (if b then o else some .illegalOperand) := by
  by_cases hP : P
  · rw [if_pos hP, if_neg (by rw [hb]; exact not_not.2 hP)]
    exact endsAs_illegalOperand
  · rw [if_neg hP, if_pos (hb.2 hP)]
    exact h (hb.2 hP)

theorem isKeyWord_iff (x : Word) : isKeyWord x = true ↔ x.toNat < 2 ^ 30 := decide_eq_true_iff
theorem isVIdxWord_iff (x : Word) : isVIdxWord x = true ↔ x.toNat ≤ 4095 := decide_eq_true_iff

theorem endsAs_withKey {x : Word} {go : Key → Result} {o : Option Status} (h : EndsAs s (go (x.setWidth 30)) o) :
    EndsAs s (withKey x s go) (if isKeyWord x then o else some .illegalOperand) := by
  by_cases hx : x.toNat < 2 ^ 30
  · rwa [withKey_of_lt hx, if_pos ((isKeyWord_iff x).2 hx)]
  · rw [withKey_of_ge (by omega), if_neg (mt (isKeyWord_iff x).1 hx)]
    exact endsAs_illegalOperand

theorem endsAs_withVIdx {x : Word} {go : VIdx → Result} {o : Option Status} (h : EndsAs s (go (x.setWidth 12)) o) :
    EndsAs s (withVIdx x s go) (if isVIdxWord x then o else some .illegalOperand) := by
  by_cases hx : x.toNat ≤ 4095
  · rwa [withVIdx_of_le hx, if_pos ((isVIdxWord_iff x).2 hx)]
  · rw [withVIdx_of_gt (by omega), if_neg (mt (isVIdxWord_iff x).1 hx)]
    exact endsAs_illegalOperand

theorem endsAs_keyUnary (f : Key → Word) (x : Word) :
    EndsAs s (keyUnary f x s) (if isKeyWord x then none else some .illegalOperand) :=
  endsAs_withKey (endsAs_reply _ _)

/-- Two operand tests are one test of both. -/
theorem ite_and_ite (a b : Bool) (o p : Option Status) :
    (if a then if b then o else p else p) = if a && b then o else p := by cases a <;> rfl

theorem endsAs_keyBinary (f : Key → Key → Word) (x y : Word) :
    EndsAs s (keyBinary f x y s) (if isKeyWord x && isKeyWord y then none else some .illegalOperand) := by
  rw [← ite_and_ite]
  exact endsAs_withKey (endsAs_withKey (endsAs_reply _ _))

theorem endsAs_withChunk {x : Word} {go : Key → Chunk → Result} (h : ∀ k c, EndsAs s (go k c) none) :
    EndsAs s (withChunk x s go)
      (if isKeyWord x then if worldGet s.world (x.setWidth 30) = none then some .absent else none
        else some .illegalOperand) := by
  refine endsAs_withKey ?_
  cases worldGet s.world (x.setWidth 30) with
  | none => exact ⟨nofun, rfl⟩
  | some c => exact h _ c

/-- A read of one bit by its position (60_exceptions.md R331). -/
theorem endsAs_sbaRead {r : Option Word} {pos : Int} {v : Word}
    (hr : r = if 0 ≤ pos ∧ pos / 32 < (s.sba.n : Int) then some v else none) :
    EndsAs s (sbaRead r s) (if ¬ (0 ≤ pos ∧ pos / 32 < (s.sba.n : Int)) then some .outOfRange else none) := by
  by_cases h : 0 ≤ pos ∧ pos / 32 < (s.sba.n : Int)
  · rw [hr, if_pos h, if_neg (not_not.2 h)]
    exact endsAs_reply _ _
  · rw [hr, if_neg h, if_pos h]
    exact ⟨nofun, rfl⟩

/-- A change of one bit by its position (60_exceptions.md R331). -/
theorem endsAs_sbaModify (f : Word → BitVec 5 → Word) (pos : Int) :
    EndsAs s (sbaUpdate (arrayModify f s.sba pos) s)
      (if ¬ (0 ≤ pos ∧ pos / 32 < (s.sba.n : Int)) then some .outOfRange else none) := by
  by_cases h : 0 ≤ pos ∧ pos / 32 < (s.sba.n : Int)
  · rw [arrayModify, locate_eq, if_pos h, if_neg (not_not.2 h)]
    exact endsAs_reply _ _
  · rw [arrayModify_none h, if_pos h]
    exact ⟨nofun, rfl⟩

end

theorem ends_as_failure (i : Instr) (s : State) : EndsAs s (exec i s) (failure i s) := by
  cases i with
  | bitat | bitinv | setb | clrb | tglb | putb | popc | ispow2 | baPopc | lkFrom | mkFrom | viFrom | wiFrom | fmRd | gidx =>
    exact endsAs_reply _ _
  | maskn | flat3 | flat2 | baNew =>
    exact endsAs_guard (decide_eq_true_iff.trans not_lt.symm) fun _ => endsAs_reply _ _
  | lkX | lkY | lkZ | lkIncX | lkDecX | lkIncY | lkDecY | lkIncZ | lkDecZ => exact endsAs_keyUnary _ _
  | mkX | mkY | mkZ | mkIncX | mkDecX | mkIncY | mkDecY | mkIncZ | mkDecZ => exact endsAs_keyUnary _ _
  | lkAdd | lkSub | lkCmp | mkAdd | mkSub | mkCmp => exact endsAs_keyBinary _ _ _
  | viVKey | viBKey => exact endsAs_withVIdx (endsAs_reply _ _)
  | viCmp a b =>
    change EndsAs s _ (if isVIdxWord a && isVIdxWord b then none else some .illegalOperand)
    rw [← ite_and_ite]
    exact endsAs_withVIdx (endsAs_withVIdx (endsAs_reply _ _))
  | viGetC sel k =>
    change EndsAs s _ (if decide (sel.toNat ≤ 5) && isVIdxWord k then none else some .illegalOperand)
    rw [← ite_and_ite]
    exact endsAs_guard (decide_eq_true_iff.trans not_lt.symm) fun _ => endsAs_withVIdx (endsAs_reply _ _)
  | chSet | chUnset | chTgl | chGet | chFill | chEmpty | chCount | chMGet | chMSet | chLen | wGet | face =>
    exact endsAs_withChunk fun _ _ => endsAs_reply _ _
  | wIns => exact endsAs_withKey (endsAs_reply _ _)
  | wRem =>
    refine endsAs_withKey ?_
    split <;> exact endsAs_reply _ _
  | baGet pos => exact endsAs_sbaRead (arrayBitAt_eq s.sba pos.toInt)
  | baGetInv pos => exact endsAs_sbaRead (arrayBitInvAt_eq s.sba pos.toInt)
  | baSet | baPut | baClr | baTgl => exact endsAs_sbaModify _ _
  | baRdw | baWrw => exact endsAs_ite (st := .illegalOperand) nofun (endsAs_reply _ _)
  | gidxo flip outLen =>
    change EndsAs s (execGidxo flip outLen s) (if outLen.toInt ≠ 6 * (facesOf s.fm : Int) then some .outOfRange else none)
    rw [← faceCount_eq]
    exact endsAs_ite (st := .outOfRange) nofun (endsAs_reply _ _)
  | ray sx sy sz ex ey ez =>
    change EndsAs s (execRay sx sy sz ex ey ez s) (if raycast s.world sx sy sz ex ey ez = none then some .absent else none)
    unfold execRay
    cases raycast s.world sx sy sz ex ey ez with
    | none => exact ⟨nofun, rfl⟩
    | some wi => exact endsAs_reply _ _

/-- A command raises the status that it fails with and no other. -/
theorem raises_iff_failure {i : Instr} {s : State} {st : Status} (hst : st ≠ .ok) :
    Raises i s st ↔ failure i s = some st := by
  have hends := ends_as_failure i s
  cases hf : failure i s with
  | none =>
    obtain ⟨s', results, hr⟩ := hf ▸ hends
    refine ⟨fun h => absurd ?_ hst, nofun⟩
    exact respond_status (Host.Outcome.next.inj (h.symm.trans hr))
  | some st' =>
    obtain ⟨-, hr⟩ := hf ▸ hends
    constructor
    · intro h
      rw [respond_status (Host.Outcome.next.inj (h.symm.trans hr))]
    · rintro ⟨⟩
      exact hr

/-! ### The causes of each status -/

/-- A word index outside `SBA` (41_bitarray.md R139, R140), the one item of R338 that the command alone does not decide. -/
def IllegalIndex (i : Instr) (s : State) : Prop :=
  (∃ idx, i = .baRdw idx ∧ s.sba.n ≤ idx.toNat) ∨ (∃ idx val, i = .baWrw idx val ∧ s.sba.n ≤ idx.toNat)

/-- The two causes of `OUT_OF_RANGE` (60_exceptions.md R331, R332). -/
def OutsideRange (i : Instr) (s : State) : Prop :=
  (∃ pos, ¬ PosInRange s.sba.n pos ∧ (i = .baGet pos ∨ i = .baGetInv pos ∨ i = .baSet pos ∨
    (∃ b, i = .baPut b pos) ∨ i = .baClr pos ∨ i = .baTgl pos)) ∨
  (∃ flip outLen, i = .gidxo flip outLen ∧ outLen.toInt ≠ 6 * (facesOf s.fm : Int))

/-- No chunk under the key that the command names (60_exceptions.md R334). -/
def ChunkAbsent (i : Instr) (s : State) : Prop :=
  ∃ key, chunkOperand i = some key ∧ worldGet s.world (key.setWidth 30) = none

/-- A `RAY` that finds no set bitvoxel (60_exceptions.md R334). -/
def RayMisses (i : Instr) (s : State) : Prop :=
  ∃ sx sy sz ex ey ez, i = .ray sx sy sz ex ey ez ∧ raycast s.world sx sy sz ex ey ez = none

theorem of_ite_eq_some {P : Prop} [Decidable P] {st st' : Status} (h : (if P then some st else none) = some st') :
    st' = st ∧ P := by
  split at h
  · exact ⟨(Option.some.inj h).symm, ‹P›⟩
  · cases h

/-- Every failure of a well-formed command has its cause in the state. -/
theorem cause_of_stateFailure {i : Instr} {s : State} {st : Status} (h : stateFailure s i = some st) :
    (st = .illegalOperand ∧ IllegalIndex i s) ∨ (st = .outOfRange ∧ OutsideRange i s) ∨
      (st = .absent ∧ (ChunkAbsent i s ∨ RayMisses i s)) := by
  cases i with
  | baRdw idx =>
    obtain ⟨hst, hidx⟩ := of_ite_eq_some h
    exact .inl ⟨hst, .inl ⟨idx, rfl, hidx⟩⟩
  | baWrw idx val =>
    obtain ⟨hst, hidx⟩ := of_ite_eq_some h
    exact .inl ⟨hst, .inr ⟨idx, val, rfl, hidx⟩⟩
  | baGet pos | baGetInv pos | baSet pos | baPut b pos | baClr pos | baTgl pos =>
    obtain ⟨hst, hpos⟩ := of_ite_eq_some h
    exact .inr (.inl ⟨hst, .inl ⟨pos, hpos, by simp⟩⟩)
  | gidxo flip outLen =>
    obtain ⟨hst, hlen⟩ := of_ite_eq_some h
    exact .inr (.inl ⟨hst, .inr ⟨flip, outLen, rfl, hlen⟩⟩)
  | ray sx sy sz ex ey ez =>
    obtain ⟨hst, hnone⟩ := of_ite_eq_some h
    exact .inr (.inr ⟨hst, .inr ⟨sx, sy, sz, ex, ey, ez, rfl, hnone⟩⟩)
  | chSet | chUnset | chTgl | chGet | chFill | chEmpty | chCount | chMGet | chMSet | chLen | wGet | face =>
    obtain ⟨hst, hnone⟩ := of_ite_eq_some h
    exact .inr (.inr ⟨hst, .inl ⟨_, rfl, hnone⟩⟩)
  | _ => cases h

theorem cause_of_failure {i : Instr} {s : State} {st : Status} (h : failure i s = some st) :
    (st = .illegalOperand ∧ ¬ i.WellFormed) ∨ i.WellFormed ∧ stateFailure s i = some st := by
  rw [failure] at h
  split at h
  · exact .inr ⟨‹_›, h⟩
  · exact .inl ⟨(Option.some.inj h).symm, ‹_›⟩

theorem failure_of_wellFormed {i : Instr} (h : i.WellFormed) (s : State) : failure i s = stateFailure s i := if_pos h

theorem failure_of_not_wellFormed {i : Instr} (h : ¬ i.WellFormed) (s : State) : failure i s = some .illegalOperand :=
  if_neg h

/-- The commands that name a chunk have one operand that can be illegal, its key (44_layer_chunk.md R227). -/
theorem wellFormed_of_chunkOperand {i : Instr} {key : Word} (h : chunkOperand i = some key) :
    i.wellFormed = isKeyWord key ∧
      ∀ s, stateFailure s i = if worldGet s.world (key.setWidth 30) = none then some .absent else none := by
  cases i with
  | chSet | chUnset | chTgl | chGet | chFill | chEmpty | chCount | chMGet | chMSet | chLen | wGet | face =>
    obtain rfl := Option.some.inj h
    exact ⟨rfl, fun _ => rfl⟩
  | _ => cases h

theorem failure_illegalOperand_iff (i : Instr) (s : State) :
    failure i s = some .illegalOperand ↔ ¬ i.WellFormed ∨ IllegalIndex i s := by
  constructor
  · intro h
    obtain ⟨-, hwf⟩ | ⟨-, h⟩ := cause_of_failure h
    · exact .inl hwf
    · obtain ⟨-, hidx⟩ | ⟨⟨⟩, -⟩ | ⟨⟨⟩, -⟩ := cause_of_stateFailure h
      exact .inr hidx
  · rintro (hwf | ⟨idx, rfl, hidx⟩ | ⟨idx, val, rfl, hidx⟩)
    · exact failure_of_not_wellFormed hwf s
    · exact if_pos hidx
    · exact if_pos hidx

theorem failure_outOfRange_iff (i : Instr) (s : State) : failure i s = some .outOfRange ↔ OutsideRange i s := by
  constructor
  · intro h
    obtain ⟨⟨⟩, -⟩ | ⟨-, h⟩ := cause_of_failure h
    obtain ⟨⟨⟩, -⟩ | ⟨-, hrange⟩ | ⟨⟨⟩, -⟩ := cause_of_stateFailure h
    exact hrange
  · rintro (⟨pos, hpos, rfl | rfl | rfl | ⟨b, rfl⟩ | rfl | rfl⟩ | ⟨flip, outLen, rfl, hlen⟩)
    iterate 6 exact if_pos hpos
    exact if_pos hlen

theorem failure_absent_iff (i : Instr) (s : State) : failure i s = some .absent ↔
    (∃ key : Word, chunkOperand i = some key ∧ key.toNat < 2 ^ 30 ∧ worldGet s.world (key.setWidth 30) = none) ∨
      RayMisses i s := by
  constructor
  · intro h
    obtain ⟨⟨⟩, -⟩ | ⟨hwf, h⟩ := cause_of_failure h
    obtain ⟨⟨⟩, -⟩ | ⟨⟨⟩, -⟩ | ⟨-, ⟨key, hkey, hnone⟩ | hray⟩ := cause_of_stateFailure h
    · exact .inl ⟨key, hkey, (isKeyWord_iff key).1 ((wellFormed_of_chunkOperand hkey).1 ▸ hwf), hnone⟩
    · exact .inr hray
  · rintro (⟨key, hkey, hlt, hnone⟩ | ⟨sx, sy, sz, ex, ey, ez, rfl, hnone⟩)
    · obtain ⟨hwf, hfail⟩ := wellFormed_of_chunkOperand hkey
      rw [failure_of_wellFormed (hwf.trans ((isKeyWord_iff key).2 hlt)), hfail, if_pos hnone]
    · exact if_pos hnone

/-- Settles O12: what is not well formed fails so, and a well-formed command only for its word index. -/
theorem illegalOperandExactlyForTheListOfR338 : Obligations.IllegalOperandExactlyForTheListOfR338 := by
  unfold Obligations.IllegalOperandExactlyForTheListOfR338
  exact fun i s => (raises_iff_failure (st := .illegalOperand) nofun).trans (failure_illegalOperand_iff i s)

/-- Settles O13: the failures of this status are those of `stateFailure` with it. -/
theorem outOfRangeExactlyForItsTwoCauses : Obligations.OutOfRangeExactlyForItsTwoCauses := by
  unfold Obligations.OutOfRangeExactlyForItsTwoCauses
  exact fun i s => (raises_iff_failure (st := .outOfRange) nofun).trans (failure_outOfRange_iff i s)

/-- Settles O14: a command that names a chunk fails so only with a legal key, which its well-formedness gives. -/
theorem absentExactlyForItsCauses : Obligations.AbsentExactlyForItsCauses := by
  unfold Obligations.AbsentExactlyForItsCauses
  exact fun i s => (raises_iff_failure (st := .absent) nofun).trans (failure_absent_iff i s)

end Sys2Proof.Proofs.Endings
end

section
/-!
SUPPORT and PROOFS. The single-bit mutations of 40_bitops.md R112 to R114.
-/

namespace Sys2Proof.Proofs.BitMutations

open Sys2Proof Sys2Proof.Machine Sys2Proof.Proofs.CommandWords Sys2Proof.Proofs.BitOps

theorem commandIs_setb (p : BitVec 5) (d : Word) : CommandIs 0x03 p.toNat [d] (.setb p d) :=
  commandIs_low_field (op := 0x03#8) rfl rfl rfl (by decide) fun _ hp _ => congrArg (Instr.setb · d) hp

theorem commandIs_clrb (p : BitVec 5) (d : Word) : CommandIs 0x04 p.toNat [d] (.clrb p d) :=
  commandIs_low_field (op := 0x04#8) rfl rfl rfl (by decide) fun _ hp _ => congrArg (Instr.clrb · d) hp

theorem commandIs_tglb (p : BitVec 5) (d : Word) : CommandIs 0x05 p.toNat [d] (.tglb p d) :=
  commandIs_low_field (op := 0x05#8) rfl rfl rfl (by decide) fun _ hp _ => congrArg (Instr.tglb · d) hp

theorem answers_tglb (p : BitVec 5) (d : Word) (s : State) : Answers (.tglb p d) s [toggleBitAt d p] := rfl

/-- Settles O19: each mutation is known bit by bit. -/
theorem singleBitMutationsKeepTheOtherBits : Obligations.SingleBitMutationsKeepTheOtherBits := by
  unfold Obligations.SingleBitMutationsKeepTheOtherBits
  intro p d s
  exact ⟨commandIs_setb p d, commandIs_clrb p d, commandIs_tglb p d,
    ⟨_, answers_setb s p d, fun _ hq => getLsbD_setBitAt d p hq⟩,
    ⟨_, answers_clrb s p d, fun _ hq => getLsbD_unsetBitAt d p hq⟩,
    ⟨_, answers_tglb p d s, fun _ hq => getLsbD_toggleBitAt d p hq⟩⟩

end Sys2Proof.Proofs.BitMutations
end

section
/-!
SUPPORT and PROOFS. The SWAR population count of 40_bitops.md R117. It keeps in one number the counts of consecutive fields
of a word, and each of its lines adds the counts of neighbouring fields, so that the fields become twice as wide: 1, 2, 4, 8
bits.
-/

namespace Sys2Proof.Proofs.SwarCount

open Sys2Proof Sys2Proof.Machine

/-! ### The counts of the fields of a number -/

/-- The number of 1 bits among the low `k` bits of a number. -/
def bitCount (k x : Nat) : Nat := ((Finset.range k).filter fun q => x.testBit q = true).card

theorem bitCount_le (k x : Nat) : bitCount k x ≤ k :=
  (Finset.card_filter_le _ _).trans_eq (Finset.card_range k)

theorem bitCount_one (x : Nat) : bitCount 1 x = x % 2 := by
  rw [bitCount, Finset.range_one, Finset.card_filter, Finset.sum_singleton, Nat.testBit_zero]
  have := Nat.mod_two_eq_zero_or_one x
  split <;> simp_all

/-- The bits of two neighbouring fields. -/
theorem bitCount_add (k l x : Nat) : bitCount (k + l) x = bitCount k x + bitCount l (x / 2 ^ k) := by
  simp only [bitCount, Finset.card_filter, Finset.sum_range_add, Nat.testBit_div_two_pow, Nat.add_comm _ k]

/-- The counts of the `n` lowest fields of `w` bits of `x`, each in its field. -/
def countFields (w : Nat) : Nat → Nat → Nat
  | 0, _ => 0
  | n + 1, x => bitCount w x + 2 ^ w * countFields w n (x / 2 ^ w)

/-- The mask of every other field of `w` bits, `n` of them, the lowest among them. -/
def evenFields (w : Nat) : Nat → Nat
  | 0 => 0
  | n + 1 => (2 ^ w - 1) + 2 ^ w * 2 ^ w * evenFields w n

theorem countFields_lt (w n x : Nat) : countFields w n x < 2 ^ (w * n) := by
  induction n generalizing x with
  | zero => exact Nat.one_pos
  | succ n ih =>
    have hlow : bitCount w x < 2 ^ w := (bitCount_le w x).trans_lt Nat.lt_two_pow_self
    have hhigh := Nat.mul_le_mul_left (2 ^ w) (Nat.succ_le_of_lt (ih (x / 2 ^ w)))
    rw [countFields, Nat.mul_succ, Nat.pow_add, Nat.mul_comm (2 ^ (w * n))]
    rw [Nat.mul_succ] at hhigh
    omega

/-- A field of one bit is its own count. -/
theorem countFields_one {n x : Nat} (hx : x < 2 ^ n) : countFields 1 n x = x := by
  induction n generalizing x with
  | zero => rw [countFields]; omega
  | succ n ih =>
    rw [Nat.pow_succ] at hx
    rw [countFields, bitCount_one, pow_one, ih (by omega)]
    omega

/-- The mask takes the lowest field, and of the rest after the next field what the shorter mask takes. -/
theorem and_evenFields_succ (w n v : Nat) : v &&& evenFields w (n + 1) =
    v % 2 ^ w + 2 ^ w * 2 ^ w * (v / 2 ^ w / 2 ^ w &&& evenFields w n) := by
  have hle : 2 ^ w ≤ 2 ^ w * 2 ^ w := Nat.le_mul_self _
  have hpos : 0 < 2 ^ w := Nat.two_pow_pos w
  have hmod : evenFields w (n + 1) % (2 ^ w * 2 ^ w) = 2 ^ w - 1 := by
    rw [evenFields, Nat.add_mul_mod_self_left, Nat.mod_eq_of_lt (by omega)]
  have hdiv : evenFields w (n + 1) / (2 ^ w * 2 ^ w) = evenFields w n := by
    rw [evenFields, Nat.add_mul_div_left _ _ (by omega), Nat.div_eq_of_lt (by omega), Nat.zero_add]
  rw [← Nat.mod_add_div (v &&& evenFields w (n + 1)) (2 ^ w * 2 ^ w), Nat.div_div_eq_div_mul]
  rw [← Nat.pow_add] at hmod hdiv ⊢
  rw [Nat.and_mod_two_pow, Nat.and_div_two_pow, hmod, hdiv, Nat.and_two_pow_sub_one_eq_mod,
    Nat.mod_mod_of_dvd _ (Nat.pow_dvd_pow 2 (Nat.le_add_left w w))]

/-- A number is its even fields and its odd ones. -/
theorem evenFields_add_oddFields {w n v : Nat} (hv : v < (2 ^ w * 2 ^ w) ^ n) :
    (v &&& evenFields w n) + 2 ^ w * (v / 2 ^ w &&& evenFields w n) = v := by
  induction n generalizing v with
  | zero =>
    obtain rfl : v = 0 := by rw [Nat.pow_zero] at hv; omega
    rw [Nat.zero_div, Nat.zero_and, Nat.mul_zero]
  | succ n ih =>
    have hrest : v / 2 ^ w / 2 ^ w < (2 ^ w * 2 ^ w) ^ n := by
      rw [Nat.div_div_eq_div_mul]
      exact Nat.div_lt_of_lt_mul (Nat.pow_succ' ▸ hv)
    rw [and_evenFields_succ, and_evenFields_succ]
    generalize 2 ^ w = b at *
    calc v % b + b * b * (v / b / b &&& evenFields w n) + b * (v / b % b + b * b * (v / b / b / b &&& evenFields w n))
      _ = v % b + b * (v / b % b + b * ((v / b / b &&& evenFields w n) + b * (v / b / b / b &&& evenFields w n))) := by
        ring
      _ = v := by rw [ih hrest, Nat.mod_add_div, Nat.mod_add_div]

theorem bitCount_lt (w x : Nat) : bitCount w x < 2 ^ w := (bitCount_le w x).trans_lt Nat.lt_two_pow_self

theorem countFields_mod (w n x : Nat) : countFields w n x % 2 ^ w ≤ w := by
  cases n with
  | zero => exact (Nat.zero_mod (2 ^ w)).trans_le (Nat.zero_le w)
  | succ n =>
    rw [countFields, Nat.add_mul_mod_self_left, Nat.mod_eq_of_lt (bitCount_lt w x)]
    exact bitCount_le w x

/-- The lowest field and the rest. -/
theorem countFields_succ_div (w n x : Nat) : countFields w (n + 1) x / 2 ^ w = countFields w n (x / 2 ^ w) := by
  rw [countFields, Nat.add_mul_div_left _ _ (Nat.two_pow_pos w), Nat.div_eq_of_lt (bitCount_lt w x), Nat.zero_add]

theorem countFields_succ_mod (w n x : Nat) : countFields w (n + 1) x % 2 ^ w = bitCount w x := by
  rw [countFields, Nat.add_mul_mod_self_left, Nat.mod_eq_of_lt (bitCount_lt w x)]

/-- The even counts and the odd counts add to those of the fields twice as wide. -/
theorem countFields_double (w n x : Nat) : countFields (2 * w) n x =
    (countFields w (2 * n) x &&& evenFields w n) + (countFields w (2 * n) x / 2 ^ w &&& evenFields w n) := by
  induction n generalizing x with
  | zero => rw [evenFields, Nat.and_zero, Nat.and_zero]; rfl
  | succ n ih =>
    rw [and_evenFields_succ, and_evenFields_succ, Nat.mul_succ, countFields_succ_mod, countFields_succ_div,
      countFields_succ_mod, countFields_succ_div, countFields, ih, two_mul w, bitCount_add, Nat.pow_add,
      ← Nat.div_div_eq_div_mul]
    ring

/-- While the sum of two counts fits into a field, the mask can be applied after the addition. -/
theorem add_div_and_evenFields {w : Nat} (hw : 2 * w < 2 ^ w) (n x : Nat) :
    countFields w (2 * n) x + countFields w (2 * n) x / 2 ^ w &&& evenFields w n = countFields (2 * w) n x := by
  rw [countFields_double]
  induction n generalizing x with
  | zero => rw [evenFields, Nat.and_zero, Nat.and_zero, Nat.and_zero]
  | succ n ih =>
    have h0 := bitCount_le w x
    have h1 := bitCount_le w (x / 2 ^ w)
    have h2 := countFields_mod w (2 * n) (x / 2 ^ w / 2 ^ w)
    have hsplit := Nat.mod_add_div (countFields w (2 * n) (x / 2 ^ w / 2 ^ w)) (2 ^ w)
    have hih := ih (x / 2 ^ w / 2 ^ w)
    rw [and_evenFields_succ, and_evenFields_succ, and_evenFields_succ, Nat.mul_succ, countFields_succ_mod,
      countFields_succ_div, countFields_succ_mod, countFields_succ_div, countFields, countFields]
    generalize countFields w (2 * n) (x / 2 ^ w / 2 ^ w) = r at *
    generalize bitCount w x = p at *
    generalize bitCount w (x / 2 ^ w) = q at *
    generalize 2 ^ w = b at *
    have hsum : p + b * (q + b * r) + (q + b * r) = (p + q) + b * ((q + r % b) + b * (r + r / b)) := by
      calc p + b * (q + b * r) + (q + b * r)
        _ = (p + q) + b * (q + r + b * r) := by ring
        _ = (p + q) + b * (q + (r % b + b * (r / b)) + b * r) := by rw [hsplit]
        _ = _ := by ring
    have hpos : 0 < b := by omega
    have hpq : p + q < b := by omega
    have hqr : q + r % b < b := by omega
    rw [hsum, Nat.add_mul_mod_self_left, Nat.mod_eq_of_lt hpq, Nat.add_mul_div_left _ _ hpos, Nat.div_eq_of_lt hpq,
      Nat.zero_add, Nat.add_mul_div_left _ _ hpos, Nat.div_eq_of_lt hqr, Nat.zero_add, hih]
    ring

/-! ### The sequence on a word (R117) -/

/-- A two-bit field less its higher bit is its count. -/
theorem swarPopcount_line1 (d : Word) :
    (d - ((d >>> 1) &&& 0x55555555#32)) = BitVec.ofNat 32 (countFields 2 16 d.toNat) := by
  have hd := d.isLt
  have hmask : evenFields 1 16 = 0x55555555 := by decide
  have hdouble := countFields_double 1 16 d.toNat
  rw [countFields_one hd, hmask] at hdouble
  have hsplit := evenFields_add_oddFields (w := 1) (n := 16) hd
  rw [hmask] at hsplit
  apply BitVec.eq_of_toNat_eq
  have hodd : ((d >>> 1) &&& 0x55555555#32).toNat = d.toNat / 2 ^ 1 &&& 0x55555555 := by
    rw [BitVec.toNat_and, BitVec.toNat_ushiftRight, Nat.shiftRight_eq_div_pow]; rfl
  rw [BitVec.toNat_sub_of_le (by rw [BitVec.le_def, hodd]; omega), hodd, BitVec.toNat_ofNat,
    Nat.mod_eq_of_lt (countFields_lt 2 16 _), hdouble]
  omega

theorem toNat_ofNat_countFields {w n : Nat} (hwn : w * n = 32) (x : Nat) :
    (BitVec.ofNat 32 (countFields w n x)).toNat = countFields w n x := by
  rw [BitVec.toNat_ofNat, Nat.mod_eq_of_lt (hwn ▸ countFields_lt w n x)]

theorem swarPopcount_line2 (x : Nat) {v : Word} (hv : v = BitVec.ofNat 32 (countFields 2 16 x)) :
    ((v &&& 0x33333333#32) + ((v >>> 2) &&& 0x33333333#32)) = BitVec.ofNat 32 (countFields 4 8 x) := by
  have hmask : evenFields 2 8 = 0x33333333 := by decide
  have hdouble := countFields_double 2 8 x
  rw [hmask] at hdouble
  have hlt := countFields_lt 4 8 x
  subst hv
  apply BitVec.eq_of_toNat_eq
  rw [BitVec.toNat_add, BitVec.toNat_and, BitVec.toNat_and, BitVec.toNat_ushiftRight, Nat.shiftRight_eq_div_pow,
    toNat_ofNat_countFields rfl, toNat_ofNat_countFields rfl]
  exact (Nat.mod_eq_of_lt (hdouble ▸ hlt)).trans hdouble.symm

theorem swarPopcount_line3 (x : Nat) {v : Word} (hv : v = BitVec.ofNat 32 (countFields 4 8 x)) :
    ((v + (v >>> 4)) &&& 0x0F0F0F0F#32) = BitVec.ofNat 32 (countFields 8 4 x) := by
  have hmask : evenFields 4 4 = 0x0F0F0F0F := by decide
  have hadd := add_div_and_evenFields (w := 4) (by decide) 4 x
  rw [hmask] at hadd
  subst hv
  apply BitVec.eq_of_toNat_eq
  rw [BitVec.toNat_and, BitVec.toNat_add, BitVec.toNat_ushiftRight, Nat.shiftRight_eq_div_pow,
    toNat_ofNat_countFields rfl, toNat_ofNat_countFields rfl]
  calc (countFields 4 8 x + countFields 4 8 x / 2 ^ 4) % 2 ^ 32 &&& (0x0F0F0F0F#32).toNat
    _ = (countFields 4 8 x + countFields 4 8 x / 2 ^ 4 &&& 0x0F0F0F0F) % 2 ^ 32 := Nat.and_mod_two_pow.symm
    _ = countFields 8 4 x := by rw [hadd, Nat.mod_eq_of_lt (countFields_lt 8 4 x)]

/-- The product adds the four bytes in its highest one, and the sums below it have no carry into it. -/
theorem swarPopcount_line4 (x : Nat) {v : Word} (hv : v = BitVec.ofNat 32 (countFields 8 4 x)) :
    ((v * 0x01010101#32) >>> 24).toNat = bitCount 32 x := by
  have hcount : bitCount 32 x = bitCount 8 x + (bitCount 8 (x / 2 ^ 8) + (bitCount 8 (x / 2 ^ 8 / 2 ^ 8) +
      bitCount 8 (x / 2 ^ 8 / 2 ^ 8 / 2 ^ 8))) := by
    rw [← bitCount_add, ← bitCount_add, ← bitCount_add]
  have h0 := bitCount_le 8 x
  have h1 := bitCount_le 8 (x / 2 ^ 8)
  have h2 := bitCount_le 8 (x / 2 ^ 8 / 2 ^ 8)
  have h3 := bitCount_le 8 (x / 2 ^ 8 / 2 ^ 8 / 2 ^ 8)
  subst hv
  rw [BitVec.toNat_ushiftRight, BitVec.toNat_mul, toNat_ofNat_countFields rfl, Nat.shiftRight_eq_div_pow, hcount]
  simp only [countFields]
  generalize bitCount 8 x = a at *
  generalize bitCount 8 (x / 2 ^ 8) = b at *
  generalize bitCount 8 (x / 2 ^ 8 / 2 ^ 8) = c at *
  generalize bitCount 8 (x / 2 ^ 8 / 2 ^ 8 / 2 ^ 8) = d at *
  have hbytes : (a + 2 ^ 8 * (b + 2 ^ 8 * (c + 2 ^ 8 * (d + 2 ^ 8 * 0)))) * (0x01010101#32).toNat =
      (a + 2 ^ 8 * (a + b) + 2 ^ 16 * (a + b + c) + 2 ^ 24 * (a + (b + (c + d)))) +
        2 ^ 32 * (b + c + d + 2 ^ 8 * (c + d) + 2 ^ 16 * d) := by
    change _ * 0x01010101 = _
    ring
  rw [hbytes, Nat.add_mul_mod_self_left, Nat.mod_eq_of_lt (by omega), Nat.add_mul_div_left _ _ (by decide),
    Nat.div_eq_of_lt (by omega), Nat.zero_add]

/-- Settles O22: the first three lines double the width of the counted fields, and the last adds the four bytes. -/
theorem swarSequenceCountsTheSetBits : Obligations.SwarSequenceCountsTheSetBits := by
  unfold Obligations.SwarSequenceCountsTheSetBits
  intro d
  simp only [← BitVec.testBit_toNat]
  exact swarPopcount_line4 d.toNat (swarPopcount_line3 _ (swarPopcount_line2 _ (swarPopcount_line1 d)))

end Sys2Proof.Proofs.SwarCount
end

section
/-!
SUPPORT and PROOFS. The new scratch BitArray of 41_bitarray.md R131.
-/

namespace Sys2Proof.Proofs.NewScratchArray

open Sys2Proof Sys2Proof.Machine Sys2Proof.Proofs.CommandWords

theorem commandIs_baNew (n : Word) : CommandIs 0x10 0 [n] (.baNew n) :=
  commandIs_no_field (op := 0x10#8) rfl rfl fun _ => rfl

/-- No word of a new array is listed, so all read 0. -/
theorem readCell_arrayNew (n j : Nat) : readCell (arrayNew n).words j = 0#32 := by rw [arrayNew_words, readCell_nil]

section
variable {cap : Nat} {n : Int} (s : State)

theorem sbaNew_of_gt (h : (cap : Int) < n) : sbaNew cap n s = .next (respond .illegalOperand [] s) := if_pos h

theorem sbaNew_of_le (h : n ≤ (cap : Int)) : ∃ A, sbaNew cap n s = .next (respond .ok [] { s with sba := A }) ∧
    A.n = (if 1 ≤ n then n.toNat else 1) ∧ ∀ j : Nat, readCell A.words j = 0#32 :=
  ⟨arrayNew (if 1 ≤ n then n.toNat else 1), if_neg (not_lt.2 h), arrayNew_n _, readCell_arrayNew _⟩

end

/-- Settles O25: no request is above the capacity `2^31 - 1`, since a `count` operand is a signed word. -/
theorem newScratchArrayIsAllZero : Obligations.NewScratchArrayIsAllZero := by
  unfold Obligations.NewScratchArrayIsAllZero
  refine ⟨fun n s => ⟨commandIs_baNew n, ?command⟩, fun cap n s => ⟨sbaNew_of_gt s, sbaNew_of_le s⟩⟩
  case command =>
    have hn : n.toInt ≤ (Config.sbaMaxWords : Int) := Int.le_of_lt_add_one BitVec.toInt_lt
    exact sbaNew_of_le s hn

end Sys2Proof.Proofs.NewScratchArray
end

section
/-!
SUPPORT and PROOFS. Spatial keys by their axes (42_spatial_keys.md): both encodings are bijections (R150), the Morton ladders
compute the interleave (R154, R155), the steps of either kind move one axis of the triple (R160 to R165, R174 to R179, R183),
and the sums and differences of either kind work axis by axis (R180, R181), so the two kinds agree (R169).
-/

namespace Sys2Proof.Proofs.KeyAxes

open Sys2Proof Sys2Proof.Machine Sys2Proof.Proofs.CommandWords Sys2Proof.Proofs.SpatialKeys Sys2Proof.Proofs.MortonSteps

/-! ### Triples by axes -/

/-- A triple is known by its three axes. -/
theorem eq_of_tripleAxis {t u : Triple} (h : ∀ a < 3, tripleAxis t a = tripleAxis u a) : t = u := by
  obtain ⟨x, y, z⟩ := t
  have hx : x = u.x := h 0 (by decide)
  have hy : y = u.y := h 1 (by decide)
  have hz : z = u.z := h 2 (by decide)
  rw [hx, hy, hz]

theorem mortonLane_mortonKey (t : Triple) {a : Nat} (ha : a < 3) : mortonLane a (mortonKey t) = tripleAxis t a :=
  BitVec.eq_of_toNat_eq (mortonAxis_mortonKey t ha)

/-- The compaction ladder gives the axis that R152 gives the key (R155). -/
theorem tripleAxis_mortonTriple (k : Key) {a : Nat} (ha : a < 3) : tripleAxis (mortonTriple k) a = mortonLane a k := by
  have hcut (n : Nat) : ((BitVec.ofNat 32 (mortonAxis n k)).setWidth 10 : Axis) = mortonLane n k := by
    have := (mortonLane n k).isLt
    apply BitVec.eq_of_toNat_eq
    rw [BitVec.toNat_setWidth, BitVec.toNat_ofNat, mortonAxis_eq_toNat_mortonLane]
    omega
  interval_cases a
  · exact (congrArg (BitVec.setWidth 10) (mortonX_eq k)).trans (hcut 0)
  · exact (congrArg (BitVec.setWidth 10) (mortonY_eq k)).trans (hcut 1)
  · exact (congrArg (BitVec.setWidth 10) (mortonZ_eq k)).trans (hcut 2)

@[simp] theorem mortonTriple_mortonKey (t : Triple) : mortonTriple (mortonKey t) = t :=
  eq_of_tripleAxis fun a ha => by rw [tripleAxis_mortonTriple _ ha, mortonLane_mortonKey t ha]

@[simp] theorem mortonKey_mortonTriple (k : Key) : mortonKey (mortonTriple k) = k :=
  eq_of_mortonAxis fun a ha => by rw [mortonAxis_mortonKey _ ha, tripleAxis_mortonTriple k ha]; rfl

/-- Settles O39: for each encoding, decoding undoes it and is undone by it. -/
theorem keyEncodingsAreBijections : Obligations.KeyEncodingsAreBijections := by
  unfold Obligations.KeyEncodingsAreBijections
  exact ⟨fun t => ⟨linearTriple_linearKey t, mortonTriple_mortonKey t⟩,
    fun k => ⟨linearKey_linearTriple k, mortonKey_mortonTriple k⟩⟩

/-! ### The ladders (R154, R155) -/

/-- Bit `j` of `w` is bit `src j` of `v` where the mask `m` has a 1, and 0 elsewhere. -/
def Spreads (v m : Word) (src : Nat → Nat) (w : Word) : Prop :=
  ∀ j < 32, w.getLsbD j = (m.getLsbD j && v.getLsbD (src j))

/-- Place `j` after a rung of the ladder that shifts by `s` and keeps `k`: the mask `m'` has a 1 there exactly when the rung
keeps the place and one bit comes to it, from itself or from `s` places below, and its source is that of this bit. -/
abbrev RungPlace (s : Nat) (k m m' : Word) (src src' : Nat → Nat) (j : Nat) : Prop :=
  if m'.getLsbD j then
    k.getLsbD j ∧ ((m.getLsbD j ∧ ¬ (m <<< s).getLsbD j ∧ src' j = src j) ∨
      (¬ m.getLsbD j ∧ (m <<< s).getLsbD j ∧ src' j = src (j - s)))
  else ¬ k.getLsbD j ∨ (¬ m.getLsbD j ∧ ¬ (m <<< s).getLsbD j)

/-- One rung of the ladder: it is enough to know where each of the 32 bits comes from. -/
theorem spreads_rung {s : Nat} {k m m' v w : Word} {src src' : Nat → Nat} (hw : Spreads v m src w)
    (h : ∀ j < 32, RungPlace s k m m' src src' j) : Spreads v m' src' ((w ^^^ (w <<< s)) &&& k) := by
  intro j hj
  have hshift : (w <<< s).getLsbD j = ((m <<< s).getLsbD j && v.getLsbD (src (j - s))) := by
    rw [BitVec.getLsbD_shiftLeft, BitVec.getLsbD_shiftLeft, hw (j - s) (by omega)]
    simp only [Bool.and_assoc]
  rw [BitVec.getLsbD_and, BitVec.getLsbD_xor, hw j hj, hshift]
  have hplace := h j hj
  unfold RungPlace at hplace
  split at hplace
  · obtain ⟨hk, ⟨h1, h2, hs⟩ | ⟨h1, h2, hs⟩⟩ := hplace <;> 
      simp only [*, Bool.true_and, Bool.false_and, Bool.xor_false, Bool.false_xor, Bool.and_true]
  · obtain hk | ⟨h1, h2⟩ := hplace <;> simp only [*, Bool.false_and, Bool.xor_false, Bool.and_false]

/-- The four rungs of R154, each with the places that it fills and the source of each place. -/
theorem spreads_mortonPart (v : Word) : Spreads v 0x09249249#32 (· / 3) (mortonPart v) := by
  have h0 : Spreads v 0x000003FF#32 id (v &&& 0x000003FF#32) := fun j _ => by rw [BitVec.getLsbD_and, Bool.and_comm]; rfl
  have h1 := spreads_rung (s := 16) (k := 0xFF0000FF#32) (m' := 0x030000FF#32) (src' := (· % 16)) h0 (by decide)
  have h2 := spreads_rung (s := 8) (k := 0x0300F00F#32) (m' := 0x0300F00F#32) (src' := fun j => j / 12 * 4 + j % 12) h1
    (by decide)
  have h3 := spreads_rung (s := 4) (k := 0x030C30C3#32) (m' := 0x030C30C3#32) (src' := fun j => j / 6 * 2 + j % 6) h2
    (by decide)
  exact spreads_rung h3 (by decide)
/-- The spreading ladder puts the low ten bits at every third place. -/
theorem getLsbD_mortonPart (v : Word) (q : Nat) :
    (mortonPart v).getLsbD q = (decide (q % 3 = 0) && decide (q < 30) && v.getLsbD (q / 3)) := by
  have hmask : ∀ j < 32, (0x09249249#32).getLsbD j = (decide (j % 3 = 0) && decide (j < 30)) := by decide
  by_cases hq : q < 32
  · rw [spreads_mortonPart v q hq, hmask q hq]
  · rw [BitVec.getLsbD_of_ge _ _ (Nat.le_of_not_lt hq), decide_eq_false (show ¬ q < 30 by omega), Bool.and_false,
      Bool.false_and]

/-- The spread axes, each at its own offset, are the interleave. -/
theorem mortonPart_or_shifts (x y z : Word) : (mortonPart x ||| (mortonPart y <<< 1) ||| (mortonPart z <<< 2)) =
    (mortonKey { x := x.setWidth 10, y := y.setWidth 10, z := z.setWidth 10 }).setWidth 32 := by
  apply BitVec.eq_of_getLsbD_eq
  intro q hq
  rw [BitVec.getLsbD_or, BitVec.getLsbD_or, BitVec.getLsbD_shiftLeft, BitVec.getLsbD_shiftLeft, BitVec.getLsbD_setWidth,
    getLsbD_mortonKey, getLsbD_mortonPart, getLsbD_mortonPart, getLsbD_mortonPart]
  have hj : q < 30 ↔ q / 3 < 10 := by omega
  obtain h | h | h : q % 3 = 0 ∨ q % 3 = 1 ∨ q % 3 = 2 := by omega
  · have h1 : (q - 1) % 3 ≠ 0 ∨ q < 1 := by omega
    have h2 : (q - 2) % 3 ≠ 0 ∨ q < 2 := by omega
    simp only [h, hq, hj, tripleAxis, BitVec.getLsbD_setWidth]
    rcases h1 with h1 | h1 <;> rcases h2 with h2 | h2 <;> simp [h1, h2]
  · have h1 : (q - 1) % 3 = 0 ∧ ¬ q < 1 ∧ (q - 1) / 3 = q / 3 ∧ (q - 1 < 30 ↔ q / 3 < 10) := by omega
    have h2 : (q - 2) % 3 ≠ 0 ∨ q < 2 := by omega
    simp only [h, hq, hj, h1, tripleAxis, BitVec.getLsbD_setWidth]
    rcases h2 with h2 | h2 <;> simp [h2]
  · have h1 : (q - 1) % 3 ≠ 0 := by omega
    have h2 : (q - 2) % 3 = 0 ∧ ¬ q < 2 ∧ (q - 2) / 3 = q / 3 ∧ (q - 2 < 30 ↔ q / 3 < 10) := by omega
    simp [h, hq, hj, h1, h2, tripleAxis, BitVec.getLsbD_setWidth]

/-- Settles O38: the ladders bit by bit, and the interleave by the residue of each bit's place. -/
theorem mortonLaddersComputeTheInterleave : Obligations.MortonLaddersComputeTheInterleave := by
  unfold Obligations.MortonLaddersComputeTheInterleave
  exact ⟨fun v q _ => ⟨getLsbD_mortonPart v q, getLsbD_mortonCompact v q⟩, mortonPart_or_shifts⟩

/-! ### The steps as moves of one axis -/

/-- The triple with axis `a` moved by one unit, modulo 1024. -/
def moveAxis (up : Bool) (a : Nat) (t : Triple) : Triple :=
  match a with
  | 0 => { t with x := stepAt up 0 t.x }
  | 1 => { t with y := stepAt up 0 t.y }
  | _ => { t with z := stepAt up 0 t.z }

theorem tripleAxis_moveAxis (up : Bool) {a b : Nat} (ha : a < 3) (hb : b < 3) (t : Triple) :
    tripleAxis (moveAxis up a t) b = if a = b then stepAt up 0 (tripleAxis t b) else tripleAxis t b := by
  interval_cases a <;> interval_cases b <;> rfl

theorem stepAt_stepAt_not (up : Bool) {w : Nat} (s : Nat) (v : BitVec w) : stepAt up s (stepAt (!up) s v) = v := by
  cases up with
  | true => exact BitVec.sub_add_cancel v _
  | false => exact BitVec.add_sub_cancel v _

theorem moveAxis_moveAxis_not (up : Bool) {a : Nat} (ha : a < 3) (t : Triple) : moveAxis up a (moveAxis (!up) a t) = t :=
  eq_of_tripleAxis fun b hb => by
    rw [tripleAxis_moveAxis up ha hb, tripleAxis_moveAxis (!up) ha hb]
    split
    · exact stepAt_stepAt_not up 0 _
    · rfl

theorem tripleAxis_iterate_moveAxis {a b : Nat} (ha : a < 3) (hb : b < 3) (n : Nat) (t : Triple) :
    tripleAxis ((moveAxis true a)^[n] t) b = if a = b then tripleAxis t b + BitVec.ofNat 10 n else tripleAxis t b := by
  induction n with
  | zero => split <;> simp
  | succ n ih =>
    rw [Function.iterate_succ_apply', tripleAxis_moveAxis true ha hb, ih]
    split
    · rw [BitVec.ofNat_add, ← BitVec.add_assoc]; rfl
    · rfl

/-- 1024 increments return the triple (R183). -/
theorem iterate_moveAxis_1024 {a : Nat} (ha : a < 3) (t : Triple) : (moveAxis true a)^[1024] t = t :=
  eq_of_tripleAxis fun b hb => by
    rw [tripleAxis_iterate_moveAxis ha hb]
    split
    · exact BitVec.add_zero _
    · rfl

/-- The Linear step along an axis, upward or downward (R160 to R165). -/
def lkStep : Bool → Nat → Word → Instr
  | true, 0 => .lkIncX
  | false, 0 => .lkDecX
  | true, 1 => .lkIncY
  | false, 1 => .lkDecY
  | true, _ => .lkIncZ
  | false, _ => .lkDecZ

/-- The Morton step along an axis, upward or downward (R174 to R179). -/
def mkStep : Bool → Nat → Word → Instr
  | true, 0 => .mkIncX
  | false, 0 => .mkDecX
  | true, 1 => .mkIncY
  | false, 1 => .mkDecY
  | true, _ => .mkIncZ
  | false, _ => .mkDecZ

theorem exec_lkStep (up : Bool) {a : Nat} (ha : a < 3) (x : Word) (s : State) :
    exec (lkStep up a x) s = linearUnary (moveAxis up a) x s := by
  cases up <;> interval_cases a <;> rfl

/-- Each Morton step is a step in the interleave from a bit at or below the axis's lowest one. -/
theorem exec_mkStep (up : Bool) {a : Nat} (ha : a < 3) : ∃ u ≤ a, ∀ (x : Word) (s : State),
    exec (mkStep up a x) s = keyUnary (fun k => laneStep up a u (resultWord k)) x s := by
  match up, a, ha with
  | true, 0, _ | false, 0, _ | true, 2, _ => exact ⟨0, Nat.zero_le _, fun _ _ => rfl⟩
  | true, 1, _ | false, 1, _ => exact ⟨1, Nat.le_refl _, fun _ _ => rfl⟩
  | false, 2, _ => exact ⟨2, Nat.le_refl _, fun _ _ => rfl⟩

theorem laneMask_lt (a : Nat) : (laneMask a).toNat < 2 ^ 30 := by
  unfold laneMask; split <;> decide

theorem restMask_lt (a : Nat) : (restMask a).toNat < 2 ^ 30 := by
  unfold restMask; split <;> decide

/-- A step in the interleave stays a key, the key of the moved triple. -/
theorem laneStep_resultWord (up : Bool) {a u : Nat} (ha : a < 3) (hu : u ≤ a) (k : Key) :
    laneStep up a u (resultWord k) = (mortonKey (moveAxis up a (mortonTriple k))).setWidth 32 := by
  have hlt : (laneStep up a u (resultWord k)).toNat < 2 ^ 30 := by
    rw [laneStep, BitVec.toNat_or, BitVec.toNat_and, BitVec.toNat_and]
    exact Nat.or_lt_two_pow (Nat.and_lt_two_pow _ (laneMask_lt a)) (Nat.and_lt_two_pow _ (restMask_lt a))
  rw [word_of_key hlt]
  congr 1
  refine eq_of_mortonAxis fun b hb => ?_
  rw [mortonAxis_mortonKey _ hb, tripleAxis_moveAxis up ha hb, tripleAxis_mortonTriple k hb,
    mortonAxis_eq_toNat_mortonLane, mortonLane_laneStep up ha hb hu]

section
variable (up : Bool) {a : Nat} (ha : a < 3) (t : Triple) (s : State)
include ha

theorem answers_lkStep :
    Answers (lkStep up a ((linearKey t).setWidth 32)) s [(linearKey (moveAxis up a t)).setWidth 32] := by
  rw [Answers, exec_lkStep up ha, linearUnary, keyUnary, withKey_key, linearTriple_linearKey, reply, resultWord]

theorem answers_mkStep :
    Answers (mkStep up a ((mortonKey t).setWidth 32)) s [(mortonKey (moveAxis up a t)).setWidth 32] := by
  obtain ⟨u, hu, hexec⟩ := exec_mkStep up ha
  rw [Answers, hexec, keyUnary, withKey_key, laneStep_resultWord up ha hu, mortonTriple_mortonKey, reply]

end

/-! ### The words of the Morton steps, sums and differences -/

section
variable (a b k : Word)

theorem commandIs_mkIncX : CommandIs 0x34 0 [k] (.mkIncX k) := commandIs_no_field (op := 0x34#8) rfl rfl fun _ => rfl
theorem commandIs_mkDecX : CommandIs 0x35 0 [k] (.mkDecX k) := commandIs_no_field (op := 0x35#8) rfl rfl fun _ => rfl
theorem commandIs_mkIncY : CommandIs 0x36 0 [k] (.mkIncY k) := commandIs_no_field (op := 0x36#8) rfl rfl fun _ => rfl
theorem commandIs_mkDecY : CommandIs 0x37 0 [k] (.mkDecY k) := commandIs_no_field (op := 0x37#8) rfl rfl fun _ => rfl
theorem commandIs_mkIncZ : CommandIs 0x38 0 [k] (.mkIncZ k) := commandIs_no_field (op := 0x38#8) rfl rfl fun _ => rfl
theorem commandIs_mkDecZ : CommandIs 0x39 0 [k] (.mkDecZ k) := commandIs_no_field (op := 0x39#8) rfl rfl fun _ => rfl
theorem commandIs_mkAdd : CommandIs 0x3A 0 [a, b] (.mkAdd a b) := commandIs_no_field (op := 0x3A#8) rfl rfl fun _ => rfl
theorem commandIs_mkSub : CommandIs 0x3B 0 [a, b] (.mkSub a b) := commandIs_no_field (op := 0x3B#8) rfl rfl fun _ => rfl

end

/-! ### The step commands (R174 to R179, R183) -/

/-- A step of a key by a formula on the whole word. -/
theorem answers_of_wordStep {i : Instr} {s : State} {k : Word} {f : Word → Word}
    (hi : exec i s = keyUnary (fun k => f (resultWord k)) k s) (hk : k.toNat < 2 ^ 30) : Answers i s [f k] := by
  have hword : resultWord (k.setWidth 30) = k := (word_of_key hk).symm
  exact hword ▸ answers_of_keyUnary hi hk

/-- Settles O35: each step is its formula, and fails as R185 says. -/
theorem mortonStepFormulas : Obligations.MortonStepFormulas := by
  unfold Obligations.MortonStepFormulas
  intro k s
  refine ⟨commandIs_mkIncX k, commandIs_mkDecX k, commandIs_mkIncY k, commandIs_mkDecY k, commandIs_mkIncZ k,
    commandIs_mkDecZ k, fun hk => ?onKeys, fun hk f hf => ?noKey⟩
  case onKeys =>
    exact ⟨answers_of_wordStep (f := mortonIncX) rfl hk, answers_of_wordStep (f := mortonDecX) rfl hk,
      answers_of_wordStep (f := mortonIncY) rfl hk, answers_of_wordStep (f := mortonDecY) rfl hk,
      answers_of_wordStep (f := mortonIncZ) rfl hk, answers_of_wordStep (f := mortonDecZ) rfl hk⟩
  case noKey => fin_cases hf <;> exact raises_of_keyUnary rfl hk

/-- One unit modulo 1024 as a number to add. -/
theorem toNat_stepAt_axis_eq (up : Bool) (v : Axis) :
    (stepAt up 0 v).toNat = (v.toNat + if up then 1 else 1023) % 1024 := by
  cases up with
  | true => exact toNat_axis_add_one v
  | false => exact toNat_axis_sub_one v

theorem mortonAxis_moveAxis (up : Bool) {a b : Nat} (ha : a < 3) (hb : b < 3) (k : Key) :
    mortonAxis b (mortonKey (moveAxis up a (mortonTriple k))) =
      if b = a then (mortonAxis b k + if up then 1 else 1023) % 1024 else mortonAxis b k := by
  rw [mortonAxis_mortonKey _ hb, tripleAxis_moveAxis up ha hb, tripleAxis_mortonTriple k hb]
  by_cases hab : a = b
  · rw [if_pos hab, if_pos hab.symm]
    exact toNat_stepAt_axis_eq up _
  · rw [if_neg hab, if_neg (Ne.symm hab)]
    rfl

/-- Settles O36: each step is the Morton step along its axis, whose answer is the key of the moved triple. -/
theorem mortonStepsMoveOneCoordinate : Obligations.MortonStepsMoveOneCoordinate := by
  unfold Obligations.MortonStepsMoveOneCoordinate
  intro k s p hp
  obtain ⟨up, a, ha, rfl⟩ : ∃ up a, a < 3 ∧ p = (mkStep up a, a, if up then 1 else 1023) := by
    fin_cases hp
    exacts [⟨true, 0, by decide, rfl⟩, ⟨false, 0, by decide, rfl⟩, ⟨true, 1, by decide, rfl⟩, ⟨false, 1, by decide, rfl⟩,
      ⟨true, 2, by decide, rfl⟩, ⟨false, 2, by decide, rfl⟩]
  have hanswer := answers_mkStep up ha (mortonTriple k) s
  rw [mortonKey_mortonTriple] at hanswer
  exact ⟨_, hanswer, fun b hb => mortonAxis_moveAxis up ha hb k⟩

theorem firstResult_of_answers {i : Instr} {s : State} {w : Word} (h : Answers i s [w]) : firstResult (exec i s) = w := by
  rw [h]; rfl

/-- Steps that move one axis of an encoded triple undo each other, and 1024 increments return the word. -/
theorem steps_undo {enc : Triple → Word} {step : Bool → Word → Instr} {a : Nat} (ha : a < 3) {s : State}
    (hstep : ∀ up t, Answers (step up (enc t)) s [enc (moveAxis up a t)]) (t : Triple) :
    (∃ r : Word, Answers (step true (enc t)) s [r] ∧ Answers (step false r) s [enc t]) ∧
    (∃ r : Word, Answers (step false (enc t)) s [r] ∧ Answers (step true r) s [enc t]) ∧
    (fun x => firstResult (exec (step true x) s))^[1024] (enc t) = enc t := by
  have hundo (up : Bool) : ∃ r : Word, Answers (step (!up) (enc t)) s [r] ∧ Answers (step up r) s [enc t] := by
    have hback := hstep up (moveAxis (!up) a t)
    rw [moveAxis_moveAxis_not up ha] at hback
    exact ⟨_, hstep (!up) t, hback⟩
  have hsemiconj : Function.Semiconj enc (moveAxis true a) fun x => firstResult (exec (step true x) s) :=
    fun t => (firstResult_of_answers (hstep true t)).symm
  refine ⟨hundo false, hundo true, ?_⟩
  rw [← (hsemiconj.iterate_right 1024).eq, iterate_moveAxis_1024 ha]

/-- Settles O40: either kind of step moves one axis of the triple that the key encodes. -/
theorem stepsUndoEachOther : Obligations.StepsUndoEachOther := by
  unfold Obligations.StepsUndoEachOther
  intro k s p hp
  obtain ⟨a, ha, rfl | rfl⟩ : ∃ a < 3, p = (lkStep true a, lkStep false a) ∨ p = (mkStep true a, mkStep false a) := by
    fin_cases hp
    exacts [⟨0, by decide, .inl rfl⟩, ⟨1, by decide, .inl rfl⟩, ⟨2, by decide, .inl rfl⟩, ⟨0, by decide, .inr rfl⟩,
      ⟨1, by decide, .inr rfl⟩, ⟨2, by decide, .inr rfl⟩]
  · have h := steps_undo (enc := fun t => (linearKey t).setWidth 32) ha (fun up t => answers_lkStep up ha t s)
      (linearTriple k)
    rwa [linearKey_linearTriple] at h
  · have h := steps_undo (enc := fun t => (mortonKey t).setWidth 32) ha (fun up t => answers_mkStep up ha t s)
      (mortonTriple k)
    rwa [mortonKey_mortonTriple] at h

/-! ### Both kinds of key on one triple (R169) -/

section
variable {i : Instr} {s : State} {t u : Triple}

theorem answers_of_linearBinary_key {f : Triple → Triple → Triple}
    (hi : exec i s = keyBinary (fun a b => resultWord (linearKey (f (linearTriple a) (linearTriple b))))
      ((linearKey t).setWidth 32) ((linearKey u).setWidth 32) s) :
    Answers i s [(linearKey (f t u)).setWidth 32] := by
  have h := answers_of_linearBinary hi
  rwa [← resultWord_linearKey, resultWord] at h

theorem answers_of_mortonAxis {f : Key → Word} {a : Nat} (ha : a < 3) (hf : ∀ k, f k = BitVec.ofNat 32 (mortonAxis a k))
    (hi : exec i s = keyUnary f ((mortonKey t).setWidth 32) s) :
    Answers i s [BitVec.ofNat 32 (tripleAxis t a).toNat] := by
  rw [Answers, hi, keyUnary, withKey_key, hf, mortonAxis_mortonKey t ha, reply]

theorem answers_of_mortonBinary {f : Triple → Triple → Triple}
    (hi : exec i s = keyBinary (fun a b => resultWord (mortonKey (f (mortonTriple a) (mortonTriple b))))
      ((mortonKey t).setWidth 32) ((mortonKey u).setWidth 32) s) :
    Answers i s [(mortonKey (f t u)).setWidth 32] := by
  rw [Answers, hi, keyBinary, withKey_key, withKey_key, mortonTriple_mortonKey, mortonTriple_mortonKey, reply, resultWord]

/-- A comparison says equal exactly for one key (R168, R182). -/
theorem answers_compare_zero_iff {a b : Key}
    (hi : exec i s = keyBinary (fun a b => compareWord a b) (a.setWidth 32) (b.setWidth 32) s) :
    Answers i s [0#32] ↔ a = b := by
  have hzero : compareWord a b = 0#32 ↔ a = b := by
    rw [compareWord, ← BitVec.toNat_inj (x := a)]
    split
    · simp only [show ¬ (0xFFFFFFFF#32 = 0#32) by decide, false_iff]; omega
    · split
      · simp [*]
      · simp [*]
  rw [← hzero, Answers, hi, keyBinary, withKey_key, withKey_key, reply]
  constructor
  · intro h
    have hresp := congrArg State.respPort (Host.Outcome.next.inj h)
    simpa using hresp
  · intro h
    rw [h]

end

/-- Settles O41: every operation acts on the triple, whichever key encodes it. -/
theorem linearAndMortonAgreeOnTriples : Obligations.LinearAndMortonAgreeOnTriples := by
  unfold Obligations.LinearAndMortonAgreeOnTriples
  intro t u s
  refine ⟨fun p hp => ?axes, fun p hp => ?steps, fun p hp => ?sums, ?linearCompare, ?mortonCompare⟩
  case axes =>
    fin_cases hp
    · exact ⟨_, answers_of_linearAxis rfl, answers_of_mortonAxis (a := 0) (by decide) mortonX_eq rfl⟩
    · exact ⟨_, answers_of_linearAxis rfl, answers_of_mortonAxis (a := 1) (by decide) mortonY_eq rfl⟩
    · exact ⟨_, answers_of_linearAxis rfl, answers_of_mortonAxis (a := 2) (by decide) mortonZ_eq rfl⟩
  case steps =>
    obtain ⟨up, a, ha, rfl⟩ : ∃ up a, a < 3 ∧ p = (lkStep up a, mkStep up a) := by
      fin_cases hp
      exacts [⟨true, 0, by decide, rfl⟩, ⟨false, 0, by decide, rfl⟩, ⟨true, 1, by decide, rfl⟩,
        ⟨false, 1, by decide, rfl⟩, ⟨true, 2, by decide, rfl⟩, ⟨false, 2, by decide, rfl⟩]
    exact ⟨moveAxis up a t, answers_lkStep up ha t s, answers_mkStep up ha t s⟩
  case sums =>
    fin_cases hp
    · exact ⟨tripleAdd t u, answers_of_linearBinary_key rfl, answers_of_mortonBinary rfl⟩
    · exact ⟨tripleSub t u, answers_of_linearBinary_key rfl, answers_of_mortonBinary rfl⟩
  case linearCompare =>
    exact (answers_compare_zero_iff rfl).trans (Function.LeftInverse.injective linearTriple_linearKey).eq_iff
  case mortonCompare =>
    exact (answers_compare_zero_iff rfl).trans (Function.LeftInverse.injective mortonTriple_mortonKey).eq_iff

/-! ### Sums and differences (R180, R181) -/

/-- Bits of two words in the places of axis `a`, with 1 in the other places of the first and 0 in those of the second: the
carry passes from each place of the axis to the next. -/
theorem carry_lane {a : Nat} (ha : a < 3) {x y : Word} {u v : Axis} (hx : ∀ j < 10, x.getLsbD (3 * j + a) = u.getLsbD j)
    (hy : ∀ j < 10, y.getLsbD (3 * j + a) = v.getLsbD j) (hxr : ∀ i < 30, i % 3 ≠ a → x.getLsbD i = true)
    (hyr : ∀ i < 30, i % 3 ≠ a → y.getLsbD i = false) {j : Nat} (hj : j < 10) :
    BitVec.carry (3 * j + a) x y false = BitVec.carry j u v false := by
  have hpass {i : Nat} (hi : i < 30) (hia : i % 3 ≠ a) : BitVec.carry (i + 1) x y false = BitVec.carry i x y false := by
    rw [BitVec.carry_succ, hxr i hi hia, hyr i hi hia]
    cases BitVec.carry i x y false <;> rfl
  induction j with
  | zero =>
    have hlow : ∀ i ≤ a, BitVec.carry i x y false = false := by
      intro i hi
      induction i with
      | zero => exact BitVec.carry_zero
      | succ i ih => rw [hpass (by omega) (by omega), ih (by omega)]
    rw [Nat.mul_zero, Nat.zero_add, hlow a (Nat.le_refl a), BitVec.carry_zero]
  | succ j ih =>
    rw [show 3 * (j + 1) + a = 3 * j + a + 1 + 1 + 1 by ring, hpass (by omega) (by omega), hpass (by omega) (by omega),
      BitVec.carry_succ, ih (by omega), hx j (by omega), hy j (by omega), ← BitVec.carry_succ]

/-- Under the same conditions the bits of the sum in the places of the axis are those of the sum of the axes. -/
theorem getLsbD_add_lane {a : Nat} (ha : a < 3) {x y : Word} {u v : Axis}
    (hx : ∀ j < 10, x.getLsbD (3 * j + a) = u.getLsbD j) (hy : ∀ j < 10, y.getLsbD (3 * j + a) = v.getLsbD j)
    (hxr : ∀ i < 30, i % 3 ≠ a → x.getLsbD i = true) (hyr : ∀ i < 30, i % 3 ≠ a → y.getLsbD i = false) {j : Nat}
    (hj : j < 10) : (x + y).getLsbD (3 * j + a) = (u + v).getLsbD j := by
  rw [BitVec.getLsbD_add (by omega), BitVec.getLsbD_add hj, carry_lane ha hx hy hxr hyr hj, hx j hj, hy j hj]

/-- The sum in the places of one axis (R180). -/
def laneSum (a : Nat) (x y : Word) : Word := (x ||| restMask a) + (y &&& laneMask a)

/-- The difference in the places of one axis (R181). -/
def laneDifference (a : Nat) (x y : Word) : Word := (x &&& laneMask a) - (y &&& laneMask a)

section
variable {a j : Nat} (ha : a < 3) (k l : Key)
include ha

theorem getLsbD_resultWord_lane (hj : j < 10) : (resultWord k).getLsbD (3 * j + a) = (mortonLane a k).getLsbD j := by
  rw [getLsbD_mortonLane a k hj, resultWord, BitVec.getLsbD_setWidth, decide_eq_true (by omega), Bool.true_and]

theorem getLsbD_and_laneMask (hj : j < 10) :
    (resultWord k &&& laneMask a).getLsbD (3 * j + a) = (mortonLane a k).getLsbD j := by
  rw [BitVec.getLsbD_and, getLsbD_laneMask ha (by omega), getLsbD_resultWord_lane ha k hj, decide_eq_true (by omega),
    Bool.and_true]

theorem getLsbD_and_laneMask_rest {i : Nat} (hi : i < 30) (hia : i % 3 ≠ a) (x : Word) :
    (x &&& laneMask a).getLsbD i = false := by
  rw [BitVec.getLsbD_and, getLsbD_laneMask ha hi, decide_eq_false hia, Bool.and_false]

theorem getLsbD_laneSum (hj : j < 10) : (laneSum a (resultWord k) (resultWord l)).getLsbD (3 * j + a) =
    (mortonLane a k + mortonLane a l).getLsbD j := by
  refine getLsbD_add_lane ha (fun i hi => ?own) (fun i hi => getLsbD_and_laneMask ha l hi) (fun i hi hia => ?rest)
    (fun i hi hia => getLsbD_and_laneMask_rest ha hi hia _) hj
  case own =>
    rw [BitVec.getLsbD_or, getLsbD_restMask ha (by omega), getLsbD_resultWord_lane ha k hi, decide_eq_false (by omega),
      Bool.or_false]
  case rest => rw [BitVec.getLsbD_or, getLsbD_restMask ha hi, decide_eq_true hia, Bool.or_true]

/-- A difference is the complement of a sum, in which the complement sets the other places of the minuend. -/
theorem getLsbD_laneDifference (hj : j < 10) : (laneDifference a (resultWord k) (resultWord l)).getLsbD (3 * j + a) =
    (mortonLane a k - mortonLane a l).getLsbD j := by
  rw [laneDifference, sub_eq_not_not_add, sub_eq_not_not_add, BitVec.getLsbD_not, BitVec.getLsbD_not,
    getLsbD_add_lane ha (u := ~~~mortonLane a k) (v := mortonLane a l) (fun i hi => ?own)
      (fun i hi => getLsbD_and_laneMask ha l hi) (fun i hi hia => ?rest)
      (fun i hi hia => getLsbD_and_laneMask_rest ha hi hia _) hj,
    decide_eq_true hj, decide_eq_true (show 3 * j + a < 32 by omega)]
  case own =>
    rw [BitVec.getLsbD_not, BitVec.getLsbD_not, getLsbD_and_laneMask ha k hi, decide_eq_true hi,
      decide_eq_true (show 3 * i + a < 32 by omega)]
  case rest =>
    rw [BitVec.getLsbD_not, getLsbD_and_laneMask_rest ha hi hia, decide_eq_true (show i < 32 by omega)]
    rfl

end

/-- Three words, each cut to the places of its axis, overlaid: the key of the triple whose bits stand there. -/
theorem or_lanes {f : Nat → Word} {t : Triple}
    (h : ∀ a < 3, ∀ j < 10, (f a).getLsbD (3 * j + a) = (tripleAxis t a).getLsbD j) :
    ((f 0 &&& laneMask 0) ||| (f 1 &&& laneMask 1) ||| (f 2 &&& laneMask 2)) = (mortonKey t).setWidth 32 := by
  have hlt : ((f 0 &&& laneMask 0) ||| (f 1 &&& laneMask 1) ||| (f 2 &&& laneMask 2)).toNat < 2 ^ 30 := by
    rw [BitVec.toNat_or, BitVec.toNat_or, BitVec.toNat_and, BitVec.toNat_and, BitVec.toNat_and]
    exact Nat.or_lt_two_pow (Nat.or_lt_two_pow (Nat.and_lt_two_pow _ (laneMask_lt 0))
      (Nat.and_lt_two_pow _ (laneMask_lt 1))) (Nat.and_lt_two_pow _ (laneMask_lt 2))
  rw [word_of_key hlt]
  congr 1
  apply BitVec.eq_of_getLsbD_eq
  intro i hi
  have hbit := h (i % 3) (by omega) (i / 3) (by omega)
  rw [Nat.div_add_mod] at hbit
  rw [getLsbD_mortonKey, ← hbit, BitVec.getLsbD_setWidth, BitVec.getLsbD_or, BitVec.getLsbD_or, BitVec.getLsbD_and,
    BitVec.getLsbD_and, BitVec.getLsbD_and, getLsbD_laneMask (by decide) hi, getLsbD_laneMask (by decide) hi,
    getLsbD_laneMask (by decide) hi]
  obtain h | h | h : i % 3 = 0 ∨ i % 3 = 1 ∨ i % 3 = 2 := by omega
  all_goals simp [h, hi]

theorem tripleAxis_tripleAdd (t u : Triple) (a : Nat) :
    tripleAxis (tripleAdd t u) a = tripleAxis t a + tripleAxis u a := by
  unfold tripleAxis; split <;> rfl

theorem tripleAxis_tripleSub (t u : Triple) (a : Nat) :
    tripleAxis (tripleSub t u) a = tripleAxis t a - tripleAxis u a := by
  unfold tripleAxis; split <;> rfl

section
variable (a b : Key)

theorem mortonAddLanes_eq : mortonAddLanes (a.setWidth 32) (b.setWidth 32) =
    (mortonKey (tripleAdd (mortonTriple a) (mortonTriple b))).setWidth 32 :=
  or_lanes (f := fun i => laneSum i (resultWord a) (resultWord b)) fun i hi j hj => by
    rw [getLsbD_laneSum hi a b hj, tripleAxis_tripleAdd, tripleAxis_mortonTriple a hi, tripleAxis_mortonTriple b hi]

theorem mortonSubLanes_eq : mortonSubLanes (a.setWidth 32) (b.setWidth 32) =
    (mortonKey (tripleSub (mortonTriple a) (mortonTriple b))).setWidth 32 :=
  or_lanes (f := fun i => laneDifference i (resultWord a) (resultWord b)) fun i hi j hj => by
    rw [getLsbD_laneDifference hi a b hj, tripleAxis_tripleSub, tripleAxis_mortonTriple a hi,
      tripleAxis_mortonTriple b hi]

theorem mortonAxis_sum {i : Nat} (hi : i < 3) :
    mortonAxis i (mortonKey (tripleAdd (mortonTriple a) (mortonTriple b))) =
      (mortonAxis i a + mortonAxis i b) % 1024 := by
  rw [mortonAxis_mortonKey _ hi, tripleAxis_tripleAdd, tripleAxis_mortonTriple a hi, tripleAxis_mortonTriple b hi,
    toNat_axis_add]
  rfl

theorem mortonAxis_difference {i : Nat} (hi : i < 3) :
    mortonAxis i (mortonKey (tripleSub (mortonTriple a) (mortonTriple b))) =
      (mortonAxis i a + 1024 - mortonAxis i b) % 1024 := by
  rw [mortonAxis_mortonKey _ hi, tripleAxis_tripleSub, tripleAxis_mortonTriple a hi, tripleAxis_mortonTriple b hi,
    toNat_axis_sub]
  rfl

theorem answers_mkAdd (s : State) : Answers (.mkAdd (a.setWidth 32) (b.setWidth 32)) s
    [(mortonKey (tripleAdd (mortonTriple a) (mortonTriple b))).setWidth 32] := by
  have h := answers_of_mortonBinary (i := .mkAdd _ _) (s := s) (t := mortonTriple a) (u := mortonTriple b)
    (f := tripleAdd) rfl
  rwa [mortonKey_mortonTriple, mortonKey_mortonTriple] at h

theorem answers_mkSub (s : State) : Answers (.mkSub (a.setWidth 32) (b.setWidth 32)) s
    [(mortonKey (tripleSub (mortonTriple a) (mortonTriple b))).setWidth 32] := by
  have h := answers_of_mortonBinary (i := .mkSub _ _) (s := s) (t := mortonTriple a) (u := mortonTriple b)
    (f := tripleSub) rfl
  rwa [mortonKey_mortonTriple, mortonKey_mortonTriple] at h

end

/-- Settles O37: the sum and the difference by axes, and in the lane forms no carry or borrow leaves its axis. -/
theorem mortonSumsAndDifferences : Obligations.MortonSumsAndDifferences := by
  unfold Obligations.MortonSumsAndDifferences
  exact ⟨fun a b s => ⟨_, _, answers_mkAdd a b s, answers_mkSub a b s,
      fun _ hi => ⟨mortonAxis_sum a b hi, mortonAxis_difference a b hi⟩, mortonAddLanes_eq a b, mortonSubLanes_eq a b⟩,
    fun a b s => ⟨commandIs_mkAdd a b, commandIs_mkSub a b,
      fun h => ⟨raises_of_keyBinary rfl h, raises_of_keyBinary rfl h⟩⟩⟩

end Sys2Proof.Proofs.KeyAxes
end

section
/-!
SUPPORT and PROOFS. World space: an integer cell by its position and its chunk along each axis (43_voxel_index.md R209), the
torus that follows (20_memory.md R56), the cell next to a cell, and with it the masks of `FACE` across every boundary
(46_face_solver.md R270).
-/

namespace Sys2Proof.Proofs.WorldSpace

open Sys2Proof Sys2Proof.Machine Sys2Proof.Proofs.Units Sys2Proof.Proofs.VoxelIndex Sys2Proof.Proofs.MortonSteps
  Sys2Proof.Proofs.FaceSolver

/-! ### Cells by axes (R209) -/

/-- The coordinate of a cell along axis `a`. -/
def coordinate (x y z : Int) : Nat → Int
  | 0 => x
  | 1 => y
  | _ => z

theorem forall_axis {P : Nat → Prop} : (∀ a < 3, P a) ↔ P 0 ∧ P 1 ∧ P 2 := by
  simp only [Nat.forall_lt_succ_right, Nat.not_lt_zero, false_implies, implies_true, true_and, and_assoc]

section
variable (x y z : Int) {a : Nat} (ha : a < 3)
include ha

theorem mem_coordinates : (a, coordinate x y z a) ∈ [(0, x), (1, y), (2, z)] := by
  interval_cases a <;> simp [coordinate]

theorem mortonAxis_worldIndexOfCell :
    (mortonAxis a (worldIndexOfCell x y z).1 : Int) = coordinate x y z a / 16 % 1024 :=
  (worldIndexOfCell_parts (mem_coordinates x y z ha)).1

theorem axisPos_worldIndexOfCell : (axisPos a (worldIndexOfCell x y z).2 : Int) = coordinate x y z a % 16 := by
  obtain ⟨-, hvoxel, hbit⟩ := worldIndexOfCell_parts (mem_coordinates x y z ha)
  rw [axisPos]
  omega

end

/-- A bitvoxel of a chunk is known by the axes of the key and the positions in the chunk. -/
theorem keyIndex_eq_iff {p q : Key × VIdx} :
    p = q ↔ ∀ a < 3, mortonAxis a p.1 = mortonAxis a q.1 ∧ axisPos a p.2 = axisPos a q.2 := by
  constructor
  · rintro rfl a -
    exact ⟨rfl, rfl⟩
  · exact fun h => Prod.ext (eq_of_mortonAxis fun a ha => (h a ha).1) (eq_of_axisPos fun a ha => (h a ha).2)

/-- Settles O44: chunk and position along an axis are the coordinate modulo 16384. -/
theorem worldIsATorusOfPeriod16384 : Obligations.WorldIsATorusOfPeriod16384 := by
  unfold Obligations.WorldIsATorusOfPeriod16384
  intro x y z x' y' z'
  calc worldIndexOfCell x y z = worldIndexOfCell x' y' z'
    _ ↔ ∀ a < 3, coordinate x y z a % 16384 = coordinate x' y' z' a % 16384 := by
      rw [keyIndex_eq_iff]
      refine forall₂_congr fun a ha => ?_
      have hkey := mortonAxis_worldIndexOfCell x y z ha
      have hkey' := mortonAxis_worldIndexOfCell x' y' z' ha
      have hpos := axisPos_worldIndexOfCell x y z ha
      have hpos' := axisPos_worldIndexOfCell x' y' z' ha
      omega
    _ ↔ _ := forall_axis

/-! ### The next cell -/

theorem coordinate_step (x y z : Int) (d : Dir) {a : Nat} (ha : a < 3) :
    coordinate (x + dirStep d 0) (y + dirStep d 1) (z + dirStep d 2) a = coordinate x y z a + dirStep d a := by
  interval_cases a <;> rfl

/-- The next cell in a direction is the neighbouring bitvoxel, in the chunk itself or in the neighbour chunk (R272, R273). -/
theorem worldIndexOfCell_step (x y z : Int) (d : Dir) :
    worldIndexOfCell (x + dirStep d 0) (y + dirStep d 1) (z + dirStep d 2) =
      (if (neighbourIndex (worldIndexOfCell x y z).2 d).1 then neighbourKey d (worldIndexOfCell x y z).1
        else (worldIndexOfCell x y z).1, (neighbourIndex (worldIndexOfCell x y z).2 d).2) := by
  refine keyIndex_eq_iff.2 fun a ha => ?_
  have hkey := mortonAxis_worldIndexOfCell (x + dirStep d 0) (y + dirStep d 1) (z + dirStep d 2) ha
  have hpos := axisPos_worldIndexOfCell (x + dirStep d 0) (y + dirStep d 1) (z + dirStep d 2) ha
  rw [coordinate_step x y z d ha] at hkey hpos
  have hkey0 := mortonAxis_worldIndexOfCell x y z ha
  have hpos0 := axisPos_worldIndexOfCell x y z ha
  have hstays := neighbourIndex_stays_iff (worldIndexOfCell x y z).2 d
  have hsign := dirSign_one_or d
  have hstep : dirAxis d = a ∧ dirStep d a = dirSign d ∨ dirStep d a = 0 := by
    unfold dirStep; split <;> simp [*]
  refine ⟨?key, ?position⟩
  case position =>
    have hneighbour := axisPos_neighbourIndex (worldIndexOfCell x y z).2 d ha
    dsimp only
    omega
  case key =>
    rw [StaysInside] at hstays
    cases hout : (neighbourIndex (worldIndexOfCell x y z).2 d).1 with
    | true =>
      have hleaves := mt hstays.2 (by rw [hout]; decide)
      have hneighbour := mortonAxis_neighbourKey d (worldIndexOfCell x y z).1 ha
      rw [if_pos rfl]
      dsimp only
      obtain ⟨rfl, hown⟩ | hother := hstep <;> omega
    | false =>
      have hinside := hstays.1 hout
      rw [if_neg Bool.false_ne_true]
      dsimp only
      obtain ⟨rfl, hown⟩ | hother := hstep <;> omega

/-! ### `FACE` in world space (R270) -/

/-- On a stored chunk a cell is set when its bitvoxel is. -/
theorem cellSet_of_worldGet {w : World} {k : Key} {c : Chunk} (h : worldGet w k = some c) (i : VIdx) :
    cellSet w (k, i) = layerBit c.layer i := by
  rw [Bool.eq_iff_iff, cellSet_iff, h]
  simp

/-- Settles O54: the entry's bit is that of `maskAt`, whose neighbour is the next cell. -/
theorem faceMasksOfWorldCells : Obligations.FaceMasksOfWorldCells := by
  unfold Obligations.FaceMasksOfWorldCells
  intro key k T s t h ht x y z d hk
  have hd : dirIndex d < 8 := by cases d <;> decide
  obtain ⟨-, hget⟩ := id h
  have hcell := cellSet_of_worldGet hget (worldIndexOfCell x y z).2
  rw [fmEntry, fm_of_exec_face h ht, readCell_faceBuffer_eq_maskAt, BitVec.getLsbD_setWidth, decide_eq_true hd,
    Bool.true_and, maskAt, worldIndexOfCell_step, hk, show worldIndexOfCell x y z = (k, (worldIndexOfCell x y z).2) from
      Prod.ext hk rfl, hcell]
  cases hbit : layerBit T.layer (worldIndexOfCell x y z).2 with
  | false => rw [if_neg Bool.false_ne_true, BitVec.getLsbD_zero, Bool.false_and]
  | true =>
    rw [if_pos rfl, getLsbD_faceMask, Bool.true_and]
    cases (neighbourIndex (worldIndexOfCell x y z).2 d).1 with
    | true => rw [if_pos rfl, if_pos rfl, layerBit_neighbourLayer]
    | false => rw [if_neg Bool.false_ne_true, if_neg Bool.false_ne_true, cellSet_of_worldGet hget]

end Sys2Proof.Proofs.WorldSpace
end

section
/-!
SUPPORT and PROOFS. What `RAY` answers (47_raycaster.md R305, R309), and that `RAY` and `FACE` read of the store its layers
alone (46_face_solver.md R274, 70_reset_and_hazards.md R376).
-/

namespace Sys2Proof.Proofs.LayerReaders

open Sys2Proof Sys2Proof.Machine Sys2Proof.Proofs.Units Sys2Proof.Proofs.Raycaster

/-! ### The hits of `RAY` (R309) -/

section
variable {sx sy sz ex ey ez : Word} {w : World} {s : State}

/-- The loop examines the start cell before any step. -/
theorem raycast_of_start_set
    (h : cellSet w (worldIndexOfCell (sx.toInt / 65536) (sy.toInt / 65536) (sz.toInt / 65536)) = true) :
    raycast w sx sy sz ex ey ez =
      some (worldIndexOfCell (sx.toInt / 65536) (sy.toInt / 65536) (sz.toInt / 65536)) := by
  rw [← rayAxis_cell sx ex, ← rayAxis_cell sy ey, ← rayAxis_cell sz ez] at h ⊢
  exact rayWalk_hit h _

theorem cellSet_of_raycast {wi : Key × VIdx} (h : raycast w sx sy sz ex ey ez = some wi) : cellSet w wi = true :=
  cellSet_of_rayWalk h

/-- A segment of zero length is an axis-parallel one with its start cell alone. -/
theorem raises_ray_of_start_unset
    (h : cellSet s.world (worldIndexOfCell (sx.toInt / 65536) (sy.toInt / 65536) (sz.toInt / 65536)) = false) :
    Raises (.ray sx sy sz sx sy sz) s .absent := by
  obtain ⟨-, hnone⟩ := axialRaysHitTheFirstSetCell 0 sx sx sy sz s
  refine hnone fun n hn => ?_
  obtain rfl : n = sx.toInt / 65536 := by unfold Between at hn; omega
  exact h

theorem setWidth_key_inj {k l : Key} (h : k.setWidth 32 = l.setWidth 32) : k = l := by
  simpa using congrArg (BitVec.setWidth 30) h

theorem setWidth_vidx_inj {i j : VIdx} (h : i.setWidth 32 = j.setWidth 32) : i = j := by
  have := congrArg (BitVec.setWidth 12) h
  simpa using this

/-- The two result words of a hit are the key and the index that the walk found. -/
theorem raycast_of_answers {key : Key} {index : VIdx}
    (h : Answers (.ray sx sy sz ex ey ez) s [key.setWidth 32, index.setWidth 32]) :
    raycast s.world sx sy sz ex ey ez = some (key, index) := by
  cases hr : raycast s.world sx sy sz ex ey ez with
  | none => exact absurd (respond_status (Host.Outcome.next.inj (h.symm.trans (raises_ray hr)))) (by decide)
  | some wi =>
    have hresp := congrArg State.respPort (Host.Outcome.next.inj (h.symm.trans (answers_ray hr)))
    simp only [respond_respPort, List.cons.injEq, and_true] at hresp
    obtain ⟨-, hkey, hindex⟩ := hresp
    rw [setWidth_key_inj hkey, setWidth_vidx_inj hindex]

end

/-- Settles O58: the first turn of the loop, the walk without a step, and that every answer of the loop is set. -/
theorem rayStartsAtItsFirstCellAndHitsSetBitvoxels : Obligations.RayStartsAtItsFirstCellAndHitsSetBitvoxels := by
  unfold Obligations.RayStartsAtItsFirstCellAndHitsSetBitvoxels
  intro sx sy sz ex ey ez s
  refine ⟨?start, fun key index h => (cellSet_iff s.world (key, index)).1 (cellSet_of_raycast (raycast_of_answers h))⟩
  case start =>
    rintro _ rfl
    exact ⟨fun h => answers_ray (raycast_of_start_set h), raises_ray_of_start_unset⟩

/-! ### Two stores with the same layers (R376) -/

section
variable {w w' : World} (h : SameLayers w w')
include h

theorem cellSet_of_sameLayers (wi : Key × VIdx) : cellSet w wi = cellSet w' wi := by
  have hlayer := h wi.1
  unfold cellSet
  cases hw : worldGet w wi.1 <;> cases hw' : worldGet w' wi.1 <;> simp_all

theorem rayWalk_of_sameLayers (fuel : Nat) (x y z : RayAxis) : rayWalk w fuel x y z = rayWalk w' fuel x y z := by
  induction fuel generalizing x y z with
  | zero => rfl
  | succ fuel ih => simp only [rayWalk, cellSet_of_sameLayers h, ih]

theorem raycast_of_sameLayers (sx sy sz ex ey ez : Word) : raycast w sx sy sz ex ey ez = raycast w' sx sy sz ex ey ez :=
  rayWalk_of_sameLayers h _ _ _ _

theorem neighbourLayer_of_sameLayers (k : Key) : neighbourLayer w k = neighbourLayer w' k := by
  funext d
  have hlayer := h (neighbourKey d k)
  unfold neighbourLayer worldGetOpt
  cases hw : worldGet w (neighbourKey d k) <;> cases hw' : worldGet w' (neighbourKey d k) <;> simp_all

/-- The other store holds a chunk with the same layer under the same key. -/
theorem holds_of_sameLayers {s s' : State} (hs : s.world = w) (hs' : s'.world = w') {key : Word} {k : Key} {c : Chunk}
    (hc : Holds s key k c) : ∃ c', Holds s' key k c' ∧ c'.layer = c.layer := by
  obtain ⟨hkey, hget⟩ := hc
  have hlayer := h k
  rw [← hs, ← hs', hget] at hlayer
  obtain ⟨c', hget', hl⟩ := Option.map_eq_some_iff.1 hlayer.symm
  exact ⟨c', ⟨hkey, hget'⟩, hl⟩

end

/-- Settles O17: what `FACE` writes and what `RAY` answers are functions of the layers. -/
theorem metadataAffectsNeitherFaceNorRay : Obligations.MetadataAffectsNeitherFaceNorRay := by
  unfold Obligations.MetadataAffectsNeitherFaceNorRay
  intro s s' h
  refine ⟨fun key t t' k c hc ht ht' => ?face, fun sx sy sz ex ey ez t t' ht ht' => ?ray⟩
  case face =>
    obtain ⟨c', hc', hlayer⟩ := holds_of_sameLayers h rfl rfl hc
    obtain rfl := Host.Outcome.next.inj (ht.symm.trans (exec_face_of_holds hc))
    obtain rfl := Host.Outcome.next.inj (ht'.symm.trans (exec_face_of_holds hc'))
    refine ⟨?_, rfl⟩
    rw [respond_fm, respond_fm, hlayer, neighbourLayer_of_sameLayers h]
  case ray =>
    have hsame := raycast_of_sameLayers h sx sy sz ex ey ez
    cases hr : raycast s.world sx sy sz ex ey ez with
    | none =>
      obtain rfl := Host.Outcome.next.inj (ht.symm.trans (raises_ray hr))
      obtain rfl := Host.Outcome.next.inj (ht'.symm.trans (raises_ray (hsame ▸ hr)))
      rfl
    | some wi =>
      obtain rfl := Host.Outcome.next.inj (ht.symm.trans (answers_ray hr))
      obtain rfl := Host.Outcome.next.inj (ht'.symm.trans (answers_ray (hsame ▸ hr)))
      rfl

end Sys2Proof.Proofs.LayerReaders
end

section
/-!
SUPPORT and PROOFS. The laws of the layer over sequences of commands (44_layer_chunk.md R238): the state that a layer update of
a stored chunk leads to, the layer after `CH.SET` of every index of a list, and the counts after `CH.FILL` and `CH.EMPTY`.
-/

namespace Sys2Proof.Proofs.LayerSequences

open Sys2Proof Sys2Proof.Machine Sys2Proof.Proofs.Reset Sys2Proof.Proofs.ChunkCommands Sys2Proof.Proofs.WorldStore

/-! ### One command after another -/

theorem execAll_cons {i : Instr} {s t : State} (h : exec i s = .next t) (rest : List Instr) :
    execAll (i :: rest) s = execAll rest t := by
  rw [execAll, h]

section
variable {key : Word} {s : State} {k : Key} {c : Chunk}

/-- After a layer update the store holds the chunk with its new layer. -/
theorem exists_holds_of_layerUpdate {i : Instr} {f : Layer → Layer} (h : Holds s key k c)
    (hi : exec i s = chunkLayerUpdate f key s) :
    ∃ t, exec i s = .next t ∧ Holds t key k { c with layer := f c.layer } := by
  obtain ⟨hkey, -⟩ := id h
  exact ⟨_, hi.trans (withChunk_of_holds h _), hkey, worldGet_worldPut_self _ _ _⟩

/-- After a new chunk is stored the store holds it. -/
theorem exists_holds_of_wIns (var : BitVec 2) (k : Key) (s : State) : ∃ t, exec (.wIns var (k.setWidth 32)) s = .next t ∧
    Holds t (k.setWidth 32) k (newChunk k (widthOfCode var)) :=
  ⟨_, exec_wIns var k s, rfl, worldGet_worldPut_self _ _ _⟩

theorem answers_chGet_bit (h : Holds s key k c) (vi : VIdx) :
    Answers (.chGet vi key) s [bitWord (layerBit c.layer vi)] := layerGet_eq c.layer vi ▸ answers_chGet h vi

/-- After `CH.SET` of every index of a list the store holds the chunk with all of them set. -/
theorem exists_holds_of_chSets (S : List VIdx) (h : Holds s key k c) :
    ∃ t, execAll (S.map fun i => .chSet i key) s = .next t ∧ Holds t key k { c with layer := S.foldl layerSet c.layer } := by
  induction S generalizing s c with
  | nil => exact ⟨s, rfl, h⟩
  | cons i S ih =>
    obtain ⟨t, ht, hold⟩ := exists_holds_of_layerUpdate (i := .chSet i key) (f := (layerSet · i)) h rfl
    obtain ⟨u, hu, hold'⟩ := ih hold
    exact ⟨u, (execAll_cons ht _).trans hu, hold'⟩

end

/-! ### Layers with a list of indices set -/

theorem layerBit_foldl_layerSet (S : List VIdx) (ly : Layer) (j : VIdx) :
    layerBit (S.foldl layerSet ly) j = (decide (j ∈ S) || layerBit ly j) := by
  induction S generalizing ly with
  | nil => simp
  | cons i S ih =>
    rw [List.foldl_cons, ih, layerBit_layerSet]
    by_cases hj : j = i <;> simp [hj]

theorem foldl_layerSet_wf (S : List VIdx) {ly : Layer} (h : cellsWf Config.layerWords ly = true) :
    cellsWf Config.layerWords (S.foldl layerSet ly) = true := by
  induction S generalizing ly with
  | nil => exact h
  | cons i S ih => exact ih (layerModify_wf h i)

/-- The positions of a layer's set bitvoxels are as many as the bitvoxels. -/
theorem card_positions (S : List VIdx) :
    ((Finset.range 4096).filter fun q => BitVec.ofNat 12 q ∈ S).card = S.toFinset.card := by
  rw [← Finset.card_image_of_injective S.toFinset (f := BitVec.toNat) fun _ _ h => BitVec.eq_of_toNat_eq h]
  refine congrArg Finset.card (Finset.ext fun q => ?_)
  simp only [Finset.mem_filter, Finset.mem_range, Finset.mem_image, List.mem_toFinset]
  constructor
  · rintro ⟨hq, hS⟩
    exact ⟨_, hS, by rw [BitVec.toNat_ofNat]; exact Nat.mod_eq_of_lt hq⟩
  · rintro ⟨i, hi, rfl⟩
    exact ⟨i.isLt, by rwa [BitVec.ofNat_toNat, BitVec.setWidth_eq]⟩

theorem layerBit_of_new (S : List VIdx) (j : VIdx) :
    layerBit (S.foldl layerSet emptyLayer) j = decide (j ∈ S) := by
  rw [layerBit_foldl_layerSet, layerBit_emptyLayer, Bool.or_false]

theorem layerLength_of_new (S : List VIdx) : layerLength (S.foldl layerSet emptyLayer) = S.toFinset.card := by
  rw [layerLength_eq (foldl_layerSet_wf S (ly := emptyLayer) (cellsWf_nil _)), ← card_positions]
  simp only [layerBit_of_new, decide_eq_true_eq]

/-! ### Counts after a group write -/

theorem layerCount_writeGroup (ly : Layer) (vi : VIdx) (v : Word) :
    layerCount (writeGroup ly (groupOf vi) v) vi = popcount v + popcount v := by
  rw [layerCount, writeGroup, readCell_writeCell_self, readCell_writeCell_ne _ _ (by omega), readCell_writeCell_self]

theorem layerCount_layerFill (ly : Layer) (vi : VIdx) : layerCount (layerFill ly vi) vi = 64 :=
  (layerCount_writeGroup ly vi _).trans (by decide)

theorem layerCount_layerEmpty (ly : Layer) (vi : VIdx) : layerCount (layerEmpty ly vi) vi = 0 :=
  (layerCount_writeGroup ly vi _).trans (by rw [popcount_zero])

/-- A group write and the reads after it: the count of the voxel, and each of its bitvoxels. -/
theorem voxel_reads_after {i : Instr} {f : Layer → Layer} {key : Word} {s : State} {k : Key} {c : Chunk} {vi : VIdx} {n : Nat}
    {b : Bool} (h : Holds s key k c) (hi : exec i s = chunkLayerUpdate f key s) (hcount : layerCount (f c.layer) vi = n)
    (hbit : ∀ j : VIdx, j.toNat / 64 = vi.toNat / 64 → layerBit (f c.layer) j = b) :
    ∃ t, exec i s = .next t ∧ Answers (.chCount vi key) t [BitVec.ofNat 32 n] ∧
      ∀ j : VIdx, j.toNat / 64 = vi.toNat / 64 → Answers (.chGet j key) t [bitWord b] := by
  obtain ⟨t, ht, hold⟩ := exists_holds_of_layerUpdate h hi
  refine ⟨t, ht, ?_, fun j hj => ?_⟩
  · rw [← hcount]
    exact answers_chCount hold vi
  · rw [← hbit j hj]
    exact answers_chGet_bit hold j

/-- Settles O49: the layer after the sequence is known bitvoxel by bitvoxel, and a filled or emptied group by its two words. -/
theorem layerLaws : Obligations.LayerLaws := by
  unfold Obligations.LayerLaws
  refine ⟨fun s k var S => ?sets, fun s key k c vi h => ⟨?fill, ?empty⟩⟩
  case sets =>
    obtain ⟨t, ht, hold⟩ := exists_holds_of_wIns var k s
    obtain ⟨u, hu, hold'⟩ := exists_holds_of_chSets S hold
    refine ⟨u, (execAll_cons ht _).trans hu, ?_, fun i => ?_⟩
    · rw [← layerLength_of_new]
      exact answers_chLen hold'
    · rw [← layerBit_of_new]
      exact answers_chGet_bit hold' i
  case fill =>
    exact voxel_reads_after (f := (layerFill · vi)) (b := true) h rfl (layerCount_layerFill c.layer vi)
      fun j hj => (layerBit_layerFill c.layer vi j).trans (if_pos hj)
  case empty =>
    exact voxel_reads_after (f := (layerEmpty · vi)) (b := false) h rfl (layerCount_layerEmpty c.layer vi)
      fun j hj => (layerBit_layerEmpty c.layer vi j).trans (if_pos hj)

end Sys2Proof.Proofs.LayerSequences
end

section
/-!
SUPPORT and PROOFS. The HashGrid of 10_state.md R30 as a refinement of the store (R24, R31; 45_world_store.md R255): its
operations replace one bucket, which holds for its keys what the store holds.
-/

namespace Sys2Proof.Proofs.HashGrid

open Sys2Proof Sys2Proof.Machine Sys2Proof.Proofs.Reset

/-! ### One bucket -/

theorem mem_bucketSet {t : List (Nat × Chunk)} {k : Nat} {c : Chunk} {e : Nat × Chunk} (h : e ∈ bucketSet t k c) :
    e.1 = k ∨ e ∈ t := by
  induction t with
  | nil => exact .inl (List.mem_singleton.1 h ▸ rfl)
  | cons d t ih =>
    obtain ⟨a, u⟩ := d
    rw [bucketSet] at h
    split at h
    · obtain rfl | h := List.mem_cons.1 h
      · exact .inl ‹_›
      · exact .inr (List.mem_cons_of_mem _ h)
    · obtain rfl | h := List.mem_cons.1 h
      · exact .inr List.mem_cons_self
      · exact (ih h).imp_right (List.mem_cons_of_mem _)

theorem mem_bucketRemove {t : List (Nat × Chunk)} {k : Nat} {e : Nat × Chunk} (h : e ∈ bucketRemove t k) : e ∈ t := by
  induction t with
  | nil => exact h
  | cons d t ih =>
    obtain ⟨a, u⟩ := d
    rw [bucketRemove] at h
    split at h
    · exact List.mem_cons_of_mem _ h
    · obtain rfl | h := List.mem_cons.1 h
      · exact List.mem_cons_self
      · exact List.mem_cons_of_mem _ (ih h)

theorem bucketDistinct_bucketSet {t : List (Nat × Chunk)} (h : bucketDistinct t = true) (k : Nat) (c : Chunk) :
    bucketDistinct (bucketSet t k c) = true := by
  induction t with
  | nil => rfl
  | cons d t ih =>
    obtain ⟨a, u⟩ := d
    obtain ⟨hne, ht⟩ := (bucketDistinct_cons a u t).1 h
    rw [bucketSet]
    split
    · exact (bucketDistinct_cons a c t).2 ⟨hne, ht⟩
    · rename_i hak
      refine (bucketDistinct_cons a u _).2 ⟨fun e he => ?_, ih ht⟩
      obtain hk | he := mem_bucketSet he
      · exact hk ▸ Ne.symm hak
      · exact hne e he

theorem bucketDistinct_bucketRemove {t : List (Nat × Chunk)} (h : bucketDistinct t = true) (k : Nat) :
    bucketDistinct (bucketRemove t k) = true := by
  induction t with
  | nil => rfl
  | cons d t ih =>
    obtain ⟨a, u⟩ := d
    obtain ⟨hne, ht⟩ := (bucketDistinct_cons a u t).1 h
    rw [bucketRemove]
    split
    · exact ht
    · exact (bucketDistinct_cons a u _).2 ⟨fun e he => hne e (mem_bucketRemove he), ih ht⟩

/-! ### The grid with one bucket replaced -/

theorem gridWf_iff (g : Grid) : gridWf g = true ↔
    1 ≤ g.n ∧ g.buckets.length = g.n ∧ ∀ b ∈ g.buckets, bucketDistinct b = true := by
  simp [gridWf, and_assoc]

/-- The grid with another list in the place of the bucket of `k`. -/
def replaceBucket (g : Grid) (k : Key) (b : List (Nat × Chunk)) : Grid :=
  { g with buckets := g.buckets.set (bucketOf g k) b }

theorem gridSet_eq (g : Grid) (k : Key) (c : Chunk) :
    gridSet g k c = replaceBucket g k (bucketSet (bucketAt g k) k.toNat c) := rfl

theorem gridRemove_eq (g : Grid) (k : Key) :
    gridRemove g k = ((gridGet g k).isSome, replaceBucket g k (bucketRemove (bucketAt g k) k.toNat)) := rfl

section
variable {g : Grid} (h : gridWf g = true)
include h

theorem bucketOf_lt (k : Key) : bucketOf g k < g.buckets.length := by
  obtain ⟨hn, hlen, -⟩ := (gridWf_iff g).1 h
  exact hlen ▸ Nat.mod_lt _ hn

theorem bucketDistinct_bucketAt (k : Key) : bucketDistinct (bucketAt g k) = true := by
  obtain ⟨-, -, hb⟩ := (gridWf_iff g).1 h
  rw [bucketAt, List.getD_eq_getElem _ _ (bucketOf_lt h k)]
  exact hb _ (List.getElem_mem _)

theorem bucketAt_replaceBucket (k j : Key) (b : List (Nat × Chunk)) :
    bucketAt (replaceBucket g k b) j = if bucketOf g k = bucketOf g j then b else bucketAt g j := by
  have hlt : bucketOf g j < (g.buckets.set (bucketOf g k) b).length :=
    (bucketOf_lt h j).trans_eq List.length_set.symm
  have hget : bucketAt (replaceBucket g k b) j = (g.buckets.set (bucketOf g k) b)[bucketOf g j] :=
    List.getD_eq_getElem _ _ hlt
  rw [hget, List.getElem_set, bucketAt, List.getD_eq_getElem _ _ (bucketOf_lt h j)]

theorem gridWf_replaceBucket (k : Key) {b : List (Nat × Chunk)} (hb : bucketDistinct b = true) :
    gridWf (replaceBucket g k b) = true := by
  obtain ⟨hn, hlen, hbs⟩ := (gridWf_iff g).1 h
  refine (gridWf_iff _).2 ⟨hn, List.length_set.trans hlen, fun b' hb' => ?_⟩
  obtain hmem | rfl := List.mem_or_eq_of_mem_set hb'
  · exact hbs b' hmem
  · exact hb

/-- A bucket that differs at `k` alone changes the grid at `k` alone: keys that share the bucket stay apart (R255). -/
theorem gridGet_replaceBucket {k : Key} {b : List (Nat × Chunk)} {o : Option Chunk}
    (hb : ∀ j, lookupAt b j = if j = k.toNat then o else lookupAt (bucketAt g k) j) (j : Key) :
    gridGet (replaceBucket g k b) j = if j = k then o else gridGet g j := by
  rw [gridGet, bucketAt_replaceBucket h, gridGet]
  by_cases hbucket : bucketOf g k = bucketOf g j
  · rw [if_pos hbucket, hb, bucketAt, hbucket, ← bucketAt]
    simp only [BitVec.toNat_inj]
  · rw [if_neg hbucket, if_neg (by rintro rfl; exact hbucket rfl)]

variable {w : World} (hw : GridRefines g w)
include hw

theorem gridRefines_gridSet (k : Key) (c : Chunk) : GridRefines (gridSet g k c) (worldPut w k c) := fun j => by
  rw [gridSet_eq, gridGet_replaceBucket h fun j => lookupAt_bucketSet _ k.toNat j c, worldGet_worldPut, hw j]

theorem gridRefines_gridRemove (k : Key) : GridRefines (gridRemove g k).2 (worldRemove w k) := fun j => by
  rw [gridRemove_eq, gridGet_replaceBucket h fun j => lookupAt_bucketRemove (bucketDistinct_bucketAt h k) k.toNat j,
    worldGet_worldRemove, hw j]

end

/-! ### The new grid -/

theorem one_le_gridSize (requested : Int) : 1 ≤ gridSize requested := by
  unfold gridSize
  split
  · omega
  · decide

theorem gridWf_gridNew (requested : Int) : gridWf (gridNew requested) = true :=
  (gridWf_iff _).2 ⟨one_le_gridSize requested, List.length_replicate, fun _ hb => List.eq_of_mem_replicate hb ▸ rfl⟩

theorem gridRefines_gridNew (requested : Int) : GridRefines (gridNew requested) [] := fun k => by
  have hlt := bucketOf_lt (gridWf_gridNew requested) k
  have hempty : bucketAt (gridNew requested) k = [] :=
    (List.getD_eq_getElem _ _ hlt).trans (List.getElem_replicate _)
  rw [gridGet, hempty, worldGet_nil]
  rfl

/-- Settles O52: set and remove replace one bucket, and the lookups in a bucket are those of the store. -/
theorem hashGridRefinesTheStore : Obligations.HashGridRefinesTheStore := by
  unfold Obligations.HashGridRefinesTheStore
  exact ⟨fun requested => ⟨gridWf_gridNew requested, gridRefines_gridNew requested⟩, fun g w k c h hw =>
    ⟨hw k, gridWf_replaceBucket h k (bucketDistinct_bucketSet (bucketDistinct_bucketAt h k) _ c),
      gridRefines_gridSet h hw k c, congrArg Option.isSome (hw k),
      gridWf_replaceBucket h k (bucketDistinct_bucketRemove (bucketDistinct_bucketAt h k) _),
      gridRefines_gridRemove h hw k⟩⟩

end Sys2Proof.Proofs.HashGrid
end

end
